-- ==== Sys2Proof/Word.lean ====
section
/-!
DEFINITION. The parameters AW and LW, the word types of the block, and the two kinds of word an
instruction can be written as.

`00_scope.md` R7 leaves the address width AW and the length width LW to the platform: the model takes
both as parameters (`Widths`), for every value. A register whose width is a parameter, an address and a
word of the host's register port are numbers, and every write to such a register narrows explicitly to
its width (`Widths.narrowAddr`, `Widths.narrowLen` in Machine/Ops.lean; log 1).
-/

namespace Sys2Proof

/-- The two parameters of `00_scope.md` R7: `aw` is AW, the width of an address, and `lw` is LW, the
width of a length, of the result and of a cursor's byte index. -/
structure Widths where
  aw : Nat
  lw : Nat
  deriving DecidableEq, Repr

/-- A byte of memory (`20_memory.md` R60). -/
abbrev Byte := BitVec 8

/-- The value of one code, the length of a chunk (`30_encoding.md` R90). -/
abbrev Code := BitVec 3

/-- A word that spells an instruction: a code of the code stream (`30_encoding.md` R90) or a word
written to CTRL (`30_encoding.md` R106). The two spaces number their bits separately. -/
inductive InstrWord where
  | code3 (v : Code)
  | ctrl (w : Nat)
  deriving DecidableEq, Repr

end Sys2Proof
end

