-- ==== Sys2Proof/Config.lean ====
section
/-!
DEFINITION. What a platform or this model fixes, and the free values of the model.
-/

namespace Sys2Proof

/-- The parameters of the machine that `State.reset` is: AW = LW = 32, the default of
`93_implementation_defined.md` U16 and the value of the spec's examples (`00_scope.md` R7). Every other
definition takes the parameters from the state (log 1). -/
def Config.widths : Widths := ⟨32, 32⟩

/-- What a byte of memory reads as that nothing has written. DESIGN CHOICE, unsafe (log 3): the spec
fixes no contents. -/
def Config.unwrittenByte : Byte := 0

/-- The free values, numbered: `freeBits w n` is the n-th one, at width w. It has no body, so a
statement about it holds for every value (log 6). It stands for the values that
`93_implementation_defined.md` U9, U10 and U13 leave open. -/
opaque Config.freeBits (w : Nat) : Nat → BitVec w

end Sys2Proof
end

