-- ==== Sys2Proof/Syntax.lean ====
section
/-!
DEFINITION. The instructions: one constructor per row of `spec/opcode_table.json`.
-/

namespace Sys2Proof

/-- The eight codes of the code stream (`30_encoding.md` R94) and the two commands
(`30_encoding.md` R106). No row of the table has an operand field: a code's value is its whole word,
and a command takes its operands from the four operand registers. -/
inductive Instr where
  | run0
  | run1
  | run2
  | run3
  | run4
  | run5
  | run6
  | run7c
  | encode
  | decode
  deriving DecidableEq, Repr

end Sys2Proof
end

