-- ==== Sys2Proof/WellFormed.lean ====
section
/-!
DEFINITION. The well-formedness checks: of the parameters, of an instruction, of an instruction word in
the form the encoder writes, and of a code stream in the canonical form ENCODE produces.
-/

namespace Sys2Proof

/-- The constraint on the parameters: "AW >= 1" and "LW >= 2" (`00_scope.md` R7). -/
def Widths.wellFormed (p : Widths) : Bool := decide (1 ≤ p.aw) && decide (2 ≤ p.lw)

/-- An instruction carries no operand (no row of the table has a field), so each is well formed. -/
def Instr.wellFormed : Instr → Bool
  | .run0 => true
  | .run1 => true
  | .run2 => true
  | .run3 => true
  | .run4 => true
  | .run5 => true
  | .run6 => true
  | .run7c => true
  | .encode => true
  | .decode => true

/-- Is the instruction one of the eight codes of the stream (`30_encoding.md` R94)? -/
def Instr.isCode : Instr → Bool
  | .encode => false
  | .decode => false
  | _ => true

/-- A word in the one form the encoder writes: every code (`30_encoding.md` R99: none is reserved),
and a CTRL word with START = 1 and every reserved bit 0 (`10_state.md` R26). -/
def InstrWord.wellFormed : InstrWord → Bool
  | .code3 _ => true
  | .ctrl w => w.testBit 0 && decide (w < 4)

/-- The rest of a canonical stream, `first` saying whether a code 0 may stand here: at the start of
the stream or directly after a code 7 (`30_encoding.md` R102). -/
def canonicalFrom (zeroOk : Bool) : List Code → Bool
  | [] => false
  | [c] => c != 7 && (zeroOk || c != 0)
  | c :: rest => (zeroOk || c != 0) && canonicalFrom (c == 7) rest

/-- A canonical code list, the only kind ENCODE produces: "a code 0 appears only as the first code of
the stream, or directly after a code 7; and the list ends with a closing code" (`30_encoding.md`
R102). -/
def canonicalCodes (cs : List Code) : Bool := canonicalFrom true cs

end Sys2Proof
end

