-- ==== Sys2Proof/Decode.lean ====
section
/-!
DEFINITION. The bit-stream helpers of `00_scope.md` R10, the decoders (of a code, of a CTRL word, of
a whole code stream), the encoder, and the decoder as the opcode table numbers its words.
-/

namespace Sys2Proof

/-! ## Bit streams (`00_scope.md` R8, R10) -/

/-- The eight bits of a byte in stream order: offset k is bit 7 - k (`00_scope.md` R8). -/
def byteBits (x : Byte) : List Bool :=
  [x.getLsbD 7, x.getLsbD 6, x.getLsbD 5, x.getLsbD 4, x.getLsbD 3, x.getLsbD 2, x.getLsbD 1,
    x.getLsbD 0]

/-- `bits(B)`: the bit stream of a byte list (`00_scope.md` R10, `20_memory.md` R65). -/
def bitsOf : List Byte → List Bool
  | [] => []
  | x :: xs => byteBits x ++ bitsOf xs

/-- The byte whose bit at stream offset k is `f k`, k in 0..7 (`00_scope.md` R8). -/
def byteOfOffsets (f : Nat → Bool) : Byte := BitVec.ofFnLE fun i : Fin 8 => f (7 - i.val)

/-- `pack(b)`: the bytes whose stream positions are the bits of b and then 0 up to the byte boundary
(`00_scope.md` R10). -/
def pack (b : List Bool) : List Byte :=
  (List.range ((b.length + 7) / 8)).map fun i => byteOfOffsets fun k => b.getD (8 * i + k) false

/-- `code3(v)`: the three bits of a code, most significant first (`00_scope.md` R10, `30_encoding.md`
R93). -/
def code3 (v : Code) : List Bool := [v.getLsbD 2, v.getLsbD 1, v.getLsbD 0]

/-- `v = 4*b0 + 2*b1 + b2` from the three stream bits of a code (`30_encoding.md` R93). -/
def codeOfBits (b0 b1 b2 : Bool) : Code :=
  BitVec.ofNat 3 (4 * b0.toNat + 2 * b1.toNat + b2.toNat)

/-- The bits of a code list, packed back to back (`30_encoding.md` R91). -/
def codeBits (cs : List Code) : List Bool := cs.flatMap code3

/-- The whole codes of a bit stream; the one or two bits left over are discarded (`30_encoding.md`
R91, R98). -/
def codesOf : List Bool → List Code
  | b0 :: b1 :: b2 :: rest => codeOfBits b0 b1 b2 :: codesOf rest
  | _ => []

/-! ## Instruction words -/

/-- Why a word is no instruction. -/
inductive DecodeError where
  /-- a CTRL word with START = 0: "none: START = 0, the write has no effect" (`30_encoding.md` R106) -/
  | noStart
  deriving DecidableEq, Repr

/-- The instruction a code is (`30_encoding.md` R94): all eight values are defined (R99). -/
def decodeCode (v : Code) : Instr :=
  match v.toNat with
  | 0 => .run0
  | 1 => .run1
  | 2 => .run2
  | 3 => .run3
  | 4 => .run4
  | 5 => .run5
  | 6 => .run6
  | _ => .run7c

/-- The command a word written to CTRL is: bit 0 is START, bit 1 is OP, the bits above are ignored
(`10_state.md` R26, `30_encoding.md` R106, `43_commands.md` R201). -/
def decodeCtrl (w : Nat) : Except DecodeError Instr :=
  if w.testBit 0 then
    if w.testBit 1 then .ok .decode else .ok .encode
  else .error .noStart

/-- The decoder, total on every word of either space. -/
def decode : InstrWord → Except DecodeError Instr
  | .code3 v => .ok (decodeCode v)
  | .ctrl w => decodeCtrl w

/-- The instructions of a byte list read as a code stream: total on every byte list of every length,
since "any input byte sequence of any length is a syntactically legal encoded stream"
(`30_encoding.md` R99). -/
def decodeStream (bs : List Byte) : List Instr := (codesOf (bitsOf bs)).map decodeCode

/-- The encoder: the word of each instruction (`30_encoding.md` R94, R106). -/
def encode : Instr → InstrWord
  | .run0 => .code3 0b000#3
  | .run1 => .code3 0b001#3
  | .run2 => .code3 0b010#3
  | .run3 => .code3 0b011#3
  | .run4 => .code3 0b100#3
  | .run5 => .code3 0b101#3
  | .run6 => .code3 0b110#3
  | .run7c => .code3 0b111#3
  | .encode => .ctrl 0b01
  | .decode => .ctrl 0b11

/-- The bytes of a code list as ENCODE lays them out: codes back to back, zero bits up to the byte
boundary (`30_encoding.md` R91, R97). -/
def encodeStream (cs : List Code) : List Byte := pack (codeBits cs)

/-! ## The opcode table's numbering -/

/-- Is a table word of this width a CTRL word? The table gives the commands 2 bits; 32 is the width of
the CTRL register's word at the default parameters. Every other width is read as a code (log 16). -/
def isCtrlWidth (nbits : Nat) : Bool := nbits == 2 || nbits == 32

/-- The instruction the decoder reads from a word numbered as `spec/opcode_table.json` numbers it
(bit 0 of a code is v[0], bit 0 of a command is START). -/
def decodeTableWord (nbits w : Nat) : Option Instr :=
  if isCtrlWidth nbits then (decode (.ctrl w)).toOption
  else (decode (.code3 (BitVec.ofNat 3 w))).toOption

end Sys2Proof
end

