-- ==== Sys2Proof/Machine/State.lean ====
section
/-!
DEFINITION. The state of the machine as plain data, its reset value, and the reasons a step can stop.
-/

namespace Sys2Proof.Machine

/-- Memory: (address, byte) pairs, addresses strictly rising, no entry equal to what an unlisted
address reads as (`Memory.wf`). -/
abbrev Memory := List Host.Cell

/-- The sequencing register (`10_state.md` R32). -/
inductive Phase where
  /-- no command since reset -/
  | idle
  /-- an ENCODE is executing -/
  | enc
  /-- a DECODE is executing -/
  | dec
  /-- the last command has completed; RESULT is valid -/
  | done
  deriving DecidableEq, Repr

/-- The operation of a command, CTRL.OP (`10_state.md` R26, R38): 0 ENCODE, 1 DECODE. -/
inductive Op where
  | encode
  | decode
  deriving DecidableEq, Repr

/-- A bit cursor: a byte index and an offset from the most significant bit (`40_bit_cursor.md` R120). -/
structure Cursor where
  byte : Nat
  bit : BitVec 3
  deriving DecidableEq, Repr

/-- A range of addresses that is not plain memory in some way on this platform (`20_memory.md` R69,
R71; log 11): `readable` says that its bytes are still plain readable memory (a ROM), `writable` that
they are plain writable memory. -/
structure Window where
  base : Nat
  size : Nat
  readable : Bool
  writable : Bool
  deriving DecidableEq, Repr

/-- Which operand registers the host has written since reset (`70_reset_and_hazards.md` R252, log 9). -/
structure Written where
  srcAddr : Bool
  srcLen : Bool
  dstAddr : Bool
  dstLen : Bool
  deriving DecidableEq, Repr

/-- One access of the engine through its memory ports (`43_commands.md` R211). -/
inductive Access where
  | read (a : Nat)
  | write (a : Nat) (v : Byte)
  deriving DecidableEq, Repr

/-- One action of the host agent (`43_commands.md` R200, R211; log 4). -/
inductive HostAction where
  /-- write `v` to the register at byte offset `off` (`10_state.md` R28) -/
  | writeReg (off : Nat) (v : Nat)
  /-- read the register at byte offset `off` -/
  | readReg (off : Nat)
  /-- store a byte in memory (`70_reset_and_hazards.md` R253) -/
  | writeMem (a : Nat) (v : Byte)
  /-- load a byte from memory -/
  | readMem (a : Nat)
  /-- assert the reset input (`70_reset_and_hazards.md` R250) -/
  | reset
  /-- no access: the engine takes its step -/
  | wait
  deriving DecidableEq, Repr

/-- Why the machine stops with a fault. -/
inductive Fault where
  /-- Raised by a host access to the register port at an offset where the register map of
  `10_state.md` R28 has no register. Safe: the model stops where the spec says nothing (log 14). -/
  | noRegister
  /-- Raised by a host access to memory at an address outside the space of 2^AW addresses
  (`20_memory.md` R60). Safe: no such address exists. -/
  | noAddress
  deriving DecidableEq, Repr

/-- Why a step has no meaning. -/
inductive Refusal where
  /-- Raised by `exec` for an instruction that has no meaning yet. Safe. No arm answers it now. -/
  | notModelled (mnemonic : String)
  /-- Raised by a START whose needed operand register the host has not written since reset, an
  illegal command (`70_reset_and_hazards.md` R252, `93_implementation_defined.md` U9). Safe. -/
  | operandNeverWritten
  /-- Raised by a START with SRC_LEN or DST_LEN above 2^(LW-1) - 1 (`43_commands.md` R208 L1, U4).
  Safe. -/
  | lengthTopBitSet
  /-- Raised by a START whose source or destination region runs past the top of the address space
  (`43_commands.md` R208 L2, U7). Safe. -/
  | regionWraps
  /-- Raised by a START whose regions are not plain memory (`43_commands.md` R208 L3, U6), and by a
  host access to memory that is not plain memory (`20_memory.md` R69). Safe. -/
  | notPlainMemory
  /-- Raised by a START whose regions share a byte (`43_commands.md` R208 L4, U5). Safe. -/
  | regionsOverlap
  /-- Raised by a host write to either region, or a host read of the destination region, while BUSY
  (`70_reset_and_hazards.md` R255, `93_implementation_defined.md` U8). Safe. -/
  | bufferNotOwned
  deriving DecidableEq, Repr

/-- Everything the spec gives the machine, and the model's own fields (INVENTORY.md, State). -/
structure State where
  /-- the parameters AW and LW (`00_scope.md` R7), which no step changes (log 1) -/
  widths : Widths
  /-- SRC_ADDR (`10_state.md` R21) -/
  srcAddr : Nat
  /-- SRC_LEN (`10_state.md` R22) -/
  srcLen : Nat
  /-- DST_ADDR (`10_state.md` R23) -/
  dstAddr : Nat
  /-- DST_LEN (`10_state.md` R24) -/
  dstLen : Nat
  /-- RESULT (`10_state.md` R25) -/
  result : Nat
  /-- STATUS.OVF (`10_state.md` R27) -/
  statusOvf : Bool
  /-- phase (`10_state.md` R32) -/
  phase : Phase
  /-- op (`10_state.md` R38) -/
  op : Op
  /-- (rd_byte, rd_bit) (`10_state.md` R30) -/
  rd : Cursor
  /-- rbuf (`10_state.md` R31) -/
  rbuf : Byte
  /-- (wr_byte, wr_bit) (`10_state.md` R33) -/
  wr : Cursor
  /-- wacc (`10_state.md` R34) -/
  wacc : Byte
  /-- pol (`10_state.md` R35) -/
  pol : Bool
  /-- cnt (`10_state.md` R36) -/
  cnt : BitVec 3
  /-- ovf (`10_state.md` R37) -/
  ovf : Bool
  /-- the memory (`20_memory.md` R60) -/
  mem : Memory
  /-- the platform's memory map: what is not plain memory (`20_memory.md` R69, R71; log 11) -/
  windows : List Window
  /-- model's own: operand registers written since reset (log 9) -/
  written : Written
  /-- model's own: the host's actions still to come, oldest first (log 4) -/
  host : List HostAction
  /-- model's own: what the host's last read returned (log 4) -/
  hostData : Nat
  /-- model's own: the engine's memory accesses since the last accepted START, newest first (log 17) -/
  bus : List Access
  /-- model's own: how many free values have been used (log 6) -/
  draws : Nat
  deriving DecidableEq, Repr

/-- No operand register written (`70_reset_and_hazards.md` R252). -/
def Written.none : Written := ⟨false, false, false, false⟩

/-- The cursor's start position (`40_bit_cursor.md` R121). -/
def Cursor.start : Cursor := ⟨0, 0⟩

/-- The machine right after reset (`10_state.md` R42, `70_reset_and_hazards.md` R250), for any
parameters and any platform's memory map: phase IDLE and STATUS 0 are the spec's; the other registers'
zeros are DESIGN CHOICE (log 2); memory lists nothing (log 3) and the host has nothing to do (log 4). -/
def State.resetWith (p : Widths) (ws : List Window) : State where
  widths := p
  srcAddr := 0
  srcLen := 0
  dstAddr := 0
  dstLen := 0
  result := 0
  statusOvf := false
  phase := .idle
  op := .encode
  rd := Cursor.start
  rbuf := 0
  wr := Cursor.start
  wacc := 0
  pol := false
  cnt := 0
  ovf := false
  mem := []
  windows := ws
  written := Written.none
  host := []
  hostData := 0
  bus := []
  draws := 0

/-- The machine right after reset at the default parameters (log 1), where every address is plain memory
(log 11). -/
def State.reset : State := State.resetWith Config.widths []

end Sys2Proof.Machine
end

