-- ==== Sys2Proof/Machine/Ops.lean ====
section
/-!
DEFINITION. The named operations: memory, the named updates of State, the bit-cursor primitives of
`40_bit_cursor.md`, and taking the one exception (`60_exceptions.md` R221) with the return from it.
-/

namespace Sys2Proof

/-! ## Widths (`00_scope.md` R7) -/

/-- The number of byte addresses, 2^AW. -/
def Widths.addrSpace (p : Widths) : Nat := 2 ^ p.aw

/-- The number of values of an LW-bit register, 2^LW. -/
def Widths.lenSpace (p : Widths) : Nat := 2 ^ p.lw

/-- The largest legal length, 2^(LW-1) - 1: "non-negative when the register is read as a signed number"
(`00_scope.md` R7). -/
def Widths.maxLen (p : Widths) : Nat := 2 ^ (p.lw - 1) - 1

/-- `REG <- v` for a register of AW bits, and a byte address: modulo 2^AW (`00_scope.md` R9,
`20_memory.md` R70). -/
def Widths.narrowAddr (p : Widths) (v : Nat) : Nat := v % p.addrSpace

/-- `REG <- v` for a register of LW bits: modulo 2^LW (`00_scope.md` R9). -/
def Widths.narrowLen (p : Widths) (v : Nat) : Nat := v % p.lenSpace

/-- The value -1 in a register of LW bits: LW ones (`10_state.md` R25, log 19). -/
def Widths.minusOne (p : Widths) : Nat := p.lenSpace - 1

end Sys2Proof

namespace Sys2Proof.Machine

/-! ## Memory (`20_memory.md` R60, R64) -/

/-- The byte at an address; an unlisted address reads `Config.unwrittenByte`. -/
def Memory.read : Memory → Nat → Byte
  | [], _ => Config.unwrittenByte
  | (k, v) :: rest, a => if k = a then v else Memory.read rest a

/-- Put an entry before a memory, unless it says what an unlisted address reads as anyway. -/
def Memory.consCell (a : Nat) (v : Byte) (m : Memory) : Memory :=
  if v = Config.unwrittenByte then m else (a, v) :: m

/-- Store a byte at an address, keeping the canonical form. -/
def Memory.write : Memory → Nat → Byte → Memory
  | [], a, v => Memory.consCell a v []
  | (k, w) :: rest, a, v =>
    if k < a then (k, w) :: Memory.write rest a v
    else if k = a then Memory.consCell a v rest
    else Memory.consCell a v ((k, w) :: rest)

/-- The canonical form from a lower bound on: addresses rising from `lo`, inside a space of `n`
addresses, no entry equal to what an unlisted address reads as. -/
def Memory.wfFrom (n : Nat) : Nat → Memory → Bool
  | _, [] => true
  | lo, (k, v) :: rest =>
    decide (lo ≤ k) && decide (k < n) && decide (v ≠ Config.unwrittenByte)
      && Memory.wfFrom n (k + 1) rest

/-- The canonical form of a memory of `n` addresses: equal memories are equal lists. -/
def Memory.wf (n : Nat) (m : Memory) : Bool := Memory.wfFrom n 0 m

/-- The memory has its canonical form, in the space of 2^AW addresses (`20_memory.md` R60). -/
def State.memWf (s : State) : Bool := s.mem.wf s.widths.addrSpace

/-! ## Cursors (`40_bit_cursor.md` R120) -/

/-- The next stream position: "`bit = 7` gives `(byte + 1, 0)`, otherwise `(byte, bit + 1)`", the byte
index formed in LW bits (`40_bit_cursor.md` R132). -/
def Cursor.next (p : Widths) (c : Cursor) : Cursor :=
  if c.bit = 7 then ⟨p.narrowLen (c.byte + 1), 0⟩ else ⟨c.byte, c.bit + 1⟩

/-- The stream position `8*byte + bit`, an unbounded number (`40_bit_cursor.md` R120, R132). -/
def Cursor.pos (c : Cursor) : Nat := 8 * c.byte + c.bit.toNat

/-- The effective address of the byte under the read cursor, modulo 2^AW (`20_memory.md` R70). -/
def State.srcPtr (s : State) : Nat := s.widths.narrowAddr (s.srcAddr + s.rd.byte)

/-- The effective address of the byte under the write cursor, modulo 2^AW (`20_memory.md` R70). -/
def State.dstPtr (s : State) : Nat := s.widths.narrowAddr (s.dstAddr + s.wr.byte)

/-! ## Named updates of State -/

/-- Move the read cursor. -/
def State.setRd (s : State) (c : Cursor) : State := { s with rd := c }

/-- `rbuf <- MemRead(a, 1)`: the byte comes in through the read port. -/
def State.loadRbuf (s : State) (a : Nat) : State :=
  { s with rbuf := s.mem.read a, bus := .read a :: s.bus }

/-- Move the write cursor and set the accumulator. -/
def State.setWr (s : State) (c : Cursor) (w : Byte) : State := { s with wr := c, wacc := w }

/-- `MemWrite(a, 1, v)`: the byte goes out through the write port. -/
def State.storeByte (s : State) (a : Nat) (v : Byte) : State :=
  { s with mem := s.mem.write a v, bus := .write a v :: s.bus }

/-- Set the polarity (`10_state.md` R35). -/
def State.setPol (s : State) (p : Bool) : State := { s with pol := p }

/-- Set the run count (`10_state.md` R36). -/
def State.setCnt (s : State) (c : BitVec 3) : State := { s with cnt := c }

/-- Set what is left of the host's actions. -/
def State.setHost (s : State) (l : List HostAction) : State := { s with host := l }

/-- A host read returns a value. -/
def State.setHostData (s : State) (v : Nat) : State := { s with hostData := v }

/-- `cursor_init()` (`40_bit_cursor.md` R121); `rbuf` is left as it was. -/
def State.cursorInit (s : State) : State :=
  { s with rd := Cursor.start, wr := Cursor.start, wacc := 0, ovf := false }

/-- Successful completion: `RESULT <- wr_byte; STATUS.OVF <- 0; phase <- DONE` (`41_encoder.md` R148,
`42_decoder.md` R183). -/
def State.complete (s : State) : State :=
  { s with result := s.wr.byte, statusOvf := false, phase := .done }

/-! ## The exception (`60_exceptions.md` R221) -/

/-- `raise Overflow()`, the entry of the block's one exception: `ovf <- 1`, RESULT all ones (-1,
log 19), `STATUS.OVF <- 1`, `phase <- DONE`; nothing is saved and nothing is vectored. -/
def State.takeOverflow (s : State) : State :=
  { s with ovf := true, result := s.widths.minusOne, statusOvf := true, phase := .done }

/-- The return from the exception (`60_exceptions.md` R230): there is no return operation; what clears
OVF and DONE is the next accepted START, whose first actions are these (`43_commands.md` R201). The
log of the engine's accesses begins anew (log 17). -/
def State.acceptStart (s : State) (o : Op) : State :=
  { s with op := o, statusOvf := false, bus := [] }

/-! ## Emission: what a primitive that can raise the exception answers -/

/-- What is left of a step after a primitive that may raise Overflow: it goes on, or the exception has
been taken and the rest of the step is skipped (`60_exceptions.md` R221). -/
inductive Emit where
  | ok (s : State)
  | overflow (s : State)
  deriving DecidableEq, Repr

/-- Go on with the next primitive, unless the exception has been taken. -/
def Emit.andThen (e : Emit) (f : State → Emit) : Emit :=
  match e with
  | .ok s => f s
  | .overflow s => .overflow s

/-- Go on with an update that cannot raise the exception. -/
def Emit.map (e : Emit) (f : State → State) : Emit :=
  match e with
  | .ok s => .ok (f s)
  | .overflow s => .overflow s

/-- The state the step leaves: the exception is a next state, not a stop of the machine. -/
def Emit.outcome (e : Emit) : Host.Outcome State Fault Refusal :=
  match e with
  | .ok s => .next s
  | .overflow s => .next s

/-! ## The bit-cursor primitives (`40_bit_cursor.md`) -/

/-- Load `rbuf` when the read cursor enters a new byte (`40_bit_cursor.md` R122, first line). -/
def State.fetchByte (s : State) : State := if s.rd.bit = 0 then s.loadRbuf s.srcPtr else s

/-- `get_bit()` (`40_bit_cursor.md` R122). -/
def getBit (s : State) : Bool × State :=
  let t := s.fetchByte
  (t.rbuf.getLsbD (7 - t.rd.bit.toNat), t.setRd (t.rd.next t.widths))

/-- `get_code()` (`40_bit_cursor.md` R124). -/
def getCode (s : State) : Code × State :=
  let r0 := getBit s
  let r1 := getBit r0.2
  let r2 := getBit r1.2
  (codeOfBits r0.1 r1.1 r2.1, r2.2)

/-- The bit `b` at the place stream offset `bit` has in a byte: `b << (7 - bit)`. -/
def bitAt (b : Bool) (bit : BitVec 3) : Byte :=
  (BitVec.ofBool b).setWidth 8 <<< (7 - bit.toNat)

/-- `put_bit` after its capacity test: place the bit, and write the byte out when it is the eighth
(`40_bit_cursor.md` R125). -/
def State.placeBit (s : State) (b : Bool) : State :=
  let w := s.wacc ||| bitAt b s.wr.bit
  if s.wr.bit = 7 then (s.storeByte s.dstPtr w).setWr (s.wr.next s.widths) 0
  else s.setWr (s.wr.next s.widths) w

/-- `put_bit(b)` (`40_bit_cursor.md` R125): the capacity test comes first and touches nothing else. -/
def putBit (b : Bool) (s : State) : Emit :=
  if s.wr.byte = s.dstLen then .overflow s.takeOverflow else .ok (s.placeBit b)

/-- `put_code(v)` (`40_bit_cursor.md` R126). -/
def putCode (v : Code) (s : State) : Emit :=
  ((putBit (v.getLsbD 2) s).andThen (putBit (v.getLsbD 1))).andThen (putBit (v.getLsbD 0))

/-- `repeat n times: put_bit(b)` (`42_decoder.md` R172 to R179, R182). -/
def putRun (b : Bool) : Nat → State → Emit
  | 0, s => .ok s
  | n + 1, s => (putBit b s).andThen (putRun b n)

/-- `flush()` (`40_bit_cursor.md` R127): write the last partial byte; cannot raise Overflow. -/
def State.flush (s : State) : State :=
  if s.wr.bit = 0 then s
  else (s.storeByte s.dstPtr s.wacc).setWr ⟨s.widths.narrowLen (s.wr.byte + 1), 0⟩ 0

end Sys2Proof.Machine
end

