-- ==== Sys2Proof/Machine/Operands.lean ====
section
/-!
DEFINITION. The operand forms: the register map and the host's access to it (`10_state.md` R21 to
R29), and the legality of a command's operands (`43_commands.md` R208).
-/

namespace Sys2Proof

/-- The distance of two registers in bytes: 4, "for wider parameters the stride is `max(AW, LW)/8`
bytes" (`10_state.md` R28); rounded up where the wider one is no whole number of bytes (log 23). -/
def Widths.stride (p : Widths) : Nat :=
  if p.aw ≤ 32 ∧ p.lw ≤ 32 then 4 else (max p.aw p.lw + 7) / 8

end Sys2Proof

namespace Sys2Proof.Machine

/-- STATUS.BUSY (`10_state.md` R27, R32). -/
def State.busy (s : State) : Bool := s.phase == .enc || s.phase == .dec

/-- STATUS.DONE, and the level output `done` (`10_state.md` R32, `60_exceptions.md` R229). -/
def State.doneFlag (s : State) : Bool := s.phase == .done

/-! ## The register map (`10_state.md` R28) -/

/-- The seven registers of the map. -/
inductive Reg where
  | srcAddr
  | srcLen
  | dstAddr
  | dstLen
  | ctrl
  | status
  | result
  deriving DecidableEq, Repr

/-- The place of a register in the map (`10_state.md` R28). -/
def Reg.index : Reg → Nat
  | .srcAddr => 0
  | .srcLen => 1
  | .dstAddr => 2
  | .dstLen => 3
  | .ctrl => 4
  | .status => 5
  | .result => 6

/-- The byte offset of a register (`10_state.md` R28). -/
def Reg.offset (p : Widths) (r : Reg) : Nat := p.stride * r.index

/-- The register at a place of the map. -/
def Reg.ofIndex : Nat → Option Reg
  | 0 => some .srcAddr
  | 1 => some .srcLen
  | 2 => some .dstAddr
  | 3 => some .dstLen
  | 4 => some .ctrl
  | 5 => some .status
  | 6 => some .result
  | _ => none

/-- The register at a byte offset, none where the map has none (`10_state.md` R28). -/
def Reg.ofOffset (p : Widths) (off : Nat) : Option Reg :=
  if off % p.stride = 0 then Reg.ofIndex (off / p.stride) else none

/-- The STATUS word: BUSY bit 0, DONE bit 1, OVF bit 2, reserved bits 0 (`10_state.md` R27; where the
host's word has fewer than three bits, log 26). -/
def State.statusWord (s : State) : Nat :=
  s.busy.toNat + 2 * s.doneFlag.toNat + 4 * s.statusOvf.toNat

/-- A host write to one of the four operand registers (`10_state.md` R21 to R24): it keeps its value
until written again, "truncated to the register's width" (`00_scope.md` R9), and has been written since
reset from now on (log 9). -/
def State.writeOperand (s : State) (r : Reg) (v : Nat) : State :=
  match r with
  | .srcAddr =>
    { s with srcAddr := s.widths.narrowAddr v, written := { s.written with srcAddr := true } }
  | .srcLen =>
    { s with srcLen := s.widths.narrowLen v, written := { s.written with srcLen := true } }
  | .dstAddr =>
    { s with dstAddr := s.widths.narrowAddr v, written := { s.written with dstAddr := true } }
  | .dstLen =>
    { s with dstLen := s.widths.narrowLen v, written := { s.written with dstLen := true } }
  | .ctrl => s
  | .status => s
  | .result => s

/-- A host read of a register, zero-extended (`10_state.md` R28, R29): CTRL reads 0 (R26); RESULT while
DONE is 0 is a free value (`93_implementation_defined.md` U10, log 6); no other state changes. -/
def State.readReg (s : State) (r : Reg) : State :=
  match r with
  | .srcAddr => s.setHostData s.srcAddr
  | .srcLen => s.setHostData s.srcLen
  | .dstAddr => s.setHostData s.dstAddr
  | .dstLen => s.setHostData s.dstLen
  | .ctrl => s.setHostData 0
  | .status => s.setHostData s.statusWord
  | .result =>
    if s.doneFlag then s.setHostData s.result
    else { s with hostData := (Config.freeBits s.widths.lw s.draws).toNat, draws := s.draws + 1 }

/-! ## Regions and the memory map (`20_memory.md` R61, R62, R69, R71) -/

/-- Do two ranges of addresses share an address? An empty range shares none. -/
def rangesMeet (lo1 len1 lo2 len2 : Nat) : Bool :=
  decide (max lo1 lo2 < min (lo1 + len1) (lo2 + len2))

/-- Is every byte of a range plain readable memory? -/
def plainReadable (ws : List Window) (lo len : Nat) : Bool :=
  ws.all fun w => w.readable || !(rangesMeet lo len w.base w.size)

/-- Is every byte of a range plain writable memory? -/
def plainWritable (ws : List Window) (lo len : Nat) : Bool :=
  ws.all fun w => w.writable || !(rangesMeet lo len w.base w.size)

/-- Is the address in the source region, `[SRC_ADDR, SRC_ADDR + SRC_LEN)` (`20_memory.md` R61)? -/
def State.inSrc (s : State) (a : Nat) : Bool :=
  decide (s.srcAddr ≤ a) && decide (a < s.srcAddr + s.srcLen)

/-- Is the address in the destination region, `[DST_ADDR, DST_ADDR + DST_LEN)` (`20_memory.md` R62)? -/
def State.inDst (s : State) (a : Nat) : Bool :=
  decide (s.dstAddr ≤ a) && decide (a < s.dstAddr + s.dstLen)

/-- Have all four operand registers been written since reset (`70_reset_and_hazards.md` R252)? -/
def Written.all (w : Written) : Bool := w.srcAddr && w.srcLen && w.dstAddr && w.dstLen

/-! ## Legality (`43_commands.md` R208) -/

/-- L1: both lengths non-negative as signed numbers. -/
def State.lengthsOk (s : State) : Bool :=
  decide (s.srcLen ≤ s.widths.maxLen) && decide (s.dstLen ≤ s.widths.maxLen)

/-- L2: neither region wraps. -/
def State.noWrap (s : State) : Bool :=
  decide (s.srcAddr + s.srcLen ≤ s.widths.addrSpace)
    && decide (s.dstAddr + s.dstLen ≤ s.widths.addrSpace)

/-- L3: the source region is readable plain memory, the destination region writable plain memory. -/
def State.plainRegions (s : State) : Bool :=
  plainReadable s.windows s.srcAddr s.srcLen
    && plainWritable s.windows s.dstAddr s.dstLen

/-- L4: the regions are disjoint (with DST_LEN = 0 the destination is empty and shares nothing). -/
def State.disjointRegions (s : State) : Bool :=
  !(rangesMeet s.srcAddr s.srcLen s.dstAddr s.dstLen)

/-- Why a START with SRC_LEN != 0 is not a legal command, none when it is: an operand never written
since reset (`70_reset_and_hazards.md` R252), then L1 to L4 (`43_commands.md` R208). -/
def State.illegal (s : State) : Option Refusal :=
  if !s.written.all then some .operandNeverWritten
  else if !s.lengthsOk then some .lengthTopBitSet
  else if !s.noWrap then some .regionWraps
  else if !s.plainRegions then some .notPlainMemory
  else if !s.disjointRegions then some .regionsOverlap
  else none

end Sys2Proof.Machine
end

