-- ==== Sys2Proof/Machine/Flags.lean ====
section
/-!
DEFINITION. The one-bit conditions and their rules (`10_state.md` R43): the polarity's change by a
code, and the two tests on the bits left (`40_bit_cursor.md` R123). BUSY, DONE and the STATUS word are
in Operands.lean, the entry of the exception that sets OVF is in Ops.lean.
-/

namespace Sys2Proof.Machine

/-- `at_end`: no input bit is left (`40_bit_cursor.md` R123). -/
def State.atEnd (s : State) : Bool := s.rd.byte == s.srcLen

/-- `code_avail`: at least three input bits are left (`40_bit_cursor.md` R123), formed in LW bits
unsigned (R132). -/
def State.codeAvail (s : State) : Bool :=
  let next := s.widths.narrowLen (s.rd.byte + 1)
  decide (next < s.srcLen) || (next == s.srcLen && decide (s.rd.bit ≤ 5))

/-- `pol <- ~pol`: a run closes (`10_state.md` R35). -/
def State.flipPol (s : State) : State := s.setPol (!s.pol)

end Sys2Proof.Machine
end

