-- ==== Sys2Proof/Machine/Codes.lean ====
section
/-!
DEFINITION. The meanings of the eight codes (`42_decoder.md` R172 to R179), each the effect of one
code when the expander meets it with the current polarity. Taking the code off the stream is the fetch
(`42_decoder.md` R182, Machine/Engine.lean).
-/

namespace Sys2Proof.Machine

/-- A closing code of value n: "emit that many bits of the current polarity, then alternate polarity
for the next code" (`30_encoding.md` R94); on Overflow the polarity is not updated (`42_decoder.md`
R182). -/
def closingRun (n : Nat) (s : State) : Host.Outcome State Fault Refusal :=
  ((putRun s.pol n s).map State.flipPol).outcome

/-- RUN0, code 000 (`42_decoder.md` R172). -/
def execRun0 (s : State) : Host.Outcome State Fault Refusal := closingRun 0 s

/-- RUN1, code 001 (`42_decoder.md` R173). -/
def execRun1 (s : State) : Host.Outcome State Fault Refusal := closingRun 1 s

/-- RUN2, code 010 (`42_decoder.md` R174). -/
def execRun2 (s : State) : Host.Outcome State Fault Refusal := closingRun 2 s

/-- RUN3, code 011 (`42_decoder.md` R175). -/
def execRun3 (s : State) : Host.Outcome State Fault Refusal := closingRun 3 s

/-- RUN4, code 100 (`42_decoder.md` R176). -/
def execRun4 (s : State) : Host.Outcome State Fault Refusal := closingRun 4 s

/-- RUN5, code 101 (`42_decoder.md` R177). -/
def execRun5 (s : State) : Host.Outcome State Fault Refusal := closingRun 5 s

/-- RUN6, code 110 (`42_decoder.md` R178). -/
def execRun6 (s : State) : Host.Outcome State Fault Refusal := closingRun 6 s

/-- RUN7C, code 111, the continuation code: seven bits, polarity kept (`42_decoder.md` R179). -/
def execRun7c (s : State) : Host.Outcome State Fault Refusal := (putRun s.pol 7 s).outcome

end Sys2Proof.Machine
end

