-- ==== Sys2Proof/Machine/Commands.lean ====
section
/-!
DEFINITION. The meanings of the two commands: the accepted START (`43_commands.md` R201 to R204). The
engine steps that follow are in Machine/Engine.lean.
-/

namespace Sys2Proof.Machine

/-- ENCODE start (`41_encoder.md` R146). -/
def State.startEncode (s : State) : State := { s.cursorInit with pol := false, cnt := 0, phase := .enc }

/-- DECODE start (`42_decoder.md` R181); `cnt` is not used by DECODE and is left as it was. -/
def State.startDecode (s : State) : State := { s.cursorInit with pol := false, phase := .dec }

/-- The working state of a command begins, by its operation (`43_commands.md` R201). -/
def State.startWork (s : State) (o : Op) : State :=
  match o with
  | .encode => s.startEncode
  | .decode => s.startDecode

/-- The zero-length command completes in the action of the START (`43_commands.md` R202). -/
def State.completeEmpty (s : State) : State := { s with result := 0, phase := .done }

/-- A CTRL write with START = 1 (`43_commands.md` R201): ignored while BUSY; else the zero-length
command (R202) or the start of the work. Illegal commands are refused (R208, `70_reset_and_hazards.md`
R252): SRC_LEN must have been written, the other operands only when SRC_LEN != 0. -/
def start (o : Op) (s : State) : Host.Outcome State Fault Refusal :=
  if s.busy then .next s
  else if !s.written.srcLen then .refused .operandNeverWritten
  else if s.srcLen = 0 then .next (s.acceptStart o).completeEmpty
  else match s.illegal with
    | some r => .refused r
    | none => .next ((s.acceptStart o).startWork o)

/-- ENCODE (`43_commands.md` R203): CTRL written with 01. -/
def execEncode (s : State) : Host.Outcome State Fault Refusal := start .encode s

/-- DECODE (`43_commands.md` R204): CTRL written with 11. -/
def execDecode (s : State) : Host.Outcome State Fault Refusal := start .decode s

end Sys2Proof.Machine
end

