-- ==== Sys2Proof/Machine/Dispatch.lean ====
section
/-! DEFINITION. One arm per instruction, each one direct call of its meaning. -/

namespace Sys2Proof.Machine

def exec (i : Instr) (s : State) : Host.Outcome State Fault Refusal :=
  match i with
  | .run0 => Sys2Proof.Machine.execRun0 s
  | .run1 => Sys2Proof.Machine.execRun1 s
  | .run2 => Sys2Proof.Machine.execRun2 s
  | .run3 => Sys2Proof.Machine.execRun3 s
  | .run4 => Sys2Proof.Machine.execRun4 s
  | .run5 => Sys2Proof.Machine.execRun5 s
  | .run6 => Sys2Proof.Machine.execRun6 s
  | .run7c => Sys2Proof.Machine.execRun7c s
  | .encode => Sys2Proof.Machine.execEncode s
  | .decode => Sys2Proof.Machine.execDecode s

end Sys2Proof.Machine
end

