-- ==== Sys2Proof/Machine/Engine.lean ====
section
/-!
DEFINITION. The engine's steps (`41_encoder.md` R147, R148, `42_decoder.md` R182, R183) and which one is
enabled (`43_commands.md` R207).
-/

namespace Sys2Proof.Machine

/-- ENC_SCAN (`41_encoder.md` R147): one input bit. -/
def encScan (s : State) : Host.Outcome State Fault Refusal :=
  let r := getBit s
  let t := r.2
  if r.1 = t.pol then
    let u := t.setCnt (t.cnt + 1)
    if u.cnt = 7 then ((putCode 7 u).map fun x => x.setCnt 0).outcome else .next u
  else ((putCode t.cnt t).map fun x => x.flipPol.setCnt 1).outcome

/-- ENC_FINISH (`41_encoder.md` R148): the closing code of the last run, padding, completion. -/
def encFinish (s : State) : Host.Outcome State Fault Refusal :=
  ((putCode s.cnt s).map fun x => x.flush.complete).outcome

/-- DEC_CODE (`42_decoder.md` R182): the next code is taken off the stream, decoded and executed. -/
def decCode (s : State) : Host.Outcome State Fault Refusal :=
  let r := getCode s
  exec (decodeCode r.1) r.2

/-- DEC_FINISH (`42_decoder.md` R183). -/
def decFinish (s : State) : Host.Outcome State Fault Refusal := .next s.flush.complete

/-- The engine's step (`43_commands.md` R207): in ENC and DEC exactly one is enabled; in IDLE and DONE
the engine has no step and nothing changes (log 5). -/
def engineStep (s : State) : Host.Outcome State Fault Refusal :=
  match s.phase with
  | .idle => .next s
  | .enc => if s.atEnd then encFinish s else encScan s
  | .dec => if s.codeAvail then decCode s else decFinish s
  | .done => .next s

end Sys2Proof.Machine
end

