-- ==== Sys2Proof/Machine/HostPort.lean ====
section
/-!
DEFINITION. The host agent: its accesses to the register port (`10_state.md` R26 to R29), to memory
(`70_reset_and_hazards.md` R255) and to the reset input (`70_reset_and_hazards.md` R250, R251).
-/

namespace Sys2Proof.Machine

/-- A host write to a register: dropped while BUSY (`10_state.md` R29); a CTRL write is decoded and
executed, START = 0 having no effect (`43_commands.md` R201); STATUS and RESULT are read-only (log 13).
-/
def hostWriteReg (off v : Nat) (s : State) : Host.Outcome State Fault Refusal :=
  match Reg.ofOffset s.widths off with
  | none => .fault .noRegister
  | some .ctrl =>
    match decode (.ctrl v) with
    | .ok i => exec i s
    | .error .noStart => .next s
  | some r => if s.busy then .next s else .next (s.writeOperand r v)

/-- A host read of a register: always allowed (`10_state.md` R29). -/
def hostReadReg (off : Nat) (s : State) : Host.Outcome State Fault Refusal :=
  match Reg.ofOffset s.widths off with
  | none => .fault .noRegister
  | some r => .next (s.readReg r)

/-- A host store: an address of the space (`20_memory.md` R60), plain memory only, and neither region
while BUSY (`70_reset_and_hazards.md` R255). -/
def hostWriteMem (a : Nat) (v : Byte) (s : State) : Host.Outcome State Fault Refusal :=
  if s.widths.addrSpace ≤ a then .fault .noAddress
  else if s.busy && (s.inSrc a || s.inDst a) then .refused .bufferNotOwned
  else if !(plainWritable s.windows a 1) then .refused .notPlainMemory
  else .next { s with mem := s.mem.write a v }

/-- A host load: an address of the space (`20_memory.md` R60), plain memory only, and not the
destination region while BUSY; "Reading the source region while BUSY is harmless"
(`70_reset_and_hazards.md` R255). -/
def hostReadMem (a : Nat) (s : State) : Host.Outcome State Fault Refusal :=
  if s.widths.addrSpace ≤ a then .fault .noAddress
  else if s.busy && s.inDst a then .refused .bufferNotOwned
  else if !(plainReadable s.windows a 1) then .refused .notPlainMemory
  else .next (s.setHostData (s.mem.read a).toNat)

/-- Free values in the n bytes from an address on, numbered from c on (log 7). -/
def freeBytes (p : Widths) (m : Memory) (base : Nat) (c : Nat) : Nat → Memory
  | 0 => m
  | n + 1 => (freeBytes p m base c n).write (p.narrowAddr (base + n)) (Config.freeBits 8 (c + n))

/-- How many free values a reset uses for registers and working state. -/
def resetDraws : Nat := 15

/-- The registers and the working state after the reset input is asserted (`70_reset_and_hazards.md`
R250): phase IDLE, STATUS 0, everything else a free value (`93_implementation_defined.md` U9, log 6); no
operand register has been written since (R252). -/
def State.resetRegs (s : State) : State :=
  { s with
    phase := .idle
    statusOvf := false
    srcAddr := (Config.freeBits s.widths.aw s.draws).toNat
    srcLen := (Config.freeBits s.widths.lw (s.draws + 1)).toNat
    dstAddr := (Config.freeBits s.widths.aw (s.draws + 2)).toNat
    dstLen := (Config.freeBits s.widths.lw (s.draws + 3)).toNat
    result := (Config.freeBits s.widths.lw (s.draws + 4)).toNat
    op := if Config.freeBits 1 (s.draws + 5) = 0 then .encode else .decode
    rd := ⟨(Config.freeBits s.widths.lw (s.draws + 6)).toNat, Config.freeBits 3 (s.draws + 7)⟩
    rbuf := Config.freeBits 8 (s.draws + 8)
    wr := ⟨(Config.freeBits s.widths.lw (s.draws + 9)).toNat, Config.freeBits 3 (s.draws + 10)⟩
    wacc := Config.freeBits 8 (s.draws + 11)
    pol := (Config.freeBits 1 (s.draws + 12)).getLsbD 0
    cnt := Config.freeBits 3 (s.draws + 13)
    ovf := (Config.freeBits 1 (s.draws + 14)).getLsbD 0
    written := Written.none
    draws := s.draws + resetDraws }

/-- The reset input is asserted (`70_reset_and_hazards.md` R250). While BUSY the command is abandoned
and the destination region holds free values afterwards (R251, `93_implementation_defined.md` U13, log
7); otherwise memory is unchanged. -/
def hostReset (s : State) : Host.Outcome State Fault Refusal :=
  let t := s.resetRegs
  if s.busy then
    .next { t with
      mem := freeBytes s.widths s.mem s.dstAddr t.draws s.dstLen
      draws := t.draws + s.dstLen }
  else .next t

/-- One action of the host, or the engine's step where the host waits. -/
def hostAct (h : HostAction) (s : State) : Host.Outcome State Fault Refusal :=
  match h with
  | .writeReg off v => hostWriteReg off v s
  | .readReg off => hostReadReg off s
  | .writeMem a v => hostWriteMem a v s
  | .readMem a => hostReadMem a s
  | .reset => hostReset s
  | .wait => engineStep s

/-- Store a code where the read cursor of a fresh DECODE meets it first: stream positions 0 to 2 of the
source region (`30_encoding.md` R91), in a one-byte source, the engine's step being next (log 16). -/
def State.placeCode (s : State) (v : Code) : State :=
  { s with
    phase := .dec
    op := .decode
    srcLen := 1
    rd := Cursor.start
    mem := s.mem.write s.srcAddr (v.setWidth 8 <<< 5)
    host := .wait :: s.host }

/-- Put a CTRL write next in the host's actions, with the operand registers counted as written (log
16). -/
def State.placeCommand (s : State) (w : Nat) : State :=
  { s with
    written := ⟨true, true, true, true⟩
    host := .writeReg (Reg.ctrl.offset s.widths) w :: s.host }

end Sys2Proof.Machine
end

