-- ==== Sys2Proof/Machine/Step.lean ====
section
/-!
DEFINITION. The step of the machine: the host's next action, or the engine's step when the host has
none; and where an opcode-table word is put so that the next step runs it.
-/

namespace Sys2Proof.Machine

/-- One step (`43_commands.md` R207, `60_exceptions.md` R226: a host access is ordered wholly before or
wholly after an engine step). -/
def step (s : State) : Host.Outcome State Fault Refusal :=
  match s.host with
  | [] => engineStep s
  | h :: rest => hostAct h (s.setHost rest)

/-- The state with an opcode-table word stored where the next step meets it: a code at the start of the
source of a DECODE in progress, a command as the host's next CTRL write (log 16). -/
def State.withFetchWord (s : State) (nbits w : Nat) : State :=
  if isCtrlWidth nbits then s.placeCommand w
  else s.placeCode (BitVec.ofNat 3 w)

end Sys2Proof.Machine
end

