-- ==== Sys2Proof/Machine/Contract.lean ====
section
/-!
DEFINITION. The functional definitions of ENCODE and DECODE (`41_encoder.md` R140, `42_decoder.md`
R170), which are the contract the machine is held to, over unbounded lists and numbers.
-/

namespace Sys2Proof.Contract

/-- The runs of a bit list of which `n` bits of value `p` are already counted (`41_encoder.md` R141). -/
def runsFrom (p : Bool) (n : Nat) : List Bool → List Nat
  | [] => [n]
  | b :: bs => if b = p then runsFrom p (n + 1) bs else n :: runsFrom (!p) 1 bs

/-- `runs(b)`: the run lengths, alternating in value from 0, the first possibly 0; none for the empty
list (`00_scope.md` R10, `41_encoder.md` R141). -/
def runs : List Bool → List Nat
  | [] => []
  | b :: bs => runsFrom false 0 (b :: bs)

/-- The bits of a list of run lengths, the first run having value `p` (`00_scope.md` R10). -/
def unruns (p : Bool) : List Nat → List Bool
  | [] => []
  | n :: ns => List.replicate n p ++ unruns (!p) ns

/-- `chunks(L) = [7] * floor(L/7) ++ [L mod 7]` (`00_scope.md` R10, `41_encoder.md` R142). -/
def chunks (n : Nat) : List Code := List.replicate (n / 7) 7 ++ [BitVec.ofNat 3 (n % 7)]

/-- The codes of ENCODE for a bit list (`41_encoder.md` R140). -/
def encodeCodes (b : List Bool) : List Code := (runs b).flatMap chunks

/-- The output of ENCODE with unlimited capacity (`41_encoder.md` R140). -/
def encodeOut (src : List Byte) : List Byte := pack (codeBits (encodeCodes (bitsOf src)))

/-- ENCODE as a function: the output bytes, or none where they exceed the capacity, result -1
(`41_encoder.md` R140, R145); an empty source gives no byte and result 0. -/
def encodeFn (src : List Byte) (cap : Nat) : Option (List Byte) :=
  if src = [] then some []
  else if cap < (encodeOut src).length then none else some (encodeOut src)

/-- The bits a code list stands for, from polarity `p` on (`42_decoder.md` R170). -/
def expand (p : Bool) : List Code → List Bool
  | [] => []
  | v :: vs => List.replicate v.toNat p ++ expand (if v = 7 then p else !p) vs

/-- The output of DECODE with unlimited capacity (`42_decoder.md` R170, R180). -/
def decodeOut (src : List Byte) : List Byte := pack (expand false (codesOf (bitsOf src)))

/-- DECODE as a function: the output bytes, or none where they exceed the capacity, result -1
(`42_decoder.md` R170, R184); an empty source gives no byte and result 0. -/
def decodeFn (src : List Byte) (cap : Nat) : Option (List Byte) :=
  if src = [] then some []
  else if cap < (decodeOut src).length then none else some (decodeOut src)

end Sys2Proof.Contract
end

