-- ==== Sys2Proof/Safety.lean ====
section
/-!
DEFINITION. What counts as a safe run, in the terms the statements use: legal commands in the spec's own
words, the invariants of `10_state.md` R41, the stream of output bits, the engine's access pattern, and
how a command ends.
-/

namespace Sys2Proof

/-- The number of bits a code emits (`30_encoding.md` R94). -/
def Instr.runLength : Instr → Nat
  | .run0 => 0
  | .run1 => 1
  | .run2 => 2
  | .run3 => 3
  | .run4 => 4
  | .run5 => 5
  | .run6 => 6
  | .run7c => 7
  | .encode => 0
  | .decode => 0

end Sys2Proof

namespace Sys2Proof.Machine

/-! ## The two regions (`20_memory.md` R61, R62) -/

/-- The address of source byte i, modulo 2^AW (`20_memory.md` R70). -/
def State.srcByteAddr (s : State) (i : Nat) : Nat := s.widths.narrowAddr (s.srcAddr + i)

/-- The address of destination byte i, modulo 2^AW (`20_memory.md` R70). -/
def State.dstByteAddr (s : State) (i : Nat) : Nat := s.widths.narrowAddr (s.dstAddr + i)

/-- Source byte `S[i]`. -/
def State.srcByte (s : State) (i : Nat) : Byte := s.mem.read (s.srcByteAddr i)

/-- The source bytes `S[0 .. SRC_LEN-1]`. -/
def State.srcBytes (s : State) : List Byte := (List.range s.srcLen).map s.srcByte

/-- The input bit at a stream position (`20_memory.md` R65). -/
def State.srcBit (s : State) (p : Nat) : Bool := (s.srcByte (p / 8)).getLsbD (7 - p % 8)

/-- The output bit at a stream position: in memory once its byte is written, in `wacc` before
(`10_state.md` R34). -/
def State.outBit (s : State) (p : Nat) : Bool :=
  if p / 8 < s.wr.byte then (s.mem.read (s.dstByteAddr (p / 8))).getLsbD (7 - p % 8)
  else s.wacc.getLsbD (7 - p % 8)

/-- An address outside the destination region. -/
abbrev State.OutsideDst (s : State) (a : Nat) : Prop :=
  ∀ i, i < s.dstLen → a ≠ s.dstByteAddr i

/-! ## Widths -/

/-- Every register holds a value of its width (`00_scope.md` R7, `10_state.md` R21 to R25, R30, R33),
for parameters that R7 admits. -/
abbrev State.Sized (s : State) : Prop :=
  s.widths.wellFormed = true
    ∧ s.srcAddr < s.widths.addrSpace ∧ s.srcLen < s.widths.lenSpace
    ∧ s.dstAddr < s.widths.addrSpace ∧ s.dstLen < s.widths.lenSpace
    ∧ s.result < s.widths.lenSpace
    ∧ s.rd.byte < s.widths.lenSpace ∧ s.wr.byte < s.widths.lenSpace

/-! ## Legal commands, in the words of `43_commands.md` R208 -/

/-- Is the address in the window? -/
abbrev Window.Covers (w : Window) (a : Nat) : Prop := w.base ≤ a ∧ a < w.base + w.size

/-- L1 of `43_commands.md` R208: both lengths are non-negative as signed numbers. -/
abbrev State.LengthsLegal (s : State) : Prop :=
  s.srcLen ≤ s.widths.maxLen ∧ s.dstLen ≤ s.widths.maxLen

/-- L2 of `43_commands.md` R208: neither region wraps. -/
abbrev State.RegionsFit (s : State) : Prop :=
  s.srcAddr + s.srcLen ≤ s.widths.addrSpace ∧ s.dstAddr + s.dstLen ≤ s.widths.addrSpace

/-- L3 of `43_commands.md` R208, byte by byte: readable plain memory at the source, writable plain memory
at the destination. -/
abbrev State.RegionsPlain (s : State) : Prop :=
  (∀ i, i < s.srcLen → ∀ w ∈ s.windows, w.Covers (s.srcAddr + i) → w.readable = true)
    ∧ ∀ j, j < s.dstLen → ∀ w ∈ s.windows, w.Covers (s.dstAddr + j) → w.writable = true

/-- L4 of `43_commands.md` R208, byte by byte: the regions share no byte. -/
abbrev State.RegionsDisjoint (s : State) : Prop :=
  ∀ i, i < s.srcLen → ∀ j, j < s.dstLen → s.srcAddr + i ≠ s.dstAddr + j

/-- L1 to L4 of `43_commands.md` R208. -/
abbrev State.Legal (s : State) : Prop :=
  s.LengthsLegal ∧ s.RegionsFit ∧ s.RegionsPlain ∧ s.RegionsDisjoint

/-- A START with SRC_LEN != 0 that the block carries out: registers of their widths, phase IDLE or DONE,
the four operands written since reset (`70_reset_and_hazards.md` R252), the command legal. -/
abbrev State.Ready (s : State) : Prop :=
  s.Sized ∧ s.busy = false ∧ s.written.all = true ∧ s.srcLen ≠ 0 ∧ s.Legal

/-! ## Invariants (`10_state.md` R41) -/

/-- I1, and the contents of `rbuf` (`10_state.md` R31): the read cursor is inside the source region or
at its end, and inside a byte `rbuf` holds that byte; SRC_LEN has LW bits. -/
abbrev State.ReadOk (s : State) : Prop :=
  s.srcLen < s.widths.lenSpace
    ∧ s.rd.byte ≤ s.srcLen
    ∧ (s.rd.byte = s.srcLen → s.rd.bit = 0)
    ∧ (s.rd.bit ≠ 0 → s.rbuf = s.srcByte s.rd.byte)

/-- I2 and I3: the write cursor is inside the destination region or at its end, and the bits of `wacc`
not yet produced are 0; DST_LEN has LW bits, and the region is no longer than the address space, so that
its bytes are different bytes. -/
abbrev State.WriteOk (s : State) : Prop :=
  (s.dstLen < s.widths.lenSpace ∧ s.dstLen ≤ s.widths.addrSpace)
    ∧ s.wr.byte ≤ s.dstLen
    ∧ (s.wr.byte = s.dstLen → s.wr.bit = 0)
    ∧ ∀ j, j < 8 - s.wr.bit.toNat → s.wacc.getLsbD j = false

/-- What holds while a command executes: its operands are legal, I1 to I4, I7, and `op` agrees with
`phase` (`10_state.md` R38, R41). -/
abbrev State.BusyOk (s : State) : Prop :=
  s.srcLen ≠ 0 ∧ s.Legal ∧ s.ReadOk ∧ s.WriteOk ∧ s.ovf = false
    ∧ (s.phase = .enc → s.cnt ≠ 7 ∧ s.op = .encode)
    ∧ (s.phase = .dec → s.op = .decode)

/-- The machine's invariant: every register holds a value of its width; memory in its canonical form;
OVF is 1 only when DONE is 1 and then equals the sign bit of RESULT (`10_state.md` R27); and what holds
while a command executes. -/
abbrev State.Inv (s : State) : Prop :=
  s.Sized ∧ s.memWf = true
    ∧ (s.statusOvf = true → s.phase = .done)
    ∧ (s.phase = .done → s.statusOvf = s.result.testBit (s.widths.lw - 1))
    ∧ (s.busy = true → s.BusyOk)

/-! ## The engine's accesses (`10_state.md` R41 I5, I6, `20_memory.md` R67, R68) -/

/-- The addresses read, oldest first. -/
def busReads : List Access → List Nat
  | [] => []
  | .read a :: rest => busReads rest ++ [a]
  | .write _ _ :: rest => busReads rest

/-- The bytes written, oldest first. -/
def busWrites : List Access → List (Nat × Byte)
  | [] => []
  | .read _ :: rest => busWrites rest
  | .write a v :: rest => busWrites rest ++ [(a, v)]

/-- I5 and I6: while a command executes, "destination bytes 0 .. wr_byte-1 have been written exactly
once each, in ascending order" and hold what was written, "source bytes 0 .. rd_byte-1, and byte rd_byte
when rd_bit != 0, have been read exactly once each, in ascending order", and nothing else was accessed.
-/
abbrev State.BusPattern (s : State) : Prop :=
  s.busy = true →
    busReads s.bus
        = (List.range (s.rd.byte + if s.rd.bit = 0 then 0 else 1)).map s.srcByteAddr
      ∧ busWrites s.bus
        = (List.range s.wr.byte).map fun i =>
            (s.dstByteAddr i, s.mem.read (s.dstByteAddr i))

/-- An access inside the region it may touch (`20_memory.md` R63). -/
def State.AccessInside (s : State) : Access → Prop
  | .read a => ∃ i, i < s.srcLen ∧ a = s.srcByteAddr i
  | .write a _ => ∃ i, i < s.dstLen ∧ a = s.dstByteAddr i

/-! ## What an emitting step changes -/

/-- The state after the exception entry (`60_exceptions.md` R221). -/
abbrev State.OverflowTaken (t : State) : Prop :=
  t.ovf = true ∧ t.result = t.widths.minusOne ∧ t.statusOvf = true ∧ t.phase = .done

/-- `t` is `s` but for the output side of the machine: write cursor, accumulator, polarity, memory and
the record of the engine's accesses. -/
abbrev State.OnlyOutput (s t : State) : Prop :=
  t = { s with wr := t.wr, wacc := t.wacc, pol := t.pol, mem := t.mem, bus := t.bus }

/-- Output positions `p .. p+k-1` of `t` hold the bits given by `f`, and the positions before `p` hold
what they held in `s`. -/
abbrev State.Appended (s t : State) (k : Nat) (f : Nat → Bool) : Prop :=
  t.wr.pos = s.wr.pos + k
    ∧ (∀ q, q < s.wr.pos → t.outBit q = s.outBit q)
    ∧ ∀ q, q < k → t.outBit (s.wr.pos + q) = f q

/-- A code that fits emits `k` bits of the current polarity and then complements the polarity if it
closes the run; it stores at most the one byte under the write cursor, and nothing else changes. -/
def EmitsRun (i : Instr) (k : Nat) (closes : Bool) : Prop :=
  ∀ s : State, s.memWf = true → s.WriteOk → s.wr.pos + k ≤ 8 * s.dstLen →
    ∃ t, exec i s = .next t
      ∧ t.pol = (if closes then !s.pol else s.pol)
      ∧ s.Appended t k (fun _ => s.pol)
      ∧ t.WriteOk
      ∧ s.OnlyOutput t
      ∧ (∀ a, a ≠ s.dstPtr → t.mem.read a = s.mem.read a)
      ∧ (if s.wr.bit.toNat + k < 8 then t.mem = s.mem ∧ t.bus = s.bus
        else t.bus = .write s.dstPtr (t.mem.read s.dstPtr) :: s.bus)

/-- A code that does not fit takes the exception at "the first output bit whose stream position is
`8*DST_LEN`": the bits before it are placed, the polarity is not updated, nothing outside the byte under
the write cursor is stored. -/
def OverflowsRun (i : Instr) (k : Nat) : Prop :=
  ∀ s : State, s.memWf = true → s.WriteOk → 8 * s.dstLen < s.wr.pos + k →
    ∃ t, exec i s = .next t
      ∧ t.OverflowTaken
      ∧ t.pol = s.pol
      ∧ s.Appended t (8 * s.dstLen - s.wr.pos) (fun _ => s.pol)
      ∧ t = { s with
          wr := t.wr, wacc := t.wacc, mem := t.mem, bus := t.bus, ovf := true,
          result := t.result, statusOvf := true, phase := .done }
      ∧ ∀ a, a ≠ s.dstPtr → t.mem.read a = s.mem.read a

/-! ## How a command ends (`43_commands.md` R205) -/

/-- A command started in `s` has ended in `t` with the output bytes `out`: RESULT is their number, they
stand at the start of the destination region, no other byte of memory has changed, every source byte was
read once in ascending order and every output byte written once in ascending order (`20_memory.md` R67,
R68). -/
def State.Succeeded (s t : State) (out : List Byte) : Prop :=
  t.phase = .done ∧ t.statusOvf = false ∧ t.result = out.length
    ∧ (∀ i, i < out.length → t.mem.read (s.dstByteAddr i) = out.getD i 0)
    ∧ (∀ a, (∀ i, i < out.length → a ≠ s.dstByteAddr i) → t.mem.read a = s.mem.read a)
    ∧ busReads t.bus = (List.range s.srcLen).map s.srcByteAddr
    ∧ busWrites t.bus = (List.range out.length).map fun i => (s.dstByteAddr i, out.getD i 0)

/-- A command started in `s` has ended in `t` in capacity overflow, `out` being the output it would have
had with enough capacity: RESULT is -1, STATUS.OVF is 1, no byte outside the destination region has
changed, a beginning of the source was read, and exactly the first DST_LEN output bytes were written
(`60_exceptions.md` R221, `20_memory.md` R67, R68). The last clause, which bytes were written, is the
model's choice where R224 leaves the region unspecified: it follows R68 (log 8) and promises nothing to
software. -/
def State.Overflowed (s t : State) (out : List Byte) : Prop :=
  t.OverflowTaken
    ∧ (∀ a, s.OutsideDst a → t.mem.read a = s.mem.read a)
    ∧ (∃ j, j < s.srcLen ∧ busReads t.bus = (List.range (j + 1)).map s.srcByteAddr)
    ∧ busWrites t.bus
      = (List.range s.dstLen).map fun i => (s.dstByteAddr i, out.getD i 0)

/-- A command whose function gives `r` (some output bytes, or none for -1), and would give `out` with
unlimited capacity, has ended as it should. -/
def State.EndsAs (s t : State) (r : Option (List Byte)) (out : List Byte) : Prop :=
  match r with
  | some bytes => s.Succeeded t bytes
  | none => s.Overflowed t out

/-- The engine steps that are still to come at most, while a command executes (`41_encoder.md` R154,
`42_decoder.md` R190): the input bits or whole codes left, and the closing step. -/
def State.stepsLeft (s : State) : Nat :=
  match s.phase with
  | .idle => 0
  | .enc => 8 * s.srcLen - s.rd.pos + 1
  | .dec => (8 * s.srcLen - s.rd.pos) / 3 + 1
  | .done => 0

/-- The engine is next: the host has nothing to do, or waits (log 4). -/
abbrev State.EngineNext (s : State) : Prop :=
  s.host = [] ∨ ∃ rest, s.host = .wait :: rest

end Sys2Proof.Machine
end

