-- ==== Sys2Proof/Certificates/Slice0/Obligations.lean ====
section
/-!
DEFINITION. The statements about the machine, each formalising rules of the spec. A statement about a
free value holds for every value of it, and every statement about a state holds for all parameters AW
and LW that `00_scope.md` R7 admits, since the state carries them (log 1). Only `InvariantsHoldAtReset`
rests on a reset value the model chose (log 2), as it says; none rests on what unwritten memory reads as
(log 3).
-/

open Sys2Proof Sys2Proof.Machine Sys2Proof.Contract

/-! ## Reset and invariants -/

/-- The values the spec gives for reset (`10_state.md` R42): phase IDLE, STATUS 0, `done` low; no
operand register counts as written (`70_reset_and_hazards.md` R252); for all parameters and every memory
map. -/
def Obligations.ResetLeavesIdleAndStatusZero : Prop :=
  State.reset = State.resetWith Config.widths []
    ∧ ∀ (p : Widths) (ws : List Window),
      (State.resetWith p ws).phase = .idle ∧ (State.resetWith p ws).statusWord = 0
        ∧ (State.resetWith p ws).doneFlag = false ∧ (State.resetWith p ws).written = Written.none

/-- The invariant and the access pattern hold right after reset, for all parameters that `00_scope.md`
R7 admits. That every register then holds a value of its width rests on the zeros of log 2, a value of
every width. -/
def Obligations.InvariantsHoldAtReset : Prop :=
  (State.reset.Inv ∧ State.reset.BusPattern)
    ∧ ∀ (p : Widths) (ws : List Window), p.wellFormed = true →
      (State.resetWith p ws).Inv ∧ (State.resetWith p ws).BusPattern

/-- Every step keeps the machine's invariant (`10_state.md` R27, R30, R31, R33, R34, R41, `00_scope.md`
R7): every register keeps a value of its width, memory stays canonical, STATUS.OVF stays consistent with
DONE and RESULT, and while a command executes its operands stay legal, both cursors stay inside their
regions, `rbuf` holds the byte being read and `cnt` stays below 7. -/
def Obligations.StepKeepsInvariant : Prop :=
  ∀ s t : State, s.Inv → step s = .next t → t.Inv

/-- `10_state.md` R41, I1 to I7 together: between any two steps of a command the destination bytes below
the write cursor have been written once each in ascending order, the source bytes up to the read cursor
read once each in ascending order, and nothing else was accessed. -/
def Obligations.StepKeepsAccessPattern : Prop :=
  ∀ s t : State, s.Inv → s.BusPattern → step s = .next t → t.Inv ∧ t.BusPattern

/-- `00_scope.md` R7 and `20_memory.md` R71: AW, LW and the platform's memory map are parameters; no
step changes them. -/
def Obligations.StepKeepsPlatformMap : Prop :=
  ∀ s t : State, step s = .next t → t.widths = s.widths ∧ t.windows = s.windows

/-! ## Fetch, decode, step -/

/-- `42_decoder.md` R182: in DEC with a whole code left, the step takes the next code off the stream
(get_code: the read cursor three positions on, `rbuf`, at most one read) and runs the instruction it
decodes to; where the host waits, its action is used up first. -/
def Obligations.StepRunsTheDecodedCode : Prop :=
  ∀ s : State, s.phase = .dec → s.codeAvail = true →
    (∀ i, decode (.code3 (getCode s).1) = .ok i → s.host = [] → step s = exec i (getCode s).2)
      ∧ ∀ rest i, s.host = .wait :: rest →
          decode (.code3 (getCode (s.setHost rest)).1) = .ok i →
          step s = exec i (getCode (s.setHost rest)).2

/-- `30_encoding.md` R106: a host write of a command word to CTRL runs the command it decodes to. -/
def Obligations.StepRunsTheDecodedCommand : Prop :=
  ∀ (s : State) (w : Nat) (rest : List HostAction) (i : Instr),
    s.host = .writeReg (Reg.ctrl.offset s.widths) w :: rest → decode (.ctrl w) = .ok i →
    step s = exec i (s.setHost rest)

/-- Words written out from `30_encoding.md` R94, R106 and R108 decode to what they stand for. -/
def Obligations.SpelledWordsDecode : Prop :=
  decode (.code3 0b000#3) = .ok .run0 ∧ decode (.code3 0b101#3) = .ok .run5
    ∧ decode (.code3 0b111#3) = .ok .run7c
    ∧ decode (.ctrl 0b01) = .ok .encode ∧ decode (.ctrl 0b11) = .ok .decode
    ∧ decode (.ctrl 0b10) = .error .noStart
    ∧ decodeStream [0b10101100#8] = [.run5, .run3]

/-- Every well-formed instruction decodes back from its word (`30_encoding.md` R94, R106). -/
def Obligations.DecodeInvertsEncode : Prop :=
  ∀ i : Instr, i.wellFormed = true → decode (encode i) = .ok i ∧ (encode i).wellFormed = true

/-- A word in the encoder's form is the word of the instruction it decodes to: no two words of that form
mean the same instruction. -/
def Obligations.EncodeInvertsDecode : Prop :=
  ∀ (w : InstrWord) (i : Instr), w.wellFormed = true → decode w = .ok i → encode i = w

/-- `30_encoding.md` R97: the bytes of a code list are its code bits and then zero bits up to the byte
boundary, `ceil(3k/8)` bytes for k codes, and every padding length 0 to 7 occurs. -/
def Obligations.StreamIsCodesThenZeroPadding : Prop :=
  (∀ cs : List Code,
    (encodeStream cs).length = (3 * cs.length + 7) / 8
      ∧ bitsOf (encodeStream cs)
        = codeBits cs ++ List.replicate ((8 - 3 * cs.length % 8) % 8) false)
    ∧ ([8, 5, 2, 7, 4, 1, 6, 3].map fun k => (8 - 3 * k % 8) % 8) = [0, 1, 2, 3, 4, 5, 6, 7]

/-- `30_encoding.md` R100: reading the bytes of a code list back gives its codes, then `floor(q/3)`
codes 0 from the q padding bits, and those add nothing to the decoded output. -/
def Obligations.StreamReadsBackWithPadding : Prop :=
  ∀ cs : List Code,
    codesOf (bitsOf (encodeStream cs)) = cs ++ List.replicate ((8 - 3 * cs.length % 8) % 8 / 3) 0
      ∧ expand false (codesOf (bitsOf (encodeStream cs))) = expand false cs

/-- `20_memory.md` R65: the bits of the source region in stream order, stream position 8i + k being bit
7 - k of source byte i. -/
def Obligations.SourceBitsAreMostSignificantFirst : Prop :=
  ∀ s : State, bitsOf s.srcBytes = (List.range (8 * s.srcLen)).map s.srcBit

/-! ## The eight codes -/

/-- `42_decoder.md` R172: RUN0 emits no bit and complements the polarity; nothing else changes. -/
def Obligations.Run0FlipsPolarity : Prop :=
  ∀ s : State, exec .run0 s = .next { s with pol := !s.pol }

/-- `42_decoder.md` R173 to R178: RUN1 to RUN6 emit that many bits of value `pol`, then complement it;
at most one byte is written, and nothing else changes. Where the bits do not all fit, the exception is
taken at the first bit of destination byte number DST_LEN and the polarity is not updated. -/
def Obligations.Run1To6EmitThenFlip : Prop :=
  (EmitsRun .run1 1 true ∧ OverflowsRun .run1 1) ∧ (EmitsRun .run2 2 true ∧ OverflowsRun .run2 2)
    ∧ (EmitsRun .run3 3 true ∧ OverflowsRun .run3 3)
    ∧ (EmitsRun .run4 4 true ∧ OverflowsRun .run4 4)
    ∧ (EmitsRun .run5 5 true ∧ OverflowsRun .run5 5)
    ∧ (EmitsRun .run6 6 true ∧ OverflowsRun .run6 6)

/-- `42_decoder.md` R179: RUN7C emits seven bits of value `pol` and leaves it as it is; where they do
not all fit, the exception is taken at the first bit of destination byte number DST_LEN. -/
def Obligations.Run7cEmitsSevenAndKeepsPolarity : Prop :=
  EmitsRun .run7c 7 false ∧ OverflowsRun .run7c 7

/-- The frame of the eight codes, in every state: only the output side changes, or also the registers
the exception entry writes; every byte but the one under the write cursor reads as before, and that one
too where the code does not complete it. -/
def Obligations.CodesFrame : Prop :=
  ∀ (i : Instr) (s t : State), i.isCode = true → s.memWf = true → exec i s = .next t →
    ((s.OnlyOutput t)
        ∨ (t.OverflowTaken ∧ t.pol = s.pol
          ∧ t = { s with
              wr := t.wr, wacc := t.wacc, mem := t.mem, bus := t.bus, ovf := true,
              result := s.widths.minusOne, statusOvf := true, phase := .done }))
      ∧ (∀ a, a ≠ s.dstPtr → t.mem.read a = s.mem.read a)
      ∧ (s.wr.bit.toNat + i.runLength < 8 → t.mem = s.mem ∧ t.bus = s.bus)

/-- `60_exceptions.md` R221: what raising Overflow does. In the same step RESULT becomes -1, OVF and
DONE 1, BUSY 0; no memory access is made, everything else is left as it was, and the engine then has no
step. -/
def Obligations.OverflowEntry : Prop :=
  ∀ (b : Bool) (s : State), s.wr.byte = s.dstLen →
    ∃ t, putBit b s = .overflow t
      ∧ t = { s with ovf := true, result := s.widths.minusOne, statusOvf := true, phase := .done }
      ∧ t.statusWord = 0b110 ∧ engineStep t = .next t

/-! ## The two commands -/

/-- `41_encoder.md` R146 and `42_decoder.md` R181: an accepted START with SRC_LEN != 0 begins the work
of its command from the initial working state, and changes nothing else (of RESULT, unspecified until
completion by `10_state.md` R42, nothing is said). -/
def Obligations.CommandsBegin : Prop :=
  ∀ s : State, s.Ready →
    (∃ t, exec .encode s = .next t
        ∧ t = { s with
            op := .encode, statusOvf := false, rd := ⟨0, 0⟩, wr := ⟨0, 0⟩, wacc := 0, ovf := false,
            pol := false, cnt := 0, phase := .enc, bus := [], result := t.result })
      ∧ ∃ t, exec .decode s = .next t
        ∧ t = { s with
            op := .decode, statusOvf := false, rd := ⟨0, 0⟩, wr := ⟨0, 0⟩, wacc := 0, ovf := false,
            pol := false, phase := .dec, bus := [], result := t.result }

/-- `43_commands.md` R202 and `20_memory.md` R79: an accepted START with SRC_LEN = 0 completes in the
same action with RESULT 0, OVF 0 and no memory access, whatever the other operands are and whether or
not they were ever written. -/
def Obligations.ZeroLengthCommandCompletes : Prop :=
  ∀ s : State, s.busy = false → s.written.srcLen = true → s.srcLen = 0 →
    exec .encode s
        = .next { s with op := .encode, statusOvf := false, result := 0, phase := .done, bus := [] }
      ∧ exec .decode s
        = .next { s with op := .decode, statusOvf := false, result := 0, phase := .done, bus := [] }

/-- `10_state.md` R29, `43_commands.md` R201: a START while BUSY is ignored. -/
def Obligations.StartWhileBusyIgnored : Prop :=
  ∀ s : State, s.busy = true → exec .encode s = .next s ∧ exec .decode s = .next s

/-- `43_commands.md` R201: a CTRL write with bit 0 = 0 does nothing, whatever the other bits are, in
every phase. -/
def Obligations.CtrlWithoutStartDoesNothing : Prop :=
  ∀ (s : State) (w : Nat) (rest : List HostAction),
    s.host = .writeReg (Reg.ctrl.offset s.widths) w :: rest → w.testBit 0 = false →
    step s = .next (s.setHost rest)

/-- The frame of the two commands, in every state: the operand registers, memory, `rbuf` and the host's
side are unchanged, and `cnt` too for DECODE. -/
def Obligations.CommandsFrame : Prop :=
  ∀ (i : Instr) (s t : State), i = .encode ∨ i = .decode → exec i s = .next t →
    t = { s with
        op := t.op, statusOvf := t.statusOvf, result := t.result, phase := t.phase, rd := t.rd,
        wr := t.wr, wacc := t.wacc, ovf := t.ovf, pol := t.pol, cnt := t.cnt, bus := t.bus }
      ∧ (i = .decode → t.cnt = s.cnt)

/-- `43_commands.md` R208, `70_reset_and_hazards.md` R252: the acceptance test passes exactly the
commands whose operands were all written and meet L1 to L4, each byte of both regions considered. -/
def Obligations.AcceptanceTestIsLegality : Prop :=
  ∀ s : State, s.illegal = none ↔ s.written.all = true ∧ s.Legal

/-- `43_commands.md` R208, `70_reset_and_hazards.md` R252: a START with SRC_LEN != 0 that is not legal is
refused, both commands alike, with one of five reasons. Which reason answers which condition, and a START
with SRC_LEN never written, are in `RefusedStartsNameTheirReason`. -/
def Obligations.IllegalCommandsAreRefused : Prop :=
  ∀ s : State, s.busy = false → s.srcLen ≠ 0 → ¬(s.written.all = true ∧ s.Legal) →
    ∃ r, exec .encode s = .refused r ∧ exec .decode s = .refused r
      ∧ r ∈ [Refusal.operandNeverWritten, .lengthTopBitSet, .regionWraps, .notPlainMemory,
          .regionsOverlap]

/-! ## The engine's steps -/

/-- `40_bit_cursor.md` R123: `at_end` is "no bit left", `code_avail` is "at least three bits left"; the
first ends the ENCODE scan, the second failing ends the DECODE loop. -/
def Obligations.BitsLeftTests : Prop :=
  ∀ s : State, s.widths.wellFormed = true → s.ReadOk → s.srcLen ≤ s.widths.maxLen →
    (s.atEnd = true ↔ 8 * s.srcLen - s.rd.pos = 0)
      ∧ (s.codeAvail = true ↔ 3 ≤ 8 * s.srcLen - s.rd.pos)
      ∧ (s.phase = .enc → engineStep s = if s.atEnd then encFinish s else encScan s)
      ∧ (s.phase = .dec → engineStep s = if s.codeAvail then decCode s else decFinish s)

/-- `40_bit_cursor.md` R124: get_code gives the value of the next three input bits, most significant
first, also across a byte boundary, with at most one memory read, and changes only the input side. -/
def Obligations.GetCodeReadsThreeBits : Prop :=
  ∀ s : State, s.widths.wellFormed = true → s.ReadOk → s.srcLen ≤ s.widths.maxLen →
    s.codeAvail = true →
    (getCode s).1.toNat
        = 4 * (s.srcBit s.rd.pos).toNat + 2 * (s.srcBit (s.rd.pos + 1)).toNat
          + (s.srcBit (s.rd.pos + 2)).toNat
      ∧ (getCode s).2.rd.pos = s.rd.pos + 3
      ∧ (getCode s).2
        = { s with rd := (getCode s).2.rd, rbuf := (getCode s).2.rbuf, bus := (getCode s).2.bus }
      ∧ ((getCode s).2.bus = s.bus
        ∨ ∃ i, i < s.srcLen ∧ (getCode s).2.bus = .read (s.srcByteAddr i) :: s.bus)

/-- `41_encoder.md` R147, ENC_SCAN: one input bit is taken; a bit equal to `pol` is counted, the seventh
emitting code 7 with the polarity kept; another bit emits the closing code `cnt`, complements the
polarity and counts 1; a code that does not fit takes the exception and the assignments after it are not
performed. At most one byte is read and at most one written. -/
def Obligations.EncScanStep : Prop :=
  ∀ s : State, s.Inv → s.phase = .enc → s.atEnd = false →
    ∃ t, engineStep s = .next t ∧ t.rd.pos = s.rd.pos + 1
      ∧ (∃ new, t.bus = new ++ s.bus ∧ (busReads new).length ≤ 1 ∧ (busWrites new).length ≤ 1)
      ∧ (s.srcBit s.rd.pos = s.pol → s.cnt ≠ 6 →
          t.cnt = s.cnt + 1
            ∧ t = { s with rd := t.rd, rbuf := t.rbuf, bus := t.bus, cnt := t.cnt })
      ∧ (s.srcBit s.rd.pos = s.pol → s.cnt = 6 → s.wr.pos + 3 ≤ 8 * s.dstLen →
          t.cnt = 0 ∧ s.Appended t 3 (fun q => (code3 7).getD q false)
            ∧ t = { s with
                rd := t.rd, rbuf := t.rbuf, wr := t.wr, wacc := t.wacc, mem := t.mem, bus := t.bus,
                cnt := t.cnt })
      ∧ (s.srcBit s.rd.pos ≠ s.pol → s.wr.pos + 3 ≤ 8 * s.dstLen →
          t.cnt = 1 ∧ t.pol = !s.pol ∧ s.Appended t 3 (fun q => (code3 s.cnt).getD q false)
            ∧ t = { s with
                rd := t.rd, rbuf := t.rbuf, wr := t.wr, wacc := t.wacc, mem := t.mem, bus := t.bus,
                cnt := t.cnt, pol := t.pol })
      ∧ (s.srcBit s.rd.pos ≠ s.pol ∨ s.cnt = 6 → 8 * s.dstLen < s.wr.pos + 3 →
          t.OverflowTaken ∧ t.pol = s.pol
            ∧ t.cnt = (if s.srcBit s.rd.pos = s.pol then 7 else s.cnt)
            ∧ t = { s with
                rd := t.rd, rbuf := t.rbuf, wr := t.wr, wacc := t.wacc, mem := t.mem, bus := t.bus,
                cnt := t.cnt, ovf := true, result := s.widths.minusOne, statusOvf := true,
                phase := .done })

/-- `41_encoder.md` R148, ENC_FINISH: the closing code of the last run, also when it is 0, zero padding
to the byte boundary, RESULT the number of bytes; a code that does not fit takes the exception. -/
def Obligations.EncFinishStep : Prop :=
  ∀ s : State, s.Inv → s.phase = .enc → s.atEnd = true →
    ∃ t, engineStep s = .next t ∧ t.phase = .done
      ∧ (s.wr.pos + 3 ≤ 8 * s.dstLen →
          t.statusOvf = false ∧ t.result = t.wr.byte ∧ t.wr.bit = 0
            ∧ t.result = (s.wr.pos + 3 + 7) / 8
            ∧ (∀ q, q < s.wr.pos → t.outBit q = s.outBit q)
            ∧ (∀ q, q < 3 → t.outBit (s.wr.pos + q) = (code3 s.cnt).getD q false)
            ∧ ∀ q, s.wr.pos + 3 ≤ q → q < 8 * t.wr.byte → t.outBit q = false)
      ∧ (8 * s.dstLen < s.wr.pos + 3 → t.OverflowTaken)

/-- `42_decoder.md` R183, DEC_FINISH: zero padding of the last byte, RESULT the number of bytes; no
exception, the input bits still unread are never read, and with no partial byte nothing is written. -/
def Obligations.DecFinishStep : Prop :=
  ∀ s : State, s.Inv → s.phase = .dec → s.codeAvail = false →
    ∃ t, engineStep s = .next t ∧ t.phase = .done ∧ t.statusOvf = false ∧ t.result = t.wr.byte
      ∧ t.wr.bit = 0 ∧ t.result = (s.wr.pos + 7) / 8 ∧ t.rd = s.rd
      ∧ (∀ q, q < s.wr.pos → t.outBit q = s.outBit q)
      ∧ (∀ q, s.wr.pos ≤ q → q < 8 * t.wr.byte → t.outBit q = false)
      ∧ busReads t.bus = busReads s.bus
      ∧ (s.wr.bit = 0 → t.mem = s.mem ∧ t.bus = s.bus)

/-- `20_memory.md` R63: whatever step the engine takes, in every state of the invariant and with every
outcome, no byte outside the destination region changes, and every access it adds is a read inside the
source region or a write inside the destination region. -/
def Obligations.EngineStaysInsideItsRegions : Prop :=
  ∀ s t : State, s.Inv → s.EngineNext → step s = .next t →
    (∀ a, s.OutsideDst a → t.mem.read a = s.mem.read a)
      ∧ ∃ new, t.bus = new ++ s.bus ∧ ∀ x ∈ new, s.AccessInside x

/-- `43_commands.md` R207, `41_encoder.md` R150, R154, `42_decoder.md` R189, R190: while a command
executes the engine always has its next step, and each one brings the command one step nearer its end,
or ends it; the last one ends it. -/
def Obligations.EngineIsNeverStuck : Prop :=
  ∀ s : State, s.Inv → s.busy = true → s.EngineNext →
    ∃ t, step s = .next t
      ∧ (t.phase = .done ∨ (t.phase = s.phase ∧ t.stepsLeft + 1 = s.stepsLeft))
      ∧ (s.stepsLeft = 1 → t.phase = .done)

/-- `43_commands.md` R209: one engine step sees of memory only the source region. Two states that differ
only in memory outside it take the same step, and bytes on which they agreed still agree. -/
def Obligations.EngineSeesOnlyTheSource : Prop :=
  ∀ (s : State) (m : Memory), s.Inv → s.busy = true → m.wf s.widths.addrSpace = true →
    (∀ i, i < s.srcLen → m.read (s.srcByteAddr i) = s.srcByte i) →
    ∃ t u, engineStep s = .next t ∧ engineStep { s with mem := m } = .next u
      ∧ u = { t with mem := u.mem }
      ∧ ∀ a, m.read a = s.mem.read a → u.mem.read a = t.mem.read a

/-! ## Whole commands -/

/-- `41_encoder.md` R155: started on any legal operands and left alone for `8*SRC_LEN + 1` steps, ENCODE
ends with the RESULT of the function of R140 and, on success, exactly its bytes in the destination. On
overflow it also says that exactly the first DST_LEN bytes of the full output were written: that clause
is the model's choice (log 8, after `20_memory.md` R68 and `41_encoder.md` R152) where
`60_exceptions.md` R224 and `93_implementation_defined.md` U1 leave the region unspecified, and no
promise to software. -/
def Obligations.EncodeComputesItsFunction : Prop :=
  ∀ s : State, s.Ready → s.memWf = true → s.host = [] →
    ∃ s0 t, exec .encode s = .next s0
      ∧ Host.Core.run Sys2Proof.core (8 * s.srcLen + 1) s0 = .next t
      ∧ s.EndsAs t (encodeFn s.srcBytes s.dstLen) (encodeOut s.srcBytes)

/-- `42_decoder.md` R191: started on any legal operands and left alone for `floor(8*SRC_LEN/3) + 1`
steps, DECODE ends with the RESULT of the function of R170 and, on success, exactly its bytes in the
destination. On overflow it also says that exactly the first DST_LEN bytes of the full output were
written: that clause is the model's choice (log 8, after `20_memory.md` R68) where `60_exceptions.md`
R224 and `93_implementation_defined.md` U1 leave the region unspecified, and no promise to software. -/
def Obligations.DecodeComputesItsFunction : Prop :=
  ∀ s : State, s.Ready → s.memWf = true → s.host = [] →
    ∃ s0 t, exec .decode s = .next s0
      ∧ Host.Core.run Sys2Proof.core (8 * s.srcLen / 3 + 1) s0 = .next t
      ∧ s.EndsAs t (decodeFn s.srcBytes s.dstLen) (decodeOut s.srcBytes)

/-- `43_commands.md` R209: the outcome of a command is a function of its operands and of the source
bytes at START, and of nothing else: two machines of the same parameters that agree on those end alike,
whatever their working state, earlier results, memory map and other memory are. -/
def Obligations.CommandsAreIndependent : Prop :=
  ∀ s s' : State, s.Ready → s'.Ready → s.memWf = true → s'.memWf = true → s.host = [] →
    s'.host = [] → s'.widths = s.widths → s'.srcAddr = s.srcAddr → s'.srcLen = s.srcLen →
    s'.dstAddr = s.dstAddr → s'.dstLen = s.dstLen → s'.srcBytes = s.srcBytes →
    ∀ i : Instr, i = .encode ∨ i = .decode →
      ∃ s0 s0' t t', exec i s = .next s0 ∧ exec i s' = .next s0'
        ∧ Host.Core.run Sys2Proof.core (8 * s.srcLen + 1) s0 = .next t
        ∧ Host.Core.run Sys2Proof.core (8 * s.srcLen + 1) s0' = .next t'
        ∧ t.phase = .done ∧ t'.phase = .done ∧ t'.result = t.result ∧ t'.statusOvf = t.statusOvf
        ∧ (t.statusOvf = false → ∀ k, k < t.result →
            t'.mem.read (s.dstByteAddr k) = t.mem.read (s.dstByteAddr k))

/-- `42_decoder.md` R192: DECODE gives back exactly what ENCODE encoded, byte for byte, and the decoded
bit count is exactly 8n. -/
def Obligations.DecodeInvertsEncodeOnBytes : Prop :=
  ∀ (b e : List Byte) (capE capD : Nat), encodeFn b capE = some e → b.length ≤ capD →
    decodeFn e capD = some b ∧ (expand false (codesOf (bitsOf e))).length = 8 * b.length

/-- `41_encoder.md` R141: the runs of a non-empty bit list spell it with values alternating from 0, only
the first can be empty, they add up to its length, and they are the only run lengths that do. -/
def Obligations.RunsDecomposeTheInput : Prop :=
  ∀ b : List Bool, b ≠ [] →
    unruns false (runs b) = b ∧ (∀ x ∈ (runs b).tail, 1 ≤ x) ∧ (runs b).sum = b.length
      ∧ ∀ ls : List Nat, unruns false ls = b → (∀ x ∈ ls.tail, 1 ≤ x) → ls = runs b

/-- `30_encoding.md` R102: the codes of ENCODE are canonical for every non-empty input. -/
def Obligations.EncodeIsCanonical : Prop :=
  ∀ b : List Bool, b ≠ [] → canonicalCodes (encodeCodes b) = true

/-- `41_encoder.md` R151: the encoded length of n >= 1 bytes is at least `ceil(3*(floor(8n/7) + 1)/8)`,
so never 0, and at most `3n + 1`, so ENCODE never overflows with that much room. -/
def Obligations.EncodedSizeBounds : Prop :=
  ∀ src : List Byte, src ≠ [] →
    1 ≤ (3 * (8 * src.length / 7 + 1) + 7) / 8
      ∧ (3 * (8 * src.length / 7 + 1) + 7) / 8 ≤ (encodeOut src).length
      ∧ (encodeOut src).length ≤ 3 * src.length + 1
      ∧ ∀ cap, 3 * src.length + 1 ≤ cap → encodeFn src cap = some (encodeOut src)

/-- `30_encoding.md` R104: the number of codes is the sum of `floor(L/7) + 1` over the runs and the
encoded length its `ceil(3k/8)`; the extremes are reached by bytes 0x00 and by bytes 0xAA. -/
def Obligations.EncodedSizeIsItsCodeCount : Prop :=
  (∀ src : List Byte,
    (encodeCodes (bitsOf src)).length = ((runs (bitsOf src)).map fun l => l / 7 + 1).sum
      ∧ (encodeOut src).length = (3 * (encodeCodes (bitsOf src)).length + 7) / 8)
    ∧ (∀ src : List Byte, src ≠ [] →
      8 * src.length / 7 + 1 ≤ (encodeCodes (bitsOf src)).length
        ∧ (encodeCodes (bitsOf src)).length ≤ 8 * src.length + 1)
    ∧ ∀ n : Nat, 1 ≤ n →
      (encodeCodes (bitsOf (List.replicate n 0x00))).length = 8 * n / 7 + 1
        ∧ (encodeCodes (bitsOf (List.replicate n 0xAA))).length = 8 * n + 1
        ∧ (encodeOut (List.replicate n 0xAA)).length = 3 * n + 1

/-- `42_decoder.md` R188: the decoded length of n >= 1 bytes is at most `ceil(7*floor(8n/3)/8)`, reached
by bytes 0xFF, and DECODE never overflows with that much room. -/
def Obligations.DecodedSizeBound : Prop :=
  (∀ src : List Byte, src ≠ [] →
    (decodeOut src).length ≤ (7 * (8 * src.length / 3) + 7) / 8
      ∧ ∀ cap, (7 * (8 * src.length / 3) + 7) / 8 ≤ cap → decodeFn src cap = some (decodeOut src))
    ∧ ∀ n : Nat, (decodeOut (List.replicate n 0xFF)).length = (7 * (8 * n / 3) + 7) / 8

/-- `42_decoder.md` R186: two sources of one length that agree on the whole codes decode alike, whatever
their last `8n mod 3` bits are. -/
def Obligations.DecodeIgnoresTheTail : Prop :=
  ∀ (src src' : List Byte) (cap : Nat), src'.length = src.length →
    (bitsOf src').take (3 * (8 * src.length / 3)) = (bitsOf src).take (3 * (8 * src.length / 3)) →
    decodeFn src' cap = decodeFn src cap

/-- `42_decoder.md` R185: where every code is 0, DECODE succeeds with no byte, for every capacity. -/
def Obligations.AllZeroCodesDecodeToNothing : Prop :=
  ∀ (src : List Byte) (cap : Nat), (∀ v ∈ codesOf (bitsOf src), v = 0) →
    decodeFn src cap = some []

/-! ## The host's side -/

/-- `10_state.md` R29: while BUSY a host write to a register is ignored and no command starts (that a
write to STATUS or RESULT, read-only by R25, R27 and R28, is ignored too is the model's inference, log
13); a read is allowed in every phase and has no side effect; the four operands are constant for the
whole of a command. -/
def Obligations.HostAccessWhileBusy : Prop :=
  (∀ (s : State) (off v : Nat) (rest : List HostAction), s.busy = true →
      s.host = .writeReg off v :: rest → (Reg.ofOffset s.widths off).isSome = true →
      step s = .next (s.setHost rest))
    ∧ (∀ (s : State) (off : Nat) (rest : List HostAction),
      s.host = .readReg off :: rest → (Reg.ofOffset s.widths off).isSome = true →
      ∃ t, step s = .next t
        ∧ t = { s with host := rest, hostData := t.hostData, draws := t.draws })
    ∧ ∀ s t : State, s.busy = true → step s = .next t → (∀ rest, s.host ≠ .reset :: rest) →
      t.srcAddr = s.srcAddr ∧ t.srcLen = s.srcLen ∧ t.dstAddr = s.dstAddr ∧ t.dstLen = s.dstLen

/-- `10_state.md` R21 to R24, R28, `00_scope.md` R9: in IDLE and DONE a host write to an operand
register's offset sets that register to the value truncated to its width; the register then counts as
written, and nothing else changes. -/
def Obligations.HostWritesOperands : Prop :=
  ∀ (s : State) (v : Nat) (rest : List HostAction), s.busy = false →
    (s.host = .writeReg (Reg.srcAddr.offset s.widths) v :: rest → step s = .next { s with
        host := rest, srcAddr := v % 2 ^ s.widths.aw, written := { s.written with srcAddr := true } })
      ∧ (s.host = .writeReg (Reg.srcLen.offset s.widths) v :: rest → step s = .next { s with
        host := rest, srcLen := v % 2 ^ s.widths.lw, written := { s.written with srcLen := true } })
      ∧ (s.host = .writeReg (Reg.dstAddr.offset s.widths) v :: rest → step s = .next { s with
        host := rest, dstAddr := v % 2 ^ s.widths.aw, written := { s.written with dstAddr := true } })
      ∧ (s.host = .writeReg (Reg.dstLen.offset s.widths) v :: rest → step s = .next { s with
        host := rest, dstLen := v % 2 ^ s.widths.lw, written := { s.written with dstLen := true } })

/-- `10_state.md` R26 to R28: what a host read of each register returns: the operands their values, CTRL
0, STATUS its word, RESULT its value while DONE is 1 (while DONE is 0 the value is free,
`43_commands.md` R206, and nothing is said of it). Where max(AW, LW) is 2, that a read of STATUS returns all
three of its bits is the model's choice (log 26, DEDUCED): R28 then gives the access a word of 2 bits. -/
def Obligations.HostReadsRegisters : Prop :=
  ∀ (s : State) (rest : List HostAction),
    (s.host = .readReg (Reg.srcAddr.offset s.widths) :: rest →
          step s = .next { s with host := rest, hostData := s.srcAddr })
      ∧ (s.host = .readReg (Reg.srcLen.offset s.widths) :: rest →
          step s = .next { s with host := rest, hostData := s.srcLen })
      ∧ (s.host = .readReg (Reg.dstAddr.offset s.widths) :: rest →
          step s = .next { s with host := rest, hostData := s.dstAddr })
      ∧ (s.host = .readReg (Reg.dstLen.offset s.widths) :: rest →
          step s = .next { s with host := rest, hostData := s.dstLen })
      ∧ (s.host = .readReg (Reg.ctrl.offset s.widths) :: rest →
          step s = .next { s with host := rest, hostData := 0 })
      ∧ (s.host = .readReg (Reg.status.offset s.widths) :: rest →
          step s = .next { s with host := rest, hostData := s.statusWord })
      ∧ (s.host = .readReg (Reg.result.offset s.widths) :: rest → s.phase = .done →
          step s = .next { s with host := rest, hostData := s.result })

/-- `10_state.md` R27: the STATUS word is BUSY, DONE, OVF at bits 0, 1, 2 and 0 above; BUSY and DONE are
never both 1, OVF is 1 only when DONE is 1, and then it equals the sign bit of RESULT. -/
def Obligations.StatusWordBits : Prop :=
  (∀ s : State, s.statusWord.testBit 0 = s.busy ∧ s.statusWord.testBit 1 = s.doneFlag
      ∧ s.statusWord.testBit 2 = s.statusOvf ∧ s.statusWord < 8)
    ∧ ∀ s : State, s.Inv →
      ¬(s.busy = true ∧ s.doneFlag = true) ∧ (s.statusOvf = true → s.doneFlag = true)
        ∧ (s.doneFlag = true → s.statusOvf = s.result.testBit (s.widths.lw - 1))

/-- `43_commands.md` R206: RESULT, STATUS.OVF and DONE stay unchanged from completion until the next
START or reset, whatever else the host does. -/
def Obligations.ResultPersists : Prop :=
  ∀ s t : State, s.phase = .done → step s = .next t → (∀ rest, s.host ≠ .reset :: rest) →
    (∀ w rest, s.host = .writeReg (Reg.ctrl.offset s.widths) w :: rest → w.testBit 0 = false) →
    t.phase = .done ∧ t.result = s.result ∧ t.statusOvf = s.statusOvf

/-- `43_commands.md` R207: the only events that change `phase`: reset, to IDLE; an accepted START, to
DONE, ENC or DEC by SRC_LEN and CTRL.OP; an engine step, from ENC or DEC to DONE. -/
def Obligations.PhaseChangesOnlySo : Prop :=
  ∀ s t : State, step s = .next t → t.phase ≠ s.phase →
    (∃ rest, s.host = .reset :: rest ∧ t.phase = .idle)
      ∨ (s.busy = false ∧ ∃ w rest, s.host = .writeReg (Reg.ctrl.offset s.widths) w :: rest
        ∧ w.testBit 0 = true ∧ t.phase = if s.srcLen = 0 then .done else if w.testBit 1 then .dec else .enc)
      ∨ (s.busy = true ∧ s.EngineNext ∧ t.phase = .done)

/-- `70_reset_and_hazards.md` R255: while BUSY the host may not write a byte of either region nor read
one of the destination region; reading the source region is harmless. -/
def Obligations.BuffersBelongToTheEngineWhileBusy : Prop :=
  ∀ (s : State) (rest : List HostAction), s.Inv → s.busy = true →
    (∀ i v, i < s.srcLen → s.host = .writeMem (s.srcByteAddr i) v :: rest →
        step s = .refused .bufferNotOwned)
      ∧ (∀ i v, i < s.dstLen → s.host = .writeMem (s.dstByteAddr i) v :: rest →
        step s = .refused .bufferNotOwned)
      ∧ (∀ i, i < s.dstLen → s.host = .readMem (s.dstByteAddr i) :: rest →
        step s = .refused .bufferNotOwned)
      ∧ (∀ i, i < s.srcLen → s.host = .readMem (s.srcByteAddr i) :: rest →
        step s = .next { s with host := rest, hostData := (s.srcByte i).toNat })

/-- `70_reset_and_hazards.md` R250, R251: reset takes the block to IDLE with STATUS 0 from every phase,
makes no memory access, and touches no byte outside the destination region of a command it abandons; in
IDLE and DONE it touches no byte at all. What the other registers hold then is free, and nothing is said
of it. -/
def Obligations.ResetAction : Prop :=
  ∀ (s : State) (rest : List HostAction), s.host = .reset :: rest →
    ∃ t, step s = .next t ∧ t.phase = .idle ∧ t.statusWord = 0 ∧ t.host = rest ∧ t.bus = s.bus
      ∧ t.written = Written.none
      ∧ (s.busy = false → t.mem = s.mem)
      ∧ (s.memWf = true → ∀ a, s.OutsideDst a → t.mem.read a = s.mem.read a)

/-- `43_commands.md` R200: the four operand writes leave the block with those operands, truncated to
their widths, and nothing else changed, the command word being next. -/
def Obligations.HostIssuesACommand : Prop :=
  ∀ (s : State) (src n dst cap w : Nat) (rest : List HostAction), s.busy = false →
    s.host = [.writeReg (Reg.srcAddr.offset s.widths) src, .writeReg (Reg.srcLen.offset s.widths) n,
      .writeReg (Reg.dstAddr.offset s.widths) dst, .writeReg (Reg.dstLen.offset s.widths) cap,
      .writeReg (Reg.ctrl.offset s.widths) w] ++ rest →
    Host.Core.run Sys2Proof.core 4 s = .next { s with
      srcAddr := src % 2 ^ s.widths.aw, srcLen := n % 2 ^ s.widths.lw
      dstAddr := dst % 2 ^ s.widths.aw, dstLen := cap % 2 ^ s.widths.lw
      written := ⟨true, true, true, true⟩
      host := .writeReg (Reg.ctrl.offset s.widths) w :: rest }

/-- `10_state.md` R28: seven registers, at offsets 0x00 to 0x18 in steps of 4 where AW and LW are at
most 32, at multiples of max(AW, LW)/8 bytes beyond; the model stops with its own fault on a host access
at any other offset (log 14). -/
def Obligations.RegisterMapIsExact : Prop :=
  (∀ p : Widths, p.aw ≤ 32 → p.lw ≤ 32 →
      [Reg.srcAddr, .srcLen, .dstAddr, .dstLen, .ctrl, .status, .result].map (Reg.offset p)
        = [0x00, 0x04, 0x08, 0x0C, 0x10, 0x14, 0x18])
    ∧ (∀ p : Widths, 32 < max p.aw p.lw → max p.aw p.lw % 8 = 0 →
      [Reg.srcAddr, .srcLen, .dstAddr, .dstLen, .ctrl, .status, .result].map (Reg.offset p)
        = [0, 1, 2, 3, 4, 5, 6].map fun k => max p.aw p.lw / 8 * k)
    ∧ (∀ (p : Widths) (r : Reg), Reg.ofOffset p (r.offset p) = some r)
    ∧ ∀ (s : State) (off v : Nat) (rest : List HostAction), (∀ r : Reg, off ≠ r.offset s.widths) →
      (s.host = .writeReg off v :: rest ∨ s.host = .readReg off :: rest) →
      step s = .fault .noRegister

/-- `20_memory.md` R60: memory has 2^AW addresses; a host access at any other address stops with the
model's own fault, in every phase (log 27). -/
def Obligations.AddressesOutsideTheSpaceFault : Prop :=
  ∀ (s : State) (a : Nat) (v : Byte) (rest : List HostAction), 2 ^ s.widths.aw ≤ a →
    (s.host = .writeMem a v :: rest ∨ s.host = .readMem a :: rest) → step s = .fault .noAddress

/-- `70_reset_and_hazards.md` R253, `20_memory.md` R69: outside a command the host stores and loads any
byte of plain memory, and nothing else changes. -/
def Obligations.HostUsesMemory : Prop :=
  ∀ (s : State) (a : Nat) (v : Byte) (rest : List HostAction), s.busy = false → s.memWf = true →
    a < 2 ^ s.widths.aw → (∀ w ∈ s.windows, ¬w.Covers a) →
    (s.host = .writeMem a v :: rest → ∃ t, step s = .next t
        ∧ t = { s with host := rest, mem := t.mem } ∧ t.mem.read a = v
        ∧ ∀ b, b ≠ a → t.mem.read b = s.mem.read b)
      ∧ (s.host = .readMem a :: rest →
        step s = .next { s with host := rest, hostData := (s.mem.read a).toNat })

/-! ## Why a START is refused -/

/-- `70_reset_and_hazards.md` R252: a START whose SRC_LEN was never written is refused, whatever SRC_LEN
holds, 0 too; with SRC_LEN != 0 so is one with another operand never written. `43_commands.md` R208: with
all four written and SRC_LEN != 0, the first of L1 to L4 that fails gives the reason its name. The names
and the order are the model's (log 9, log 10). -/
def Obligations.RefusedStartsNameTheirReason : Prop :=
  ∀ (s : State) (i : Instr), s.busy = false → i = .encode ∨ i = .decode →
    (s.written.srcLen = false → exec i s = .refused .operandNeverWritten)
      ∧ (s.srcLen ≠ 0 → s.written.all = false → exec i s = .refused .operandNeverWritten)
      ∧ (s.srcLen ≠ 0 → s.written.all = true → ¬s.LengthsLegal →
          exec i s = .refused .lengthTopBitSet)
      ∧ (s.srcLen ≠ 0 → s.written.all = true → s.LengthsLegal → ¬s.RegionsFit →
          exec i s = .refused .regionWraps)
      ∧ (s.srcLen ≠ 0 → s.written.all = true → s.LengthsLegal → s.RegionsFit → ¬s.RegionsPlain →
          exec i s = .refused .notPlainMemory)
      ∧ (s.srcLen ≠ 0 → s.written.all = true → s.LengthsLegal → s.RegionsFit → s.RegionsPlain →
          ¬s.RegionsDisjoint → exec i s = .refused .regionsOverlap)
end

