-- ==== Sys2Proof/Laws/Memory.lean ====
section
/-!
SUPPORT. The laws of memory: every operation keeps the canonical form, a read after a write to the same
address gives the value written, a write leaves every other address alone, and equal reads mean equal
memories.
-/

namespace Sys2Proof.Machine

theorem Memory.wfFrom_mono {n lo hi : Nat} (h : lo ≤ hi) :
    ∀ {m : Memory}, Memory.wfFrom n hi m = true → Memory.wfFrom n lo m = true
  | [], _ => rfl
  | (k, v) :: rest, hm => by
    simp only [Memory.wfFrom, Bool.and_eq_true, decide_eq_true_eq] at hm ⊢
    exact ⟨⟨⟨by omega, hm.1.1.2⟩, hm.1.2⟩, hm.2⟩

theorem Memory.read_below {n lo : Nat} :
    ∀ {m : Memory} {a : Nat}, Memory.wfFrom n lo m = true → a < lo →
      m.read a = Config.unwrittenByte
  | [], _, _, _ => rfl
  | (k, v) :: rest, a, hm, ha => by
    simp only [Memory.wfFrom, Bool.and_eq_true, decide_eq_true_eq] at hm
    have hk : k ≠ a := by omega
    simp only [Memory.read, hk, if_false]
    exact Memory.read_below hm.2 (by omega)

theorem Memory.wfFrom_consCell {n lo a : Nat} {v : Byte} {m : Memory} (hlo : lo ≤ a)
    (ha : a < n) (hm : Memory.wfFrom n (a + 1) m = true) :
    Memory.wfFrom n lo (Memory.consCell a v m) = true := by
  unfold Memory.consCell
  split
  · exact Memory.wfFrom_mono (by omega) hm
  · next hv => simp [Memory.wfFrom, hlo, ha, hv, hm]

theorem Memory.wfFrom_write {n a : Nat} (v : Byte) (ha : a < n) :
    ∀ {lo : Nat} {m : Memory}, Memory.wfFrom n lo m = true → lo ≤ a →
      Memory.wfFrom n lo (m.write a v) = true
  | lo, [], _, hlo => Memory.wfFrom_consCell hlo ha rfl
  | lo, (k, w) :: rest, hm, hlo => by
    have hm' := hm
    simp only [Memory.wfFrom, Bool.and_eq_true, decide_eq_true_eq] at hm
    simp only [Memory.write]
    split
    · next hk =>
      simp only [Memory.wfFrom, Bool.and_eq_true, decide_eq_true_eq]
      exact ⟨hm.1, Memory.wfFrom_write v ha hm.2 (by omega)⟩
    · split
      · next hk => exact Memory.wfFrom_consCell hlo ha (hk ▸ hm.2)
      · next h1 h2 =>
        refine Memory.wfFrom_consCell hlo ha ?_
        simp only [Memory.wfFrom, Bool.and_eq_true, decide_eq_true_eq]
        exact ⟨⟨⟨by omega, hm.1.1.2⟩, hm.1.2⟩, hm.2⟩

theorem Memory.read_consCell {n a b : Nat} {v : Byte} {m : Memory}
    (hm : Memory.wfFrom n (a + 1) m = true) :
    (Memory.consCell a v m).read b = if b = a then v else m.read b := by
  unfold Memory.consCell
  split
  · next hv =>
    split
    · next hb => rw [hv, hb]; exact Memory.read_below hm (by omega)
    · rfl
  · simp only [Memory.read, eq_comm]

theorem Memory.readFrom_write {n a b : Nat} (v : Byte) :
    ∀ {lo : Nat} {m : Memory}, Memory.wfFrom n lo m = true →
      (m.write a v).read b = if b = a then v else m.read b
  | _, [], _ => Memory.read_consCell (n := n) rfl
  | lo, (k, w) :: rest, hm => by
    have hm' := hm
    simp only [Memory.wfFrom, Bool.and_eq_true, decide_eq_true_eq] at hm
    simp only [Memory.write]
    split
    · next hk =>
      rw [Memory.read, Memory.readFrom_write v hm.2, Memory.read]
      split_ifs <;> first | rfl | omega
    · split
      · next hk =>
        rw [Memory.read_consCell (hk ▸ hm.2)]
        simp only [Memory.read]
        split_ifs <;> first | rfl | omega
      · next h1 h2 =>
        refine Memory.read_consCell (n := n) ?_
        simp only [Memory.wfFrom, Bool.and_eq_true, decide_eq_true_eq]
        exact ⟨⟨⟨by omega, hm.1.1.2⟩, hm.1.2⟩, hm.2⟩

/-- Every store inside the address space keeps the canonical form. -/
theorem Memory.write_wf {n : Nat} {m : Memory} {a : Nat} (v : Byte) (ha : a < n) (hm : m.wf n = true) :
    (m.write a v).wf n = true :=
  Memory.wfFrom_write v ha hm (Nat.zero_le _)

/-- What a read gives after a store. -/
theorem Memory.read_write {n : Nat} {m : Memory} (a b : Nat) (v : Byte) (hm : m.wf n = true) :
    (m.write a v).read b = if b = a then v else m.read b :=
  Memory.readFrom_write v hm

theorem Memory.read_write_same {n : Nat} {m : Memory} (a : Nat) (v : Byte) (hm : m.wf n = true) :
    (m.write a v).read a = v := by
  rw [Memory.read_write a a v hm, if_pos rfl]

theorem Memory.read_write_other {n : Nat} {m : Memory} {a b : Nat} (v : Byte) (hm : m.wf n = true)
    (h : b ≠ a) : (m.write a v).read b = m.read b := by
  rw [Memory.read_write a b v hm, if_neg h]

theorem State.resetWith_memWf (p : Widths) (ws : List Window) :
    (State.resetWith p ws).memWf = true := rfl

theorem Memory.ext_from {n lo : Nat} :
    ∀ {m m' : Memory}, Memory.wfFrom n lo m = true → Memory.wfFrom n lo m' = true →
      (∀ a, m.read a = m'.read a) → m = m'
  | [], [], _, _, _ => rfl
  | [], (k, v) :: rest, _, h', h => by
    simp only [Memory.wfFrom, Bool.and_eq_true, decide_eq_true_eq] at h'
    exact absurd (by simpa [Memory.read] using (h k).symm) h'.1.2
  | (k, v) :: rest, [], h', _, h => by
    simp only [Memory.wfFrom, Bool.and_eq_true, decide_eq_true_eq] at h'
    exact absurd (by simpa [Memory.read] using h k) h'.1.2
  | (k, v) :: rest, (k', v') :: rest', h1, h2, h => by
    simp only [Memory.wfFrom, Bool.and_eq_true, decide_eq_true_eq] at h1 h2
    have hk : k = k' := by
      rcases Nat.lt_trichotomy k k' with hlt | heq | hlt
      · have := h k
        rw [Memory.read, if_pos rfl, Memory.read, if_neg (by omega),
          Memory.read_below h2.2 (by omega)] at this
        exact absurd this h1.1.2
      · exact heq
      · have := h k'
        rw [Memory.read, if_neg (by omega), Memory.read, if_pos rfl,
          Memory.read_below h1.2 (by omega)] at this
        exact absurd this.symm h2.1.2
    subst hk
    have hv : v = v' := by simpa [Memory.read] using h k
    subst hv
    have hrest : rest = rest' := by
      refine Memory.ext_from h1.2 h2.2 fun a => ?_
      by_cases ha : k = a
      · subst ha
        rw [Memory.read_below h1.2 (by omega), Memory.read_below h2.2 (by omega)]
      · simpa [Memory.read, ha] using h a
    rw [hrest]

/-- Canonical memories that read alike at every address are the same list. -/
theorem Memory.ext_read {n : Nat} {m m' : Memory} (h : m.wf n = true) (h' : m'.wf n = true)
    (hr : ∀ a, m.read a = m'.read a) : m = m' :=
  Memory.ext_from h h' hr

end Sys2Proof.Machine
end

