-- ==== Sys2Proof/Laws/State.lean ====
section
/-!
SUPPORT. For each named update of State, what every field is afterwards: no later proof unfolds a
record update.
-/

namespace Sys2Proof.Machine

/-! ### `State.setRd` -/

@[simp] theorem State.setRd_widths (s : State) (c : Cursor) : (s.setRd c).widths = s.widths := rfl
@[simp] theorem State.setRd_srcAddr (s : State) (c : Cursor) : (s.setRd c).srcAddr = s.srcAddr := rfl
@[simp] theorem State.setRd_srcLen (s : State) (c : Cursor) : (s.setRd c).srcLen = s.srcLen := rfl
@[simp] theorem State.setRd_dstAddr (s : State) (c : Cursor) : (s.setRd c).dstAddr = s.dstAddr := rfl
@[simp] theorem State.setRd_dstLen (s : State) (c : Cursor) : (s.setRd c).dstLen = s.dstLen := rfl
@[simp] theorem State.setRd_result (s : State) (c : Cursor) : (s.setRd c).result = s.result := rfl
@[simp] theorem State.setRd_statusOvf (s : State) (c : Cursor) : (s.setRd c).statusOvf = s.statusOvf := rfl
@[simp] theorem State.setRd_phase (s : State) (c : Cursor) : (s.setRd c).phase = s.phase := rfl
@[simp] theorem State.setRd_op (s : State) (c : Cursor) : (s.setRd c).op = s.op := rfl
@[simp] theorem State.setRd_rd (s : State) (c : Cursor) : (s.setRd c).rd = c := rfl
@[simp] theorem State.setRd_rbuf (s : State) (c : Cursor) : (s.setRd c).rbuf = s.rbuf := rfl
@[simp] theorem State.setRd_wr (s : State) (c : Cursor) : (s.setRd c).wr = s.wr := rfl
@[simp] theorem State.setRd_wacc (s : State) (c : Cursor) : (s.setRd c).wacc = s.wacc := rfl
@[simp] theorem State.setRd_pol (s : State) (c : Cursor) : (s.setRd c).pol = s.pol := rfl
@[simp] theorem State.setRd_cnt (s : State) (c : Cursor) : (s.setRd c).cnt = s.cnt := rfl
@[simp] theorem State.setRd_ovf (s : State) (c : Cursor) : (s.setRd c).ovf = s.ovf := rfl
@[simp] theorem State.setRd_mem (s : State) (c : Cursor) : (s.setRd c).mem = s.mem := rfl
@[simp] theorem State.setRd_windows (s : State) (c : Cursor) : (s.setRd c).windows = s.windows := rfl
@[simp] theorem State.setRd_written (s : State) (c : Cursor) : (s.setRd c).written = s.written := rfl
@[simp] theorem State.setRd_host (s : State) (c : Cursor) : (s.setRd c).host = s.host := rfl
@[simp] theorem State.setRd_hostData (s : State) (c : Cursor) : (s.setRd c).hostData = s.hostData := rfl
@[simp] theorem State.setRd_bus (s : State) (c : Cursor) : (s.setRd c).bus = s.bus := rfl
@[simp] theorem State.setRd_draws (s : State) (c : Cursor) : (s.setRd c).draws = s.draws := rfl

/-! ### `State.loadRbuf` -/

@[simp] theorem State.loadRbuf_widths (s : State) (a : Nat) : (s.loadRbuf a).widths = s.widths := rfl
@[simp] theorem State.loadRbuf_srcAddr (s : State) (a : Nat) : (s.loadRbuf a).srcAddr = s.srcAddr := rfl
@[simp] theorem State.loadRbuf_srcLen (s : State) (a : Nat) : (s.loadRbuf a).srcLen = s.srcLen := rfl
@[simp] theorem State.loadRbuf_dstAddr (s : State) (a : Nat) : (s.loadRbuf a).dstAddr = s.dstAddr := rfl
@[simp] theorem State.loadRbuf_dstLen (s : State) (a : Nat) : (s.loadRbuf a).dstLen = s.dstLen := rfl
@[simp] theorem State.loadRbuf_result (s : State) (a : Nat) : (s.loadRbuf a).result = s.result := rfl
@[simp] theorem State.loadRbuf_statusOvf (s : State) (a : Nat) : (s.loadRbuf a).statusOvf = s.statusOvf := rfl
@[simp] theorem State.loadRbuf_phase (s : State) (a : Nat) : (s.loadRbuf a).phase = s.phase := rfl
@[simp] theorem State.loadRbuf_op (s : State) (a : Nat) : (s.loadRbuf a).op = s.op := rfl
@[simp] theorem State.loadRbuf_rd (s : State) (a : Nat) : (s.loadRbuf a).rd = s.rd := rfl
@[simp] theorem State.loadRbuf_rbuf (s : State) (a : Nat) : (s.loadRbuf a).rbuf = s.mem.read a := rfl
@[simp] theorem State.loadRbuf_wr (s : State) (a : Nat) : (s.loadRbuf a).wr = s.wr := rfl
@[simp] theorem State.loadRbuf_wacc (s : State) (a : Nat) : (s.loadRbuf a).wacc = s.wacc := rfl
@[simp] theorem State.loadRbuf_pol (s : State) (a : Nat) : (s.loadRbuf a).pol = s.pol := rfl
@[simp] theorem State.loadRbuf_cnt (s : State) (a : Nat) : (s.loadRbuf a).cnt = s.cnt := rfl
@[simp] theorem State.loadRbuf_ovf (s : State) (a : Nat) : (s.loadRbuf a).ovf = s.ovf := rfl
@[simp] theorem State.loadRbuf_mem (s : State) (a : Nat) : (s.loadRbuf a).mem = s.mem := rfl
@[simp] theorem State.loadRbuf_windows (s : State) (a : Nat) : (s.loadRbuf a).windows = s.windows := rfl
@[simp] theorem State.loadRbuf_written (s : State) (a : Nat) : (s.loadRbuf a).written = s.written := rfl
@[simp] theorem State.loadRbuf_host (s : State) (a : Nat) : (s.loadRbuf a).host = s.host := rfl
@[simp] theorem State.loadRbuf_hostData (s : State) (a : Nat) : (s.loadRbuf a).hostData = s.hostData := rfl
@[simp] theorem State.loadRbuf_bus (s : State) (a : Nat) : (s.loadRbuf a).bus = .read a :: s.bus := rfl
@[simp] theorem State.loadRbuf_draws (s : State) (a : Nat) : (s.loadRbuf a).draws = s.draws := rfl

/-! ### `State.setWr` -/

@[simp] theorem State.setWr_widths (s : State) (c : Cursor) (w : Byte) : (s.setWr c w).widths = s.widths := rfl
@[simp] theorem State.setWr_srcAddr (s : State) (c : Cursor) (w : Byte) : (s.setWr c w).srcAddr = s.srcAddr := rfl
@[simp] theorem State.setWr_srcLen (s : State) (c : Cursor) (w : Byte) : (s.setWr c w).srcLen = s.srcLen := rfl
@[simp] theorem State.setWr_dstAddr (s : State) (c : Cursor) (w : Byte) : (s.setWr c w).dstAddr = s.dstAddr := rfl
@[simp] theorem State.setWr_dstLen (s : State) (c : Cursor) (w : Byte) : (s.setWr c w).dstLen = s.dstLen := rfl
@[simp] theorem State.setWr_result (s : State) (c : Cursor) (w : Byte) : (s.setWr c w).result = s.result := rfl
@[simp] theorem State.setWr_statusOvf (s : State) (c : Cursor) (w : Byte) : (s.setWr c w).statusOvf = s.statusOvf := rfl
@[simp] theorem State.setWr_phase (s : State) (c : Cursor) (w : Byte) : (s.setWr c w).phase = s.phase := rfl
@[simp] theorem State.setWr_op (s : State) (c : Cursor) (w : Byte) : (s.setWr c w).op = s.op := rfl
@[simp] theorem State.setWr_rd (s : State) (c : Cursor) (w : Byte) : (s.setWr c w).rd = s.rd := rfl
@[simp] theorem State.setWr_rbuf (s : State) (c : Cursor) (w : Byte) : (s.setWr c w).rbuf = s.rbuf := rfl
@[simp] theorem State.setWr_wr (s : State) (c : Cursor) (w : Byte) : (s.setWr c w).wr = c := rfl
@[simp] theorem State.setWr_wacc (s : State) (c : Cursor) (w : Byte) : (s.setWr c w).wacc = w := rfl
@[simp] theorem State.setWr_pol (s : State) (c : Cursor) (w : Byte) : (s.setWr c w).pol = s.pol := rfl
@[simp] theorem State.setWr_cnt (s : State) (c : Cursor) (w : Byte) : (s.setWr c w).cnt = s.cnt := rfl
@[simp] theorem State.setWr_ovf (s : State) (c : Cursor) (w : Byte) : (s.setWr c w).ovf = s.ovf := rfl
@[simp] theorem State.setWr_mem (s : State) (c : Cursor) (w : Byte) : (s.setWr c w).mem = s.mem := rfl
@[simp] theorem State.setWr_windows (s : State) (c : Cursor) (w : Byte) : (s.setWr c w).windows = s.windows := rfl
@[simp] theorem State.setWr_written (s : State) (c : Cursor) (w : Byte) : (s.setWr c w).written = s.written := rfl
@[simp] theorem State.setWr_host (s : State) (c : Cursor) (w : Byte) : (s.setWr c w).host = s.host := rfl
@[simp] theorem State.setWr_hostData (s : State) (c : Cursor) (w : Byte) : (s.setWr c w).hostData = s.hostData := rfl
@[simp] theorem State.setWr_bus (s : State) (c : Cursor) (w : Byte) : (s.setWr c w).bus = s.bus := rfl
@[simp] theorem State.setWr_draws (s : State) (c : Cursor) (w : Byte) : (s.setWr c w).draws = s.draws := rfl

/-! ### `State.storeByte` -/

@[simp] theorem State.storeByte_widths (s : State) (a : Nat) (v : Byte) : (s.storeByte a v).widths = s.widths := rfl
@[simp] theorem State.storeByte_srcAddr (s : State) (a : Nat) (v : Byte) : (s.storeByte a v).srcAddr = s.srcAddr := rfl
@[simp] theorem State.storeByte_srcLen (s : State) (a : Nat) (v : Byte) : (s.storeByte a v).srcLen = s.srcLen := rfl
@[simp] theorem State.storeByte_dstAddr (s : State) (a : Nat) (v : Byte) : (s.storeByte a v).dstAddr = s.dstAddr := rfl
@[simp] theorem State.storeByte_dstLen (s : State) (a : Nat) (v : Byte) : (s.storeByte a v).dstLen = s.dstLen := rfl
@[simp] theorem State.storeByte_result (s : State) (a : Nat) (v : Byte) : (s.storeByte a v).result = s.result := rfl
@[simp] theorem State.storeByte_statusOvf (s : State) (a : Nat) (v : Byte) : (s.storeByte a v).statusOvf = s.statusOvf := rfl
@[simp] theorem State.storeByte_phase (s : State) (a : Nat) (v : Byte) : (s.storeByte a v).phase = s.phase := rfl
@[simp] theorem State.storeByte_op (s : State) (a : Nat) (v : Byte) : (s.storeByte a v).op = s.op := rfl
@[simp] theorem State.storeByte_rd (s : State) (a : Nat) (v : Byte) : (s.storeByte a v).rd = s.rd := rfl
@[simp] theorem State.storeByte_rbuf (s : State) (a : Nat) (v : Byte) : (s.storeByte a v).rbuf = s.rbuf := rfl
@[simp] theorem State.storeByte_wr (s : State) (a : Nat) (v : Byte) : (s.storeByte a v).wr = s.wr := rfl
@[simp] theorem State.storeByte_wacc (s : State) (a : Nat) (v : Byte) : (s.storeByte a v).wacc = s.wacc := rfl
@[simp] theorem State.storeByte_pol (s : State) (a : Nat) (v : Byte) : (s.storeByte a v).pol = s.pol := rfl
@[simp] theorem State.storeByte_cnt (s : State) (a : Nat) (v : Byte) : (s.storeByte a v).cnt = s.cnt := rfl
@[simp] theorem State.storeByte_ovf (s : State) (a : Nat) (v : Byte) : (s.storeByte a v).ovf = s.ovf := rfl
@[simp] theorem State.storeByte_mem (s : State) (a : Nat) (v : Byte) : (s.storeByte a v).mem = s.mem.write a v := rfl
@[simp] theorem State.storeByte_windows (s : State) (a : Nat) (v : Byte) : (s.storeByte a v).windows = s.windows := rfl
@[simp] theorem State.storeByte_written (s : State) (a : Nat) (v : Byte) : (s.storeByte a v).written = s.written := rfl
@[simp] theorem State.storeByte_host (s : State) (a : Nat) (v : Byte) : (s.storeByte a v).host = s.host := rfl
@[simp] theorem State.storeByte_hostData (s : State) (a : Nat) (v : Byte) : (s.storeByte a v).hostData = s.hostData := rfl
@[simp] theorem State.storeByte_bus (s : State) (a : Nat) (v : Byte) : (s.storeByte a v).bus = .write a v :: s.bus := rfl
@[simp] theorem State.storeByte_draws (s : State) (a : Nat) (v : Byte) : (s.storeByte a v).draws = s.draws := rfl

/-! ### `State.setPol` -/

@[simp] theorem State.setPol_widths (s : State) (p : Bool) : (s.setPol p).widths = s.widths := rfl
@[simp] theorem State.setPol_srcAddr (s : State) (p : Bool) : (s.setPol p).srcAddr = s.srcAddr := rfl
@[simp] theorem State.setPol_srcLen (s : State) (p : Bool) : (s.setPol p).srcLen = s.srcLen := rfl
@[simp] theorem State.setPol_dstAddr (s : State) (p : Bool) : (s.setPol p).dstAddr = s.dstAddr := rfl
@[simp] theorem State.setPol_dstLen (s : State) (p : Bool) : (s.setPol p).dstLen = s.dstLen := rfl
@[simp] theorem State.setPol_result (s : State) (p : Bool) : (s.setPol p).result = s.result := rfl
@[simp] theorem State.setPol_statusOvf (s : State) (p : Bool) : (s.setPol p).statusOvf = s.statusOvf := rfl
@[simp] theorem State.setPol_phase (s : State) (p : Bool) : (s.setPol p).phase = s.phase := rfl
@[simp] theorem State.setPol_op (s : State) (p : Bool) : (s.setPol p).op = s.op := rfl
@[simp] theorem State.setPol_rd (s : State) (p : Bool) : (s.setPol p).rd = s.rd := rfl
@[simp] theorem State.setPol_rbuf (s : State) (p : Bool) : (s.setPol p).rbuf = s.rbuf := rfl
@[simp] theorem State.setPol_wr (s : State) (p : Bool) : (s.setPol p).wr = s.wr := rfl
@[simp] theorem State.setPol_wacc (s : State) (p : Bool) : (s.setPol p).wacc = s.wacc := rfl
@[simp] theorem State.setPol_pol (s : State) (p : Bool) : (s.setPol p).pol = p := rfl
@[simp] theorem State.setPol_cnt (s : State) (p : Bool) : (s.setPol p).cnt = s.cnt := rfl
@[simp] theorem State.setPol_ovf (s : State) (p : Bool) : (s.setPol p).ovf = s.ovf := rfl
@[simp] theorem State.setPol_mem (s : State) (p : Bool) : (s.setPol p).mem = s.mem := rfl
@[simp] theorem State.setPol_windows (s : State) (p : Bool) : (s.setPol p).windows = s.windows := rfl
@[simp] theorem State.setPol_written (s : State) (p : Bool) : (s.setPol p).written = s.written := rfl
@[simp] theorem State.setPol_host (s : State) (p : Bool) : (s.setPol p).host = s.host := rfl
@[simp] theorem State.setPol_hostData (s : State) (p : Bool) : (s.setPol p).hostData = s.hostData := rfl
@[simp] theorem State.setPol_bus (s : State) (p : Bool) : (s.setPol p).bus = s.bus := rfl
@[simp] theorem State.setPol_draws (s : State) (p : Bool) : (s.setPol p).draws = s.draws := rfl

/-! ### `State.flipPol` -/

@[simp] theorem State.flipPol_widths (s : State) : s.flipPol.widths = s.widths := rfl
@[simp] theorem State.flipPol_srcAddr (s : State) : s.flipPol.srcAddr = s.srcAddr := rfl
@[simp] theorem State.flipPol_srcLen (s : State) : s.flipPol.srcLen = s.srcLen := rfl
@[simp] theorem State.flipPol_dstAddr (s : State) : s.flipPol.dstAddr = s.dstAddr := rfl
@[simp] theorem State.flipPol_dstLen (s : State) : s.flipPol.dstLen = s.dstLen := rfl
@[simp] theorem State.flipPol_result (s : State) : s.flipPol.result = s.result := rfl
@[simp] theorem State.flipPol_statusOvf (s : State) : s.flipPol.statusOvf = s.statusOvf := rfl
@[simp] theorem State.flipPol_phase (s : State) : s.flipPol.phase = s.phase := rfl
@[simp] theorem State.flipPol_op (s : State) : s.flipPol.op = s.op := rfl
@[simp] theorem State.flipPol_rd (s : State) : s.flipPol.rd = s.rd := rfl
@[simp] theorem State.flipPol_rbuf (s : State) : s.flipPol.rbuf = s.rbuf := rfl
@[simp] theorem State.flipPol_wr (s : State) : s.flipPol.wr = s.wr := rfl
@[simp] theorem State.flipPol_wacc (s : State) : s.flipPol.wacc = s.wacc := rfl
@[simp] theorem State.flipPol_pol (s : State) : s.flipPol.pol = !s.pol := rfl
@[simp] theorem State.flipPol_cnt (s : State) : s.flipPol.cnt = s.cnt := rfl
@[simp] theorem State.flipPol_ovf (s : State) : s.flipPol.ovf = s.ovf := rfl
@[simp] theorem State.flipPol_mem (s : State) : s.flipPol.mem = s.mem := rfl
@[simp] theorem State.flipPol_windows (s : State) : s.flipPol.windows = s.windows := rfl
@[simp] theorem State.flipPol_written (s : State) : s.flipPol.written = s.written := rfl
@[simp] theorem State.flipPol_host (s : State) : s.flipPol.host = s.host := rfl
@[simp] theorem State.flipPol_hostData (s : State) : s.flipPol.hostData = s.hostData := rfl
@[simp] theorem State.flipPol_bus (s : State) : s.flipPol.bus = s.bus := rfl
@[simp] theorem State.flipPol_draws (s : State) : s.flipPol.draws = s.draws := rfl

/-! ### `State.setCnt` -/

@[simp] theorem State.setCnt_widths (s : State) (c : BitVec 3) : (s.setCnt c).widths = s.widths := rfl
@[simp] theorem State.setCnt_srcAddr (s : State) (c : BitVec 3) : (s.setCnt c).srcAddr = s.srcAddr := rfl
@[simp] theorem State.setCnt_srcLen (s : State) (c : BitVec 3) : (s.setCnt c).srcLen = s.srcLen := rfl
@[simp] theorem State.setCnt_dstAddr (s : State) (c : BitVec 3) : (s.setCnt c).dstAddr = s.dstAddr := rfl
@[simp] theorem State.setCnt_dstLen (s : State) (c : BitVec 3) : (s.setCnt c).dstLen = s.dstLen := rfl
@[simp] theorem State.setCnt_result (s : State) (c : BitVec 3) : (s.setCnt c).result = s.result := rfl
@[simp] theorem State.setCnt_statusOvf (s : State) (c : BitVec 3) : (s.setCnt c).statusOvf = s.statusOvf := rfl
@[simp] theorem State.setCnt_phase (s : State) (c : BitVec 3) : (s.setCnt c).phase = s.phase := rfl
@[simp] theorem State.setCnt_op (s : State) (c : BitVec 3) : (s.setCnt c).op = s.op := rfl
@[simp] theorem State.setCnt_rd (s : State) (c : BitVec 3) : (s.setCnt c).rd = s.rd := rfl
@[simp] theorem State.setCnt_rbuf (s : State) (c : BitVec 3) : (s.setCnt c).rbuf = s.rbuf := rfl
@[simp] theorem State.setCnt_wr (s : State) (c : BitVec 3) : (s.setCnt c).wr = s.wr := rfl
@[simp] theorem State.setCnt_wacc (s : State) (c : BitVec 3) : (s.setCnt c).wacc = s.wacc := rfl
@[simp] theorem State.setCnt_pol (s : State) (c : BitVec 3) : (s.setCnt c).pol = s.pol := rfl
@[simp] theorem State.setCnt_cnt (s : State) (c : BitVec 3) : (s.setCnt c).cnt = c := rfl
@[simp] theorem State.setCnt_ovf (s : State) (c : BitVec 3) : (s.setCnt c).ovf = s.ovf := rfl
@[simp] theorem State.setCnt_mem (s : State) (c : BitVec 3) : (s.setCnt c).mem = s.mem := rfl
@[simp] theorem State.setCnt_windows (s : State) (c : BitVec 3) : (s.setCnt c).windows = s.windows := rfl
@[simp] theorem State.setCnt_written (s : State) (c : BitVec 3) : (s.setCnt c).written = s.written := rfl
@[simp] theorem State.setCnt_host (s : State) (c : BitVec 3) : (s.setCnt c).host = s.host := rfl
@[simp] theorem State.setCnt_hostData (s : State) (c : BitVec 3) : (s.setCnt c).hostData = s.hostData := rfl
@[simp] theorem State.setCnt_bus (s : State) (c : BitVec 3) : (s.setCnt c).bus = s.bus := rfl
@[simp] theorem State.setCnt_draws (s : State) (c : BitVec 3) : (s.setCnt c).draws = s.draws := rfl

/-! ### `State.setHost` -/

@[simp] theorem State.setHost_widths (s : State) (l : List HostAction) : (s.setHost l).widths = s.widths := rfl
@[simp] theorem State.setHost_srcAddr (s : State) (l : List HostAction) : (s.setHost l).srcAddr = s.srcAddr := rfl
@[simp] theorem State.setHost_srcLen (s : State) (l : List HostAction) : (s.setHost l).srcLen = s.srcLen := rfl
@[simp] theorem State.setHost_dstAddr (s : State) (l : List HostAction) : (s.setHost l).dstAddr = s.dstAddr := rfl
@[simp] theorem State.setHost_dstLen (s : State) (l : List HostAction) : (s.setHost l).dstLen = s.dstLen := rfl
@[simp] theorem State.setHost_result (s : State) (l : List HostAction) : (s.setHost l).result = s.result := rfl
@[simp] theorem State.setHost_statusOvf (s : State) (l : List HostAction) : (s.setHost l).statusOvf = s.statusOvf := rfl
@[simp] theorem State.setHost_phase (s : State) (l : List HostAction) : (s.setHost l).phase = s.phase := rfl
@[simp] theorem State.setHost_op (s : State) (l : List HostAction) : (s.setHost l).op = s.op := rfl
@[simp] theorem State.setHost_rd (s : State) (l : List HostAction) : (s.setHost l).rd = s.rd := rfl
@[simp] theorem State.setHost_rbuf (s : State) (l : List HostAction) : (s.setHost l).rbuf = s.rbuf := rfl
@[simp] theorem State.setHost_wr (s : State) (l : List HostAction) : (s.setHost l).wr = s.wr := rfl
@[simp] theorem State.setHost_wacc (s : State) (l : List HostAction) : (s.setHost l).wacc = s.wacc := rfl
@[simp] theorem State.setHost_pol (s : State) (l : List HostAction) : (s.setHost l).pol = s.pol := rfl
@[simp] theorem State.setHost_cnt (s : State) (l : List HostAction) : (s.setHost l).cnt = s.cnt := rfl
@[simp] theorem State.setHost_ovf (s : State) (l : List HostAction) : (s.setHost l).ovf = s.ovf := rfl
@[simp] theorem State.setHost_mem (s : State) (l : List HostAction) : (s.setHost l).mem = s.mem := rfl
@[simp] theorem State.setHost_windows (s : State) (l : List HostAction) : (s.setHost l).windows = s.windows := rfl
@[simp] theorem State.setHost_written (s : State) (l : List HostAction) : (s.setHost l).written = s.written := rfl
@[simp] theorem State.setHost_host (s : State) (l : List HostAction) : (s.setHost l).host = l := rfl
@[simp] theorem State.setHost_hostData (s : State) (l : List HostAction) : (s.setHost l).hostData = s.hostData := rfl
@[simp] theorem State.setHost_bus (s : State) (l : List HostAction) : (s.setHost l).bus = s.bus := rfl
@[simp] theorem State.setHost_draws (s : State) (l : List HostAction) : (s.setHost l).draws = s.draws := rfl

/-! ### `State.setHostData` -/

@[simp] theorem State.setHostData_widths (s : State) (v : Nat) : (s.setHostData v).widths = s.widths := rfl
@[simp] theorem State.setHostData_srcAddr (s : State) (v : Nat) : (s.setHostData v).srcAddr = s.srcAddr := rfl
@[simp] theorem State.setHostData_srcLen (s : State) (v : Nat) : (s.setHostData v).srcLen = s.srcLen := rfl
@[simp] theorem State.setHostData_dstAddr (s : State) (v : Nat) : (s.setHostData v).dstAddr = s.dstAddr := rfl
@[simp] theorem State.setHostData_dstLen (s : State) (v : Nat) : (s.setHostData v).dstLen = s.dstLen := rfl
@[simp] theorem State.setHostData_result (s : State) (v : Nat) : (s.setHostData v).result = s.result := rfl
@[simp] theorem State.setHostData_statusOvf (s : State) (v : Nat) : (s.setHostData v).statusOvf = s.statusOvf := rfl
@[simp] theorem State.setHostData_phase (s : State) (v : Nat) : (s.setHostData v).phase = s.phase := rfl
@[simp] theorem State.setHostData_op (s : State) (v : Nat) : (s.setHostData v).op = s.op := rfl
@[simp] theorem State.setHostData_rd (s : State) (v : Nat) : (s.setHostData v).rd = s.rd := rfl
@[simp] theorem State.setHostData_rbuf (s : State) (v : Nat) : (s.setHostData v).rbuf = s.rbuf := rfl
@[simp] theorem State.setHostData_wr (s : State) (v : Nat) : (s.setHostData v).wr = s.wr := rfl
@[simp] theorem State.setHostData_wacc (s : State) (v : Nat) : (s.setHostData v).wacc = s.wacc := rfl
@[simp] theorem State.setHostData_pol (s : State) (v : Nat) : (s.setHostData v).pol = s.pol := rfl
@[simp] theorem State.setHostData_cnt (s : State) (v : Nat) : (s.setHostData v).cnt = s.cnt := rfl
@[simp] theorem State.setHostData_ovf (s : State) (v : Nat) : (s.setHostData v).ovf = s.ovf := rfl
@[simp] theorem State.setHostData_mem (s : State) (v : Nat) : (s.setHostData v).mem = s.mem := rfl
@[simp] theorem State.setHostData_windows (s : State) (v : Nat) : (s.setHostData v).windows = s.windows := rfl
@[simp] theorem State.setHostData_written (s : State) (v : Nat) : (s.setHostData v).written = s.written := rfl
@[simp] theorem State.setHostData_host (s : State) (v : Nat) : (s.setHostData v).host = s.host := rfl
@[simp] theorem State.setHostData_hostData (s : State) (v : Nat) : (s.setHostData v).hostData = v := rfl
@[simp] theorem State.setHostData_bus (s : State) (v : Nat) : (s.setHostData v).bus = s.bus := rfl
@[simp] theorem State.setHostData_draws (s : State) (v : Nat) : (s.setHostData v).draws = s.draws := rfl

/-! ### `State.cursorInit` -/

@[simp] theorem State.cursorInit_widths (s : State) : s.cursorInit.widths = s.widths := rfl
@[simp] theorem State.cursorInit_srcAddr (s : State) : s.cursorInit.srcAddr = s.srcAddr := rfl
@[simp] theorem State.cursorInit_srcLen (s : State) : s.cursorInit.srcLen = s.srcLen := rfl
@[simp] theorem State.cursorInit_dstAddr (s : State) : s.cursorInit.dstAddr = s.dstAddr := rfl
@[simp] theorem State.cursorInit_dstLen (s : State) : s.cursorInit.dstLen = s.dstLen := rfl
@[simp] theorem State.cursorInit_result (s : State) : s.cursorInit.result = s.result := rfl
@[simp] theorem State.cursorInit_statusOvf (s : State) : s.cursorInit.statusOvf = s.statusOvf := rfl
@[simp] theorem State.cursorInit_phase (s : State) : s.cursorInit.phase = s.phase := rfl
@[simp] theorem State.cursorInit_op (s : State) : s.cursorInit.op = s.op := rfl
@[simp] theorem State.cursorInit_rd (s : State) : s.cursorInit.rd = Cursor.start := rfl
@[simp] theorem State.cursorInit_rbuf (s : State) : s.cursorInit.rbuf = s.rbuf := rfl
@[simp] theorem State.cursorInit_wr (s : State) : s.cursorInit.wr = Cursor.start := rfl
@[simp] theorem State.cursorInit_wacc (s : State) : s.cursorInit.wacc = 0 := rfl
@[simp] theorem State.cursorInit_pol (s : State) : s.cursorInit.pol = s.pol := rfl
@[simp] theorem State.cursorInit_cnt (s : State) : s.cursorInit.cnt = s.cnt := rfl
@[simp] theorem State.cursorInit_ovf (s : State) : s.cursorInit.ovf = false := rfl
@[simp] theorem State.cursorInit_mem (s : State) : s.cursorInit.mem = s.mem := rfl
@[simp] theorem State.cursorInit_windows (s : State) : s.cursorInit.windows = s.windows := rfl
@[simp] theorem State.cursorInit_written (s : State) : s.cursorInit.written = s.written := rfl
@[simp] theorem State.cursorInit_host (s : State) : s.cursorInit.host = s.host := rfl
@[simp] theorem State.cursorInit_hostData (s : State) : s.cursorInit.hostData = s.hostData := rfl
@[simp] theorem State.cursorInit_bus (s : State) : s.cursorInit.bus = s.bus := rfl
@[simp] theorem State.cursorInit_draws (s : State) : s.cursorInit.draws = s.draws := rfl

/-! ### `State.complete` -/

@[simp] theorem State.complete_widths (s : State) : s.complete.widths = s.widths := rfl
@[simp] theorem State.complete_srcAddr (s : State) : s.complete.srcAddr = s.srcAddr := rfl
@[simp] theorem State.complete_srcLen (s : State) : s.complete.srcLen = s.srcLen := rfl
@[simp] theorem State.complete_dstAddr (s : State) : s.complete.dstAddr = s.dstAddr := rfl
@[simp] theorem State.complete_dstLen (s : State) : s.complete.dstLen = s.dstLen := rfl
@[simp] theorem State.complete_result (s : State) : s.complete.result = s.wr.byte := rfl
@[simp] theorem State.complete_statusOvf (s : State) : s.complete.statusOvf = false := rfl
@[simp] theorem State.complete_phase (s : State) : s.complete.phase = .done := rfl
@[simp] theorem State.complete_op (s : State) : s.complete.op = s.op := rfl
@[simp] theorem State.complete_rd (s : State) : s.complete.rd = s.rd := rfl
@[simp] theorem State.complete_rbuf (s : State) : s.complete.rbuf = s.rbuf := rfl
@[simp] theorem State.complete_wr (s : State) : s.complete.wr = s.wr := rfl
@[simp] theorem State.complete_wacc (s : State) : s.complete.wacc = s.wacc := rfl
@[simp] theorem State.complete_pol (s : State) : s.complete.pol = s.pol := rfl
@[simp] theorem State.complete_cnt (s : State) : s.complete.cnt = s.cnt := rfl
@[simp] theorem State.complete_ovf (s : State) : s.complete.ovf = s.ovf := rfl
@[simp] theorem State.complete_mem (s : State) : s.complete.mem = s.mem := rfl
@[simp] theorem State.complete_windows (s : State) : s.complete.windows = s.windows := rfl
@[simp] theorem State.complete_written (s : State) : s.complete.written = s.written := rfl
@[simp] theorem State.complete_host (s : State) : s.complete.host = s.host := rfl
@[simp] theorem State.complete_hostData (s : State) : s.complete.hostData = s.hostData := rfl
@[simp] theorem State.complete_bus (s : State) : s.complete.bus = s.bus := rfl
@[simp] theorem State.complete_draws (s : State) : s.complete.draws = s.draws := rfl

/-! ### `State.takeOverflow` -/

@[simp] theorem State.takeOverflow_widths (s : State) : s.takeOverflow.widths = s.widths := rfl
@[simp] theorem State.takeOverflow_srcAddr (s : State) : s.takeOverflow.srcAddr = s.srcAddr := rfl
@[simp] theorem State.takeOverflow_srcLen (s : State) : s.takeOverflow.srcLen = s.srcLen := rfl
@[simp] theorem State.takeOverflow_dstAddr (s : State) : s.takeOverflow.dstAddr = s.dstAddr := rfl
@[simp] theorem State.takeOverflow_dstLen (s : State) : s.takeOverflow.dstLen = s.dstLen := rfl
@[simp] theorem State.takeOverflow_result (s : State) : s.takeOverflow.result = s.widths.minusOne := rfl
@[simp] theorem State.takeOverflow_statusOvf (s : State) : s.takeOverflow.statusOvf = true := rfl
@[simp] theorem State.takeOverflow_phase (s : State) : s.takeOverflow.phase = .done := rfl
@[simp] theorem State.takeOverflow_op (s : State) : s.takeOverflow.op = s.op := rfl
@[simp] theorem State.takeOverflow_rd (s : State) : s.takeOverflow.rd = s.rd := rfl
@[simp] theorem State.takeOverflow_rbuf (s : State) : s.takeOverflow.rbuf = s.rbuf := rfl
@[simp] theorem State.takeOverflow_wr (s : State) : s.takeOverflow.wr = s.wr := rfl
@[simp] theorem State.takeOverflow_wacc (s : State) : s.takeOverflow.wacc = s.wacc := rfl
@[simp] theorem State.takeOverflow_pol (s : State) : s.takeOverflow.pol = s.pol := rfl
@[simp] theorem State.takeOverflow_cnt (s : State) : s.takeOverflow.cnt = s.cnt := rfl
@[simp] theorem State.takeOverflow_ovf (s : State) : s.takeOverflow.ovf = true := rfl
@[simp] theorem State.takeOverflow_mem (s : State) : s.takeOverflow.mem = s.mem := rfl
@[simp] theorem State.takeOverflow_windows (s : State) : s.takeOverflow.windows = s.windows := rfl
@[simp] theorem State.takeOverflow_written (s : State) : s.takeOverflow.written = s.written := rfl
@[simp] theorem State.takeOverflow_host (s : State) : s.takeOverflow.host = s.host := rfl
@[simp] theorem State.takeOverflow_hostData (s : State) : s.takeOverflow.hostData = s.hostData := rfl
@[simp] theorem State.takeOverflow_bus (s : State) : s.takeOverflow.bus = s.bus := rfl
@[simp] theorem State.takeOverflow_draws (s : State) : s.takeOverflow.draws = s.draws := rfl

/-! ### `State.acceptStart` -/

@[simp] theorem State.acceptStart_widths (s : State) (o : Op) : (s.acceptStart o).widths = s.widths := rfl
@[simp] theorem State.acceptStart_srcAddr (s : State) (o : Op) : (s.acceptStart o).srcAddr = s.srcAddr := rfl
@[simp] theorem State.acceptStart_srcLen (s : State) (o : Op) : (s.acceptStart o).srcLen = s.srcLen := rfl
@[simp] theorem State.acceptStart_dstAddr (s : State) (o : Op) : (s.acceptStart o).dstAddr = s.dstAddr := rfl
@[simp] theorem State.acceptStart_dstLen (s : State) (o : Op) : (s.acceptStart o).dstLen = s.dstLen := rfl
@[simp] theorem State.acceptStart_result (s : State) (o : Op) : (s.acceptStart o).result = s.result := rfl
@[simp] theorem State.acceptStart_statusOvf (s : State) (o : Op) : (s.acceptStart o).statusOvf = false := rfl
@[simp] theorem State.acceptStart_phase (s : State) (o : Op) : (s.acceptStart o).phase = s.phase := rfl
@[simp] theorem State.acceptStart_op (s : State) (o : Op) : (s.acceptStart o).op = o := rfl
@[simp] theorem State.acceptStart_rd (s : State) (o : Op) : (s.acceptStart o).rd = s.rd := rfl
@[simp] theorem State.acceptStart_rbuf (s : State) (o : Op) : (s.acceptStart o).rbuf = s.rbuf := rfl
@[simp] theorem State.acceptStart_wr (s : State) (o : Op) : (s.acceptStart o).wr = s.wr := rfl
@[simp] theorem State.acceptStart_wacc (s : State) (o : Op) : (s.acceptStart o).wacc = s.wacc := rfl
@[simp] theorem State.acceptStart_pol (s : State) (o : Op) : (s.acceptStart o).pol = s.pol := rfl
@[simp] theorem State.acceptStart_cnt (s : State) (o : Op) : (s.acceptStart o).cnt = s.cnt := rfl
@[simp] theorem State.acceptStart_ovf (s : State) (o : Op) : (s.acceptStart o).ovf = s.ovf := rfl
@[simp] theorem State.acceptStart_mem (s : State) (o : Op) : (s.acceptStart o).mem = s.mem := rfl
@[simp] theorem State.acceptStart_windows (s : State) (o : Op) : (s.acceptStart o).windows = s.windows := rfl
@[simp] theorem State.acceptStart_written (s : State) (o : Op) : (s.acceptStart o).written = s.written := rfl
@[simp] theorem State.acceptStart_host (s : State) (o : Op) : (s.acceptStart o).host = s.host := rfl
@[simp] theorem State.acceptStart_hostData (s : State) (o : Op) : (s.acceptStart o).hostData = s.hostData := rfl
@[simp] theorem State.acceptStart_bus (s : State) (o : Op) : (s.acceptStart o).bus = [] := rfl
@[simp] theorem State.acceptStart_draws (s : State) (o : Op) : (s.acceptStart o).draws = s.draws := rfl

/-! ### `State.completeEmpty` -/

@[simp] theorem State.completeEmpty_widths (s : State) : s.completeEmpty.widths = s.widths := rfl
@[simp] theorem State.completeEmpty_srcAddr (s : State) : s.completeEmpty.srcAddr = s.srcAddr := rfl
@[simp] theorem State.completeEmpty_srcLen (s : State) : s.completeEmpty.srcLen = s.srcLen := rfl
@[simp] theorem State.completeEmpty_dstAddr (s : State) : s.completeEmpty.dstAddr = s.dstAddr := rfl
@[simp] theorem State.completeEmpty_dstLen (s : State) : s.completeEmpty.dstLen = s.dstLen := rfl
@[simp] theorem State.completeEmpty_result (s : State) : s.completeEmpty.result = 0 := rfl
@[simp] theorem State.completeEmpty_statusOvf (s : State) : s.completeEmpty.statusOvf = s.statusOvf := rfl
@[simp] theorem State.completeEmpty_phase (s : State) : s.completeEmpty.phase = .done := rfl
@[simp] theorem State.completeEmpty_op (s : State) : s.completeEmpty.op = s.op := rfl
@[simp] theorem State.completeEmpty_rd (s : State) : s.completeEmpty.rd = s.rd := rfl
@[simp] theorem State.completeEmpty_rbuf (s : State) : s.completeEmpty.rbuf = s.rbuf := rfl
@[simp] theorem State.completeEmpty_wr (s : State) : s.completeEmpty.wr = s.wr := rfl
@[simp] theorem State.completeEmpty_wacc (s : State) : s.completeEmpty.wacc = s.wacc := rfl
@[simp] theorem State.completeEmpty_pol (s : State) : s.completeEmpty.pol = s.pol := rfl
@[simp] theorem State.completeEmpty_cnt (s : State) : s.completeEmpty.cnt = s.cnt := rfl
@[simp] theorem State.completeEmpty_ovf (s : State) : s.completeEmpty.ovf = s.ovf := rfl
@[simp] theorem State.completeEmpty_mem (s : State) : s.completeEmpty.mem = s.mem := rfl
@[simp] theorem State.completeEmpty_windows (s : State) : s.completeEmpty.windows = s.windows := rfl
@[simp] theorem State.completeEmpty_written (s : State) : s.completeEmpty.written = s.written := rfl
@[simp] theorem State.completeEmpty_host (s : State) : s.completeEmpty.host = s.host := rfl
@[simp] theorem State.completeEmpty_hostData (s : State) : s.completeEmpty.hostData = s.hostData := rfl
@[simp] theorem State.completeEmpty_bus (s : State) : s.completeEmpty.bus = s.bus := rfl
@[simp] theorem State.completeEmpty_draws (s : State) : s.completeEmpty.draws = s.draws := rfl

/-! ### `State.startEncode` -/

@[simp] theorem State.startEncode_widths (s : State) : s.startEncode.widths = s.widths := rfl
@[simp] theorem State.startEncode_srcAddr (s : State) : s.startEncode.srcAddr = s.srcAddr := rfl
@[simp] theorem State.startEncode_srcLen (s : State) : s.startEncode.srcLen = s.srcLen := rfl
@[simp] theorem State.startEncode_dstAddr (s : State) : s.startEncode.dstAddr = s.dstAddr := rfl
@[simp] theorem State.startEncode_dstLen (s : State) : s.startEncode.dstLen = s.dstLen := rfl
@[simp] theorem State.startEncode_result (s : State) : s.startEncode.result = s.result := rfl
@[simp] theorem State.startEncode_statusOvf (s : State) : s.startEncode.statusOvf = s.statusOvf := rfl
@[simp] theorem State.startEncode_phase (s : State) : s.startEncode.phase = .enc := rfl
@[simp] theorem State.startEncode_op (s : State) : s.startEncode.op = s.op := rfl
@[simp] theorem State.startEncode_rd (s : State) : s.startEncode.rd = Cursor.start := rfl
@[simp] theorem State.startEncode_rbuf (s : State) : s.startEncode.rbuf = s.rbuf := rfl
@[simp] theorem State.startEncode_wr (s : State) : s.startEncode.wr = Cursor.start := rfl
@[simp] theorem State.startEncode_wacc (s : State) : s.startEncode.wacc = 0 := rfl
@[simp] theorem State.startEncode_pol (s : State) : s.startEncode.pol = false := rfl
@[simp] theorem State.startEncode_cnt (s : State) : s.startEncode.cnt = 0 := rfl
@[simp] theorem State.startEncode_ovf (s : State) : s.startEncode.ovf = false := rfl
@[simp] theorem State.startEncode_mem (s : State) : s.startEncode.mem = s.mem := rfl
@[simp] theorem State.startEncode_windows (s : State) : s.startEncode.windows = s.windows := rfl
@[simp] theorem State.startEncode_written (s : State) : s.startEncode.written = s.written := rfl
@[simp] theorem State.startEncode_host (s : State) : s.startEncode.host = s.host := rfl
@[simp] theorem State.startEncode_hostData (s : State) : s.startEncode.hostData = s.hostData := rfl
@[simp] theorem State.startEncode_bus (s : State) : s.startEncode.bus = s.bus := rfl
@[simp] theorem State.startEncode_draws (s : State) : s.startEncode.draws = s.draws := rfl

/-! ### `State.startDecode` -/

@[simp] theorem State.startDecode_widths (s : State) : s.startDecode.widths = s.widths := rfl
@[simp] theorem State.startDecode_srcAddr (s : State) : s.startDecode.srcAddr = s.srcAddr := rfl
@[simp] theorem State.startDecode_srcLen (s : State) : s.startDecode.srcLen = s.srcLen := rfl
@[simp] theorem State.startDecode_dstAddr (s : State) : s.startDecode.dstAddr = s.dstAddr := rfl
@[simp] theorem State.startDecode_dstLen (s : State) : s.startDecode.dstLen = s.dstLen := rfl
@[simp] theorem State.startDecode_result (s : State) : s.startDecode.result = s.result := rfl
@[simp] theorem State.startDecode_statusOvf (s : State) : s.startDecode.statusOvf = s.statusOvf := rfl
@[simp] theorem State.startDecode_phase (s : State) : s.startDecode.phase = .dec := rfl
@[simp] theorem State.startDecode_op (s : State) : s.startDecode.op = s.op := rfl
@[simp] theorem State.startDecode_rd (s : State) : s.startDecode.rd = Cursor.start := rfl
@[simp] theorem State.startDecode_rbuf (s : State) : s.startDecode.rbuf = s.rbuf := rfl
@[simp] theorem State.startDecode_wr (s : State) : s.startDecode.wr = Cursor.start := rfl
@[simp] theorem State.startDecode_wacc (s : State) : s.startDecode.wacc = 0 := rfl
@[simp] theorem State.startDecode_pol (s : State) : s.startDecode.pol = false := rfl
@[simp] theorem State.startDecode_cnt (s : State) : s.startDecode.cnt = s.cnt := rfl
@[simp] theorem State.startDecode_ovf (s : State) : s.startDecode.ovf = false := rfl
@[simp] theorem State.startDecode_mem (s : State) : s.startDecode.mem = s.mem := rfl
@[simp] theorem State.startDecode_windows (s : State) : s.startDecode.windows = s.windows := rfl
@[simp] theorem State.startDecode_written (s : State) : s.startDecode.written = s.written := rfl
@[simp] theorem State.startDecode_host (s : State) : s.startDecode.host = s.host := rfl
@[simp] theorem State.startDecode_hostData (s : State) : s.startDecode.hostData = s.hostData := rfl
@[simp] theorem State.startDecode_bus (s : State) : s.startDecode.bus = s.bus := rfl
@[simp] theorem State.startDecode_draws (s : State) : s.startDecode.draws = s.draws := rfl

end Sys2Proof.Machine
end

