-- ==== Sys2Proof/Laws/Ops.lean ====
section
/-!
SUPPORT. One lemma for each shared operation that says everything it can do: the cursors, get_bit,
get_code, put_bit, a run of bits, put_code and flush.
-/

namespace Sys2Proof

/-! ## Widths -/

theorem Widths.addrSpace_pos (p : Widths) : 0 < p.addrSpace := Nat.two_pow_pos _

theorem Widths.lenSpace_pos (p : Widths) : 0 < p.lenSpace := Nat.two_pow_pos _

theorem Widths.narrowAddr_lt (p : Widths) (v : Nat) : p.narrowAddr v < p.addrSpace :=
  Nat.mod_lt _ p.addrSpace_pos

theorem Widths.narrowAddr_of_lt {p : Widths} {v : Nat} (h : v < p.addrSpace) : p.narrowAddr v = v :=
  Nat.mod_eq_of_lt h

theorem Widths.narrowLen_lt (p : Widths) (v : Nat) : p.narrowLen v < p.lenSpace :=
  Nat.mod_lt _ p.lenSpace_pos

theorem Widths.narrowLen_of_lt {p : Widths} {v : Nat} (h : v < p.lenSpace) : p.narrowLen v = v :=
  Nat.mod_eq_of_lt h

/-- A legal length has a successor of LW bits, and no top bit (`00_scope.md` R7). -/
theorem Widths.two_mul_maxLen_lt {p : Widths} (h : p.wellFormed = true) :
    2 * (p.maxLen + 1) = p.lenSpace := by
  unfold Widths.wellFormed at h
  rw [Bool.and_eq_true, decide_eq_true_eq, decide_eq_true_eq] at h
  have := Nat.two_pow_pos (p.lw - 1)
  unfold Widths.maxLen Widths.lenSpace
  rw [Nat.sub_add_cancel this, ← Nat.pow_succ']
  congr 1
  omega

/-- The sign bit of -1 in a register of LW bits (`10_state.md` R25, R27). -/
theorem Widths.testBit_minusOne {p : Widths} (h : p.wellFormed = true) :
    p.minusOne.testBit (p.lw - 1) = true := by
  unfold Widths.wellFormed at h
  rw [Bool.and_eq_true, decide_eq_true_eq, decide_eq_true_eq] at h
  unfold Widths.minusOne Widths.lenSpace
  rw [Nat.testBit_two_pow_sub_one, decide_eq_true_eq]
  omega

/-- The sign bit of a legal length or result (`00_scope.md` R7). -/
theorem Widths.testBit_of_le_maxLen {p : Widths} {v : Nat} (h : v ≤ p.maxLen) :
    v.testBit (p.lw - 1) = false := by
  have := Nat.two_pow_pos (p.lw - 1)
  unfold Widths.maxLen at h
  exact Nat.testBit_lt_two_pow (by omega)

/-- Different offsets below the size of the space give different addresses. -/
theorem Widths.narrowAddr_inj {p : Widths} {b i j : Nat} (hi : i < p.addrSpace) (hj : j < p.addrSpace)
    (h : p.narrowAddr (b + i) = p.narrowAddr (b + j)) : i = j := by
  have h' : b + i ≡ b + j [MOD p.addrSpace] := h
  exact Nat.ModEq.eq_of_lt_of_lt (Nat.ModEq.add_left_cancel' b h') hi hj

end Sys2Proof

namespace Sys2Proof.Machine

/-! ## Cursors -/

theorem Cursor.next_of_ne {p : Widths} {c : Cursor} (h : ¬c.bit = 7) : c.next p = ⟨c.byte, c.bit + 1⟩ := by
  unfold Cursor.next; rw [if_neg h]

theorem Cursor.next_of_eq {p : Widths} {c : Cursor} (h : c.bit = 7) :
    c.next p = ⟨p.narrowLen (c.byte + 1), 0⟩ := by
  unfold Cursor.next; rw [if_pos h]

theorem Cursor.next_pos {p : Widths} {c : Cursor} (h : c.byte + 1 < p.lenSpace) :
    (c.next p).pos = c.pos + 1 := by
  by_cases h7 : c.bit = 7
  · rw [Cursor.next_of_eq h7, Widths.narrowLen_of_lt h]
    unfold Cursor.pos
    rw [h7]
    simp only [show (0 : BitVec 3).toNat = 0 from rfl, show (7 : BitVec 3).toNat = 7 from rfl]
    omega
  · have h7' : c.bit.toNat ≠ 7 := fun h' => h7 (BitVec.eq_of_toNat_eq h')
    have hb : (c.bit + 1).toNat = c.bit.toNat + 1 := by bv_omega
    rw [Cursor.next_of_ne h7]
    unfold Cursor.pos
    simp only [hb]; omega

theorem Cursor.pos_div (c : Cursor) : c.pos / 8 = c.byte := by
  have := c.bit.isLt
  unfold Cursor.pos; omega

theorem Cursor.pos_mod (c : Cursor) : c.pos % 8 = c.bit.toNat := by
  have := c.bit.isLt
  unfold Cursor.pos; omega

/-- How many source bytes have been read when the read cursor is at `c`. -/
def Cursor.touched (c : Cursor) : Nat := c.byte + if c.bit = 0 then 0 else 1

/-! ## Placing one bit -/

theorem getLsbD_bitAt (b : Bool) (o : BitVec 3) (j : Nat) :
    (bitAt b o).getLsbD j = (b && decide (j = 7 - o.toNat)) := by
  rcases Nat.lt_or_ge j 8 with hj | hj
  · revert b o
    interval_cases j <;> decide
  · have := o.isLt
    rw [BitVec.getLsbD_of_ge _ _ hj]
    simp; omega

/-- The destination addresses of different indexes inside the space are different. -/
theorem State.dstByteAddr_inj (s : State) {i j : Nat} (hi : i < s.widths.addrSpace)
    (hj : j < s.widths.addrSpace) (h : s.dstByteAddr i = s.dstByteAddr j) : i = j :=
  Widths.narrowAddr_inj hi hj h

theorem State.dstByteAddr_lt (s : State) (i : Nat) : s.dstByteAddr i < s.widths.addrSpace :=
  Widths.narrowAddr_lt _ _

theorem State.dstPtr_eq (s : State) : s.dstPtr = s.dstByteAddr s.wr.byte := rfl

theorem State.srcPtr_eq (s : State) : s.srcPtr = s.srcByteAddr s.rd.byte := rfl

/-- An output bit whose byte has been written stands in memory. -/
theorem State.outBit_of_lt {s : State} {p : Nat} (h : p / 8 < s.wr.byte) :
    s.outBit p = (s.mem.read (s.dstByteAddr (p / 8))).getLsbD (7 - p % 8) := by
  unfold State.outBit; rw [if_pos h]

/-- An output bit whose byte has not been written stands in the accumulator. -/
theorem State.outBit_of_ge {s : State} {p : Nat} (h : ¬p / 8 < s.wr.byte) :
    s.outBit p = s.wacc.getLsbD (7 - p % 8) := by
  unfold State.outBit; rw [if_neg h]

/-- Storing the byte under the write cursor keeps the canonical form. -/
theorem State.write_dstPtr_wf {s : State} (v : Byte) (hm : s.memWf = true) :
    (s.mem.write s.dstPtr v).wf s.widths.addrSpace = true :=
  Memory.write_wf v (s.dstByteAddr_lt _) hm

/-- `put_bit` after its capacity test (`40_bit_cursor.md` R125): the bit stands at the write position,
the positions before it are as they were, and only the output side has changed. -/
theorem State.placeBit_spec (s : State) (b : Bool) (hm : s.memWf = true) (hw : s.WriteOk)
    (hne : s.wr.byte ≠ s.dstLen) :
    (s.placeBit b).memWf = true ∧ (s.placeBit b).WriteOk
      ∧ s.Appended (s.placeBit b) 1 (fun _ => b)
      ∧ s.OnlyOutput (s.placeBit b) ∧ (s.placeBit b).pol = s.pol
      ∧ (∀ a, a ≠ s.dstPtr → (s.placeBit b).mem.read a = s.mem.read a)
      ∧ (if s.wr.bit.toNat + 1 < 8 then
            (s.placeBit b).mem = s.mem ∧ (s.placeBit b).bus = s.bus
              ∧ (s.placeBit b).wr.byte = s.wr.byte
          else (s.placeBit b).bus = .write s.dstPtr ((s.placeBit b).mem.read s.dstPtr) :: s.bus
              ∧ (s.placeBit b).wr = ⟨s.wr.byte + 1, 0⟩) := by
  obtain ⟨hd, hle, hend, hlow⟩ := hw
  have hlt : s.wr.byte < s.dstLen := by omega
  have hpos := Cursor.next_pos (p := s.widths) (c := s.wr) (by omega)
  have hbit := s.wr.bit.isLt
  unfold State.placeBit
  by_cases h7 : s.wr.bit = 7
  · have h7' : s.wr.bit.toNat = 7 := by rw [h7]; rfl
    simp only [h7, if_true]
    have hn : s.wr.next s.widths = ⟨s.wr.byte + 1, 0⟩ := by
      rw [Cursor.next_of_eq h7, Widths.narrowLen_of_lt (by omega)]
    have hmem : ∀ a w, a ≠ s.dstPtr → (s.mem.write s.dstPtr w).read a = s.mem.read a :=
      fun a w ha => Memory.read_write_other _ hm ha
    refine ⟨State.write_dstPtr_wf _ hm, ⟨hd, ?_, ?_, ?_⟩, ⟨?_, ?_, ?_⟩, rfl, rfl, ?_, ?_⟩
    · simp only [State.setWr_wr, hn, State.setWr_dstLen, State.storeByte_dstLen]; omega
    · simp [hn]
    · simp
    · simpa using hpos
    · intro q hq
      have hq8 : q / 8 ≤ s.wr.byte := by
        rw [← Cursor.pos_div]; omega
      simp only [State.outBit, State.setWr_wr, hn, State.setWr_mem, State.storeByte_mem]
      rw [if_pos (by omega)]
      show ((s.mem.write s.dstPtr _).read (s.dstByteAddr (q / 8))).getLsbD _ = _
      rcases Nat.lt_or_ge (q / 8) s.wr.byte with hq' | hq'
      · rw [if_pos hq', hmem]
        rw [State.dstPtr_eq]
        intro h
        have := s.dstByteAddr_inj (by omega) (by omega) h
        omega
      · have hqe : q / 8 = s.wr.byte := by omega
        have hqm : q % 8 ≠ 7 := by
          unfold Cursor.pos at hq; omega
        rw [if_neg (by omega), hqe, ← State.dstPtr_eq, Memory.read_write_same _ _ hm, BitVec.getLsbD_or,
          getLsbD_bitAt]
        have : ¬ (7 - q % 8 = 7 - (7 : BitVec 3).toNat) := by
          have : (7 : BitVec 3).toNat = 7 := rfl
          omega
        rw [decide_eq_false this, Bool.and_false, Bool.or_false]
    · intro q hq
      obtain rfl : q = 0 := by omega
      simp only [State.outBit, State.setWr_wr, hn, State.setWr_mem, State.storeByte_mem, Nat.add_zero,
        Cursor.pos_div, Cursor.pos_mod]
      rw [if_pos (by omega)]
      show ((s.mem.write s.dstPtr _).read s.dstPtr).getLsbD _ = _
      rw [Memory.read_write_same _ _ hm, BitVec.getLsbD_or, getLsbD_bitAt, h7']
      rw [hlow _ (by omega)]
      simp
    · intro a ha
      exact hmem a _ ha
    · rw [if_neg (by decide)]
      simp [hn, Memory.read_write_same _ _ hm]
  · have h7' : s.wr.bit.toNat ≠ 7 := fun h' => h7 (BitVec.eq_of_toNat_eq h')
    simp only [h7, if_false]
    have hn : s.wr.next s.widths = ⟨s.wr.byte, s.wr.bit + 1⟩ := Cursor.next_of_ne h7
    have hb1 : (s.wr.bit + 1).toNat = s.wr.bit.toNat + 1 := by bv_omega
    refine ⟨hm, ⟨hd, ?_, ?_, ?_⟩, ⟨?_, ?_, ?_⟩, rfl, rfl, ?_, ?_⟩
    · simpa [hn] using hle
    · simp only [State.setWr_wr, hn, State.setWr_dstLen]
      exact fun h => absurd h hne
    · intro j hj
      simp only [State.setWr_wr, hn, State.setWr_wacc, hb1] at hj ⊢
      rw [BitVec.getLsbD_or, getLsbD_bitAt, hlow j (by omega)]
      have : ¬ (j = 7 - s.wr.bit.toNat) := by omega
      simp [this]
    · simpa using hpos
    · intro q hq
      simp only [State.outBit, State.setWr_wr, hn, State.setWr_mem, State.setWr_wacc]
      split
      · rfl
      · next hq8 =>
        have : ¬ (7 - q % 8 = 7 - s.wr.bit.toNat) := by
          unfold Cursor.pos at hq; omega
        rw [BitVec.getLsbD_or, getLsbD_bitAt, decide_eq_false this, Bool.and_false, Bool.or_false]
    · intro q hq
      obtain rfl : q = 0 := by omega
      simp only [State.outBit, State.setWr_wr, hn, State.setWr_mem, State.setWr_wacc, Nat.add_zero,
        Cursor.pos_div, Cursor.pos_mod, Nat.lt_irrefl, if_false]
      rw [BitVec.getLsbD_or, getLsbD_bitAt, hlow _ (by omega)]
      simp
    · intro a _; rfl
    · rw [if_pos (by omega)]
      simp [hn]

end Sys2Proof.Machine
end

