-- ==== Sys2Proof/Laws/Input.lean ====
section
/-!
SUPPORT. The input side: what get_bit and get_code read and leave, and what the two tests on the bits
left mean.
-/

namespace Sys2Proof.Machine

/-- `t` is `s` after the next `k` input bits have been taken. -/
structure Consumed (s t : State) (k : Nat) : Prop where
  readOk : t.ReadOk
  pos : t.rd.pos = s.rd.pos + k
  onlyInput : t = { s with rd := t.rd, rbuf := t.rbuf, bus := t.bus }
  bus : t.bus = ((List.range' s.rd.touched (t.rd.touched - s.rd.touched)).map fun i =>
      Access.read (s.srcByteAddr i)).reverse ++ s.bus
  count_le : s.rd.touched ≤ t.rd.touched

theorem Consumed.mem {s t : State} {k : Nat} (h : Consumed s t k) : t.mem = s.mem := by
  rw [h.onlyInput]

theorem Consumed.srcAddr {s t : State} {k : Nat} (h : Consumed s t k) : t.srcAddr = s.srcAddr := by
  rw [h.onlyInput]

theorem Consumed.srcLen {s t : State} {k : Nat} (h : Consumed s t k) : t.srcLen = s.srcLen := by
  rw [h.onlyInput]

theorem Consumed.widths {s t : State} {k : Nat} (h : Consumed s t k) : t.widths = s.widths := by
  rw [h.onlyInput]

theorem Consumed.srcByteAddr {s t : State} {k : Nat} (h : Consumed s t k) :
    t.srcByteAddr = s.srcByteAddr := by
  funext i; unfold State.srcByteAddr; rw [h.srcAddr, h.widths]

theorem Consumed.srcBit {s t : State} {k : Nat} (h : Consumed s t k) : t.srcBit = s.srcBit := by
  funext p; unfold State.srcBit State.srcByte; rw [h.mem, h.srcByteAddr]

theorem Consumed.trans {s t u : State} {k l : Nat} (h1 : Consumed s t k) (h2 : Consumed t u l) :
    Consumed s u (k + l) where
  readOk := h2.readOk
  pos := by rw [h2.pos, h1.pos]; omega
  onlyInput := by
    have e1 := h1.onlyInput
    have e2 := h2.onlyInput
    rw [e2, e1]
  bus := by
    have l1 := h1.count_le
    have l2 := h2.count_le
    rw [h2.bus, h1.bus, h1.srcByteAddr, ← List.append_assoc, ← List.reverse_append, ← List.map_append]
    congr 3
    generalize s.rd.touched = x at *
    generalize t.rd.touched = y at *
    generalize u.rd.touched = z at *
    have := List.range'_append (s := x) (m := y - x) (n := z - y) (step := 1)
    rw [show x + 1 * (y - x) = y by omega, show y - x + (z - y) = z - x by omega] at this
    exact this
  count_le := h1.count_le.trans h2.count_le

/-- `get_bit` (`40_bit_cursor.md` R122) gives the input bit at the read position and moves one position
on, reading a byte of memory exactly when it enters it. -/
theorem getBit_spec {s : State} (h : s.ReadOk) (hlt : s.rd.byte ≠ s.srcLen) :
    (getBit s).1 = s.srcBit s.rd.pos ∧ Consumed s (getBit s).2 1 := by
  obtain ⟨hs, hle, hend, hbuf⟩ := h
  have hb := s.rd.bit.isLt
  have hlt' : s.rd.byte < s.srcLen := by omega
  have hnext := Cursor.next_pos (p := s.widths) (c := s.rd) (by omega)
  have hfetch : s.fetchByte.rbuf = s.srcByte s.rd.byte := by
    unfold State.fetchByte
    split
    · rw [State.loadRbuf_rbuf, State.srcPtr_eq]; rfl
    · next h0 => exact hbuf h0
  have hrd : s.fetchByte.rd = s.rd := by unfold State.fetchByte; split <;> rfl
  have honly : s.fetchByte = { s with rbuf := s.fetchByte.rbuf, bus := s.fetchByte.bus } := by
    unfold State.fetchByte; split <;> rfl
  have hw : s.fetchByte.widths = s.widths := by unfold State.fetchByte; split <;> rfl
  have hbus : s.fetchByte.bus
      = if s.rd.bit = 0 then Access.read (s.srcByteAddr s.rd.byte) :: s.bus else s.bus := by
    unfold State.fetchByte
    split
    · rw [State.loadRbuf_bus, State.srcPtr_eq]
    · rfl
  have e1 : (getBit s).1 = s.fetchByte.rbuf.getLsbD (7 - s.rd.bit.toNat) := by
    unfold getBit; simp only [hrd]
  have e2 : (getBit s).2 = s.fetchByte.setRd (s.rd.next s.widths) := by
    unfold getBit; simp only [hrd, hw]
  refine ⟨?_, ?_⟩
  · rw [e1, hfetch]
    unfold State.srcBit
    rw [Cursor.pos_div, Cursor.pos_mod]
  · rw [e2]
    have hsb : (s.fetchByte.setRd (s.rd.next s.widths)).srcByte = s.srcByte := by
      funext i
      unfold State.srcByte State.srcByteAddr
      rw [State.setRd_mem, State.setRd_srcAddr, State.setRd_widths, honly]
    have hsl : s.fetchByte.srcLen = s.srcLen := by rw [honly]
    have hsz : (s.fetchByte.setRd (s.rd.next s.widths)).srcLen
        < (s.fetchByte.setRd (s.rd.next s.widths)).widths.lenSpace := by
      rw [State.setRd_srcLen, State.setRd_widths, hsl, hw]; exact hs
    by_cases h7 : s.rd.bit = 7
    · have hn : s.rd.next s.widths = ⟨s.rd.byte + 1, 0⟩ := by
        rw [Cursor.next_of_eq h7, Widths.narrowLen_of_lt (by omega)]
      have h0 : ¬ s.rd.bit = 0 := by rw [h7]; decide
      refine ⟨⟨hsz, ?_, ?_, ?_⟩, ?_, ?_, ?_, ?_⟩
      · rw [State.setRd_rd, State.setRd_srcLen, hsl, hn]; simp only; omega
      · intro _; rw [State.setRd_rd, hn]
      · intro hh; rw [State.setRd_rd, hn] at hh; exact absurd rfl hh
      · rw [State.setRd_rd]; exact hnext
      · rw [honly]; rfl
      · rw [State.setRd_bus, hbus, State.setRd_rd, hn, if_neg h0]
        simp only [Cursor.touched, if_true, if_neg h0, Nat.add_zero, Nat.sub_self]
        rfl
      · rw [State.setRd_rd, hn]; simp only [Cursor.touched, if_true, if_neg h0]; omega
    · have hn : s.rd.next s.widths = ⟨s.rd.byte, s.rd.bit + 1⟩ := Cursor.next_of_ne h7
      have hb1 : (s.rd.bit + 1).toNat = s.rd.bit.toNat + 1 := by
        have : s.rd.bit.toNat ≠ 7 := fun h' => h7 (BitVec.eq_of_toNat_eq h')
        bv_omega
      have h0' : ¬ s.rd.bit + 1 = 0 := fun h => by
        have := congrArg BitVec.toNat h
        rw [hb1] at this; simp at this
      refine ⟨⟨hsz, ?_, ?_, ?_⟩, ?_, ?_, ?_, ?_⟩
      · rw [State.setRd_rd, State.setRd_srcLen, hsl, hn]; exact hle
      · intro hh; rw [State.setRd_rd, State.setRd_srcLen, hsl, hn] at hh; exact absurd hh hlt
      · intro _
        rw [hsb, State.setRd_rd, hn, State.setRd_rbuf]; exact hfetch
      · rw [State.setRd_rd]; exact hnext
      · rw [honly]; rfl
      · rw [State.setRd_bus, hbus, State.setRd_rd, hn]
        simp only [Cursor.touched, h0', if_false]
        split
        · rw [show s.rd.byte + 1 - (s.rd.byte + 0) = 1 by omega]; rfl
        · rw [Nat.sub_self]; rfl
      · rw [State.setRd_rd, hn]; simp only [Cursor.touched, h0', if_false]; split <;> omega

/-- The end test of `40_bit_cursor.md` R123, as a fact about the stream position. -/
theorem State.atEnd_iff {s : State} (h : s.ReadOk) : s.atEnd = true ↔ s.rd.pos = 8 * s.srcLen := by
  obtain ⟨-, hle, hend, -⟩ := h
  have := s.rd.bit.isLt
  unfold State.atEnd Cursor.pos
  rw [beq_iff_eq]
  constructor
  · intro he; rw [hend he, he]; rfl
  · intro he; omega

/-- The code test of `40_bit_cursor.md` R123, as a fact about the stream position. -/
theorem State.codeAvail_iff {s : State} (hp : s.widths.wellFormed = true) (h : s.ReadOk)
    (hl : s.srcLen ≤ s.widths.maxLen) : s.codeAvail = true ↔ s.rd.pos + 3 ≤ 8 * s.srcLen := by
  obtain ⟨-, hle, hend, -⟩ := h
  have := s.rd.bit.isLt
  have hm := Widths.two_mul_maxLen_lt hp
  have hn : s.widths.narrowLen (s.rd.byte + 1) = s.rd.byte + 1 := Widths.narrowLen_of_lt (by omega)
  unfold State.codeAvail Cursor.pos
  simp only [hn]
  rw [Bool.or_eq_true, Bool.and_eq_true, decide_eq_true_eq, decide_eq_true_eq, beq_iff_eq]
  constructor
  · rintro (h1 | ⟨h1, h2⟩)
    · omega
    · have : s.rd.bit.toNat ≤ 5 := h2
      omega
  · intro h1
    by_cases he : s.rd.byte + 1 < s.srcLen
    · exact Or.inl he
    · refine Or.inr ⟨by omega, ?_⟩
      show s.rd.bit.toNat ≤ 5
      omega

/-- `get_code` (`40_bit_cursor.md` R124) takes the next three input bits. -/
theorem getCode_spec {s : State} (h : s.ReadOk) (hp : s.rd.pos + 3 ≤ 8 * s.srcLen) :
    (getCode s).1 = codeOfBits (s.srcBit s.rd.pos) (s.srcBit (s.rd.pos + 1)) (s.srcBit (s.rd.pos + 2))
      ∧ Consumed s (getCode s).2 3 := by
  have ne_of : ∀ {x : State}, x.ReadOk → x.rd.pos < 8 * x.srcLen → x.rd.byte ≠ x.srcLen := by
    intro x hx hlt he
    have := (State.atEnd_iff hx).mp (by unfold State.atEnd; rw [beq_iff_eq]; exact he)
    omega
  obtain ⟨b0, c0⟩ := getBit_spec h (ne_of h (by omega))
  obtain ⟨b1, c1⟩ := getBit_spec c0.readOk (ne_of c0.readOk (by rw [c0.pos, c0.srcLen]; omega))
  have c01 := c0.trans c1
  obtain ⟨b2, c2⟩ := getBit_spec c01.readOk (ne_of c01.readOk (by rw [c01.pos, c01.srcLen]; omega))
  refine ⟨?_, c01.trans c2⟩
  show codeOfBits (getBit s).1 (getBit (getBit s).2).1 (getBit (getBit (getBit s).2).2).1 = _
  rw [b0, b1, b2, c0.srcBit, c01.srcBit, c0.pos, c01.pos]

end Sys2Proof.Machine
end

