-- ==== Sys2Proof/Laws/Output.lean ====
section
/-!
SUPPORT. The output side as a whole: what appending a list of bits does when it fits and when it does
not, for put_bit, put_code and a run of equal bits alike; and flush.
-/

namespace Sys2Proof.Machine

/-- `put_bit` of each bit of a list in turn. -/
def putList : List Bool → State → Emit
  | [], s => .ok s
  | b :: bs, s => (putBit b s).andThen (putList bs)

theorem Emit.andThen_assoc (e : Emit) (f g : State → Emit) :
    (e.andThen f).andThen g = e.andThen fun s => (f s).andThen g := by
  cases e <;> rfl

theorem Emit.andThen_ok (e : Emit) : e.andThen Emit.ok = e := by cases e <;> rfl

theorem putRun_eq_putList (b : Bool) : ∀ (n : Nat) (s : State),
    putRun b n s = putList (List.replicate n b) s
  | 0, _ => rfl
  | n + 1, s => by
    show (putBit b s).andThen (putRun b n) = (putBit b s).andThen (putList (List.replicate n b))
    rw [funext (putRun_eq_putList b n)]

theorem putCode_eq_putList (v : Code) (s : State) : putCode v s = putList (code3 v) s := by
  unfold putCode
  rw [Emit.andThen_assoc]
  show _ = (putBit _ s).andThen fun t => (putBit _ t).andThen fun u => (putBit _ u).andThen Emit.ok
  simp only [Emit.andThen_ok]

/-- `t` is `s` after the bits `bs` have been appended to the output. -/
structure Produced (s t : State) (bs : List Bool) : Prop where
  wf : t.memWf = true
  writeOk : t.WriteOk
  appended : s.Appended t bs.length (fun q => bs.getD q false)
  onlyOutput : s.OnlyOutput t
  pol : t.pol = s.pol
  byte_le : s.wr.byte ≤ t.wr.byte
  mem : ∀ a, (∀ i, s.wr.byte ≤ i → i < t.wr.byte → a ≠ s.dstByteAddr i) →
    t.mem.read a = s.mem.read a
  bus : t.bus = ((List.range' s.wr.byte (t.wr.byte - s.wr.byte)).map fun i =>
      Access.write (s.dstByteAddr i) (t.mem.read (s.dstByteAddr i))).reverse ++ s.bus

theorem Produced.dstLen {s t : State} {bs : List Bool} (h : Produced s t bs) :
    t.dstLen = s.dstLen := by rw [h.onlyOutput]

theorem Produced.dstAddr {s t : State} {bs : List Bool} (h : Produced s t bs) :
    t.dstAddr = s.dstAddr := by rw [h.onlyOutput]

theorem Produced.widths {s t : State} {bs : List Bool} (h : Produced s t bs) :
    t.widths = s.widths := by rw [h.onlyOutput]

theorem Produced.dstByteAddr {s t : State} {bs : List Bool} (h : Produced s t bs) :
    t.dstByteAddr = s.dstByteAddr := by
  funext i; unfold State.dstByteAddr; rw [h.dstAddr, h.widths]

theorem Produced.refl {s : State} (hm : s.memWf = true) (hw : s.WriteOk) : Produced s s [] where
  wf := hm
  writeOk := hw
  appended := ⟨rfl, fun _ _ => rfl, fun q hq => absurd hq (Nat.not_lt_zero q)⟩
  onlyOutput := rfl
  pol := rfl
  byte_le := Nat.le_refl _
  mem := fun _ _ => rfl
  bus := by simp

theorem State.OnlyOutput.trans {s t u : State} (h1 : s.OnlyOutput t) (h2 : t.OnlyOutput u) :
    s.OnlyOutput u := by
  unfold State.OnlyOutput at *
  rw [h2, h1]

theorem Produced.trans {s t u : State} {bs cs : List Bool} (h1 : Produced s t bs)
    (h2 : Produced t u cs) : Produced s u (bs ++ cs) where
  wf := h2.wf
  writeOk := h2.writeOk
  appended := by
    obtain ⟨p1, k1, a1⟩ := h1.appended
    obtain ⟨p2, k2, a2⟩ := h2.appended
    refine ⟨by rw [p2, p1, List.length_append]; omega, fun q hq => ?_, fun q hq => ?_⟩
    · rw [k2 q (by omega), k1 q hq]
    · rw [List.length_append] at hq
      rcases Nat.lt_or_ge q bs.length with hb | hb
      · rw [k2 _ (by omega), a1 q hb]
        exact (List.getD_append _ _ _ _ hb).symm
      · have := a2 (q - bs.length) (by omega)
        rw [p1] at this
        rw [show s.wr.pos + bs.length + (q - bs.length) = s.wr.pos + q by omega] at this
        rw [this]
        exact (List.getD_append_right _ _ _ _ hb).symm
  onlyOutput := h1.onlyOutput.trans h2.onlyOutput
  pol := h2.pol.trans h1.pol
  byte_le := h1.byte_le.trans h2.byte_le
  mem := fun a ha => by
    have hle := h2.byte_le
    rw [h2.mem a fun i hi hi' => ?_, h1.mem a fun i hi hi' => ha i hi (by omega)]
    rw [h1.dstByteAddr]
    exact ha i (h1.byte_le.trans hi) hi'
  bus := by
    have hle1 := h1.byte_le
    have hle2 := h2.byte_le
    have hd := h2.writeOk.1
    have hlt := h2.writeOk.2.1
    rw [h2.widths, h1.widths] at hd
    rw [h2.bus, h1.bus, h1.dstByteAddr, ← List.append_assoc, ← List.reverse_append]
    have hsplit : List.range' s.wr.byte (u.wr.byte - s.wr.byte)
        = List.range' s.wr.byte (t.wr.byte - s.wr.byte)
          ++ List.range' t.wr.byte (u.wr.byte - t.wr.byte) := by
      have := List.range'_append (s := s.wr.byte)
        (m := t.wr.byte - s.wr.byte) (n := u.wr.byte - t.wr.byte) (step := 1)
      rw [show s.wr.byte + 1 * (t.wr.byte - s.wr.byte) = t.wr.byte by omega,
        show t.wr.byte - s.wr.byte + (u.wr.byte - t.wr.byte)
          = u.wr.byte - s.wr.byte by omega] at this
      exact this.symm
    rw [hsplit, List.map_append]
    congr 3
    refine List.map_congr_left fun i hi => ?_
    rw [List.mem_range'_1] at hi
    rw [h2.mem _ fun j hj hj' => ?_]
    rw [h1.dstByteAddr]
    intro h
    have := s.dstByteAddr_inj (by omega) (by omega) h
    omega

theorem putBit_of_ne {b : Bool} {s : State} (h : s.wr.byte ≠ s.dstLen) :
    putBit b s = .ok (s.placeBit b) := by
  unfold putBit; rw [if_neg h]

theorem putBit_of_eq {b : Bool} {s : State} (h : s.wr.byte = s.dstLen) :
    putBit b s = .overflow s.takeOverflow := by
  unfold putBit; rw [if_pos h]

theorem Produced.placeBit {s : State} (b : Bool) (hm : s.memWf = true) (hw : s.WriteOk)
    (hne : s.wr.byte ≠ s.dstLen) : Produced s (s.placeBit b) [b] := by
  obtain ⟨h1, h2, ⟨a1, a2, a3⟩, h4, h5, h6, h7⟩ := s.placeBit_spec b hm hw hne
  have hlt : s.wr.byte < s.dstLen := by have := hw.2.1; omega
  split at h7
  · obtain ⟨e1, e2, e3⟩ := h7
    refine ⟨h1, h2, ⟨a1, a2, fun q hq => ?_⟩, h4, h5, by rw [e3], fun a _ => by rw [e1], ?_⟩
    · rw [a3 q hq]; obtain rfl : q = 0 := by simpa using hq
      rfl
    · rw [e2, e3]; simp
  · obtain ⟨e2, e3⟩ := h7
    refine ⟨h1, h2, ⟨a1, a2, fun q hq => ?_⟩, h4, h5, by rw [e3]; simp only; omega, fun a ha => ?_, ?_⟩
    · rw [a3 q hq]; obtain rfl : q = 0 := by simpa using hq
      rfl
    · refine h6 a ?_
      rw [State.dstPtr_eq]
      exact ha _ (Nat.le_refl _) (by rw [e3]; simp only; omega)
    · rw [e2, e3, State.dstPtr_eq]
      simp only
      rw [show s.wr.byte + 1 - s.wr.byte = 1 by omega]
      rfl

theorem State.WriteOk.pos_le {s : State} (h : s.WriteOk) : s.wr.pos ≤ 8 * s.dstLen := by
  obtain ⟨-, h1, h2, _⟩ := h
  have := s.wr.bit.isLt
  unfold Cursor.pos
  by_cases he : s.wr.byte = s.dstLen
  · rw [h2 he, he]; simp
  · omega

theorem State.WriteOk.full_iff {s : State} (h : s.WriteOk) :
    s.wr.byte = s.dstLen ↔ s.wr.pos = 8 * s.dstLen := by
  obtain ⟨-, h1, h2, _⟩ := h
  have := s.wr.bit.isLt
  unfold Cursor.pos
  constructor
  · intro he; rw [h2 he, he]; simp
  · intro he; omega

/-- Bits that fit are all appended. -/
theorem putList_fits : ∀ {bs : List Bool} {s : State}, s.memWf = true → s.WriteOk →
    s.wr.pos + bs.length ≤ 8 * s.dstLen → ∃ t, putList bs s = .ok t ∧ Produced s t bs
  | [], s, hm, hw, _ => ⟨s, rfl, Produced.refl hm hw⟩
  | b :: bs, s, hm, hw, hfit => by
    rw [List.length_cons] at hfit
    have hne : s.wr.byte ≠ s.dstLen := fun h => by
      have := hw.full_iff.mp h; omega
    have hp := Produced.placeBit b hm hw hne
    have hpos := hp.appended.1
    rw [List.length_singleton] at hpos
    obtain ⟨t, ht, hp'⟩ := putList_fits (bs := bs) hp.wf hp.writeOk (by
      rw [hp.dstLen]; omega)
    refine ⟨t, ?_, hp.trans hp'⟩
    rw [putList, putBit_of_ne hne]
    exact ht

/-- Bits that do not fit are appended up to the capacity, and then the exception is taken. -/
theorem putList_overflows : ∀ {bs : List Bool} {s : State}, s.memWf = true → s.WriteOk →
    8 * s.dstLen < s.wr.pos + bs.length →
    ∃ t, putList bs s = .overflow t.takeOverflow
      ∧ Produced s t (bs.take (8 * s.dstLen - s.wr.pos)) ∧ t.wr.byte = s.dstLen
  | [], s, _, hw, h => by
    have := hw.pos_le
    simp only [List.length_nil] at h; omega
  | b :: bs, s, hm, hw, h => by
    rw [List.length_cons] at h
    by_cases he : s.wr.byte = s.dstLen
    · refine ⟨s, ?_, ?_, he⟩
      · rw [putList, putBit_of_eq he]; rfl
      · rw [hw.full_iff.mp he, Nat.sub_self, List.take_zero]; exact Produced.refl hm hw
    · have hp := Produced.placeBit b hm hw he
      have hpos := hp.appended.1
      rw [List.length_singleton] at hpos
      have hle := hp.writeOk.pos_le
      rw [hp.dstLen] at hle
      obtain ⟨t, ht, hp', hb⟩ := putList_overflows (bs := bs) hp.wf hp.writeOk (by
        rw [hp.dstLen]; omega)
      refine ⟨t, ?_, ?_, by rw [hb, hp.dstLen]⟩
      · rw [putList, putBit_of_ne he]; exact ht
      · have := hp.trans hp'
        rw [hp.dstLen, hpos] at this
        rw [show 8 * s.dstLen - s.wr.pos = (8 * s.dstLen - (s.wr.pos + 1)) + 1 by omega,
          List.take_succ_cons]
        exact this

/-! ## Frames, in every state -/

/-- The state an emission leaves. -/
def Emit.state : Emit → State
  | .ok s => s
  | .overflow s => s

theorem Emit.outcome_eq (e : Emit) : e.outcome = .next e.state := by cases e <;> rfl

theorem State.placeBit_onlyOutput (s : State) (b : Bool) : s.OnlyOutput (s.placeBit b) := by
  unfold State.OnlyOutput State.placeBit
  split <;> rfl

theorem State.placeBit_pol (s : State) (b : Bool) : (s.placeBit b).pol = s.pol := by
  unfold State.placeBit
  split <;> rfl

theorem State.placeBit_wf (s : State) (b : Bool) (hm : s.memWf = true) :
    (s.placeBit b).memWf = true := by
  unfold State.placeBit
  split
  · exact State.write_dstPtr_wf _ hm
  · exact hm

theorem State.placeBit_inside (s : State) (b : Bool) (h : s.wr.bit.toNat < 7) :
    (s.placeBit b).mem = s.mem ∧ (s.placeBit b).bus = s.bus
      ∧ (s.placeBit b).wr.byte = s.wr.byte ∧ (s.placeBit b).wr.bit.toNat = s.wr.bit.toNat + 1 := by
  have h7 : ¬ s.wr.bit = 7 := fun e => by rw [e] at h; exact absurd h (by decide)
  unfold State.placeBit
  rw [if_neg h7]
  simp only [State.setWr_mem, State.setWr_bus, State.setWr_wr, Cursor.next_of_ne h7, true_and]
  bv_omega

theorem State.placeBit_last (s : State) (b : Bool) (h : ¬ s.wr.bit.toNat < 7) (hm : s.memWf = true) :
    (∀ a, a ≠ s.dstPtr → (s.placeBit b).mem.read a = s.mem.read a)
      ∧ (s.placeBit b).wr.bit.toNat = 0 := by
  have h7 : s.wr.bit = 7 := by have := s.wr.bit.isLt; bv_omega
  unfold State.placeBit
  rw [if_pos h7]
  refine ⟨fun a ha => Memory.read_write_other _ hm ha, ?_⟩
  rw [State.setWr_wr, Cursor.next_of_eq h7]; rfl

/-- What appending bits changes in any state at all, fitting or not: the output side only, or also what
the exception entry writes. -/
theorem putList_frame : ∀ (bs : List Bool) (s : State),
    (∃ t, putList bs s = .ok t ∧ s.OnlyOutput t ∧ t.pol = s.pol)
      ∨ ∃ t, putList bs s = .overflow t.takeOverflow ∧ s.OnlyOutput t ∧ t.pol = s.pol
  | [], s => Or.inl ⟨s, rfl, rfl, rfl⟩
  | b :: bs, s => by
    by_cases he : s.wr.byte = s.dstLen
    · exact Or.inr ⟨s, by rw [putList, putBit_of_eq he]; rfl, rfl, rfl⟩
    · have h1 := s.placeBit_onlyOutput b
      have h2 := s.placeBit_pol b
      rw [putList, putBit_of_ne he]
      rcases putList_frame bs (s.placeBit b) with ⟨t, e, o, p⟩ | ⟨t, e, o, p⟩
      · exact Or.inl ⟨t, e, h1.trans o, p.trans h2⟩
      · exact Or.inr ⟨t, e, h1.trans o, p.trans h2⟩

/-- Bits that stay inside the byte under the write cursor store nothing, in any state. -/
theorem putList_stores_nothing : ∀ (bs : List Bool) (s : State), s.wr.bit.toNat + bs.length < 8 →
    (putList bs s).state.mem = s.mem ∧ (putList bs s).state.bus = s.bus
  | [], _, _ => ⟨rfl, rfl⟩
  | b :: bs, s, h => by
    rw [List.length_cons] at h
    by_cases he : s.wr.byte = s.dstLen
    · rw [putList, putBit_of_eq he]; exact ⟨rfl, rfl⟩
    · obtain ⟨e1, e2, -, e4⟩ := s.placeBit_inside b (by omega)
      have := putList_stores_nothing bs (s.placeBit b) (by omega)
      rw [putList, putBit_of_ne he]
      exact ⟨this.1.trans e1, this.2.trans e2⟩

/-- At most eight bits store at most the byte under the write cursor, in any state. -/
theorem putList_stores_one : ∀ (bs : List Bool) (s : State), bs.length ≤ 8 →
    s.memWf = true → ∀ a, a ≠ s.dstPtr → (putList bs s).state.mem.read a = s.mem.read a
  | [], _, _, _, _, _ => rfl
  | b :: bs, s, h, hm, a, ha => by
    rw [List.length_cons] at h
    by_cases he : s.wr.byte = s.dstLen
    · rw [putList, putBit_of_eq he]; rfl
    · rw [putList, putBit_of_ne he]
      by_cases h7 : s.wr.bit.toNat < 7
      · obtain ⟨e1, -, e3, -⟩ := s.placeBit_inside b h7
        have hp : (s.placeBit b).dstPtr = s.dstPtr := by
          unfold State.dstPtr
          rw [e3, s.placeBit_onlyOutput b]
        have := putList_stores_one bs (s.placeBit b) (by omega) (s.placeBit_wf b hm) a (by rwa [hp])
        exact this.trans (by rw [e1])
      · obtain ⟨e1, e2⟩ := s.placeBit_last b h7 hm
        have := putList_stores_nothing bs (s.placeBit b) (by omega)
        exact (congrArg (fun m => Memory.read m a) this.1).trans (e1 a ha)

/-- `flush` (`40_bit_cursor.md` R127): the state it leaves, when nothing or a partial byte is waiting.
-/
theorem State.flush_of_zero {s : State} (h : s.wr.bit = 0) : s.flush = s := by
  unfold State.flush; rw [if_pos h]

theorem State.flush_of_ne {s : State} (h : s.wr.bit ≠ 0) :
    s.flush = (s.storeByte s.dstPtr s.wacc).setWr ⟨s.widths.narrowLen (s.wr.byte + 1), 0⟩ 0 := by
  unfold State.flush; rw [if_neg h]

/-- `flush` appends zero bits up to the byte boundary (`40_bit_cursor.md` R127, R131): it never runs out
of room. -/
theorem Produced.flush {s : State} (hm : s.memWf = true) (hw : s.WriteOk) :
    ∃ k, k < 8 ∧ Produced s s.flush (List.replicate k false) ∧ s.flush.wr.bit = 0
      ∧ s.flush.wr.byte = (s.wr.pos + 7) / 8 := by
  have hbit := s.wr.bit.isLt
  by_cases h0 : s.wr.bit = 0
  · refine ⟨0, by omega, ?_, ?_, ?_⟩
    · rw [State.flush_of_zero h0]; exact Produced.refl hm hw
    · rw [State.flush_of_zero h0]; exact h0
    · rw [State.flush_of_zero h0]; unfold Cursor.pos; rw [h0]; simp; omega
  · obtain ⟨hd, hle, hend, hlow⟩ := hw
    have hne : s.wr.byte ≠ s.dstLen := fun h => h0 (hend h)
    have hlt : s.wr.byte < s.dstLen := by omega
    have hb0 : s.wr.bit.toNat ≠ 0 := fun h => h0 (BitVec.eq_of_toNat_eq h)
    have hb : s.widths.narrowLen (s.wr.byte + 1) = s.wr.byte + 1 := Widths.narrowLen_of_lt (by omega)
    have hread : (s.mem.write s.dstPtr s.wacc).read (s.dstByteAddr s.wr.byte) = s.wacc := by
      rw [← State.dstPtr_eq, Memory.read_write_same _ _ hm]
    rw [State.flush_of_ne h0, hb]
    refine ⟨8 - s.wr.bit.toNat, by omega, ⟨State.write_dstPtr_wf _ hm, ⟨hd, ?_, ?_, ?_⟩, ⟨?_, ?_, ?_⟩,
      rfl, rfl, ?_, ?_, ?_⟩, rfl, ?_⟩
    · simp only [State.setWr_wr, State.setWr_dstLen, State.storeByte_dstLen]; omega
    · intro _; rfl
    · intro j _; simp
    · simp only [State.setWr_wr, Cursor.pos, List.length_replicate]
      rw [show (0 : BitVec 3).toNat = 0 from rfl]; omega
    · intro q hq
      have hq8 : q / 8 ≤ s.wr.byte := by rw [← Cursor.pos_div]; omega
      rw [State.outBit_of_lt (by rw [State.setWr_wr]; simp only; omega)]
      show ((s.mem.write s.dstPtr s.wacc).read (s.dstByteAddr (q / 8))).getLsbD _ = _
      rcases Nat.lt_or_ge (q / 8) s.wr.byte with hq' | hq'
      · rw [State.outBit_of_lt hq', Memory.read_write_other _ hm]
        rw [State.dstPtr_eq]
        intro h
        have := s.dstByteAddr_inj (by omega) (by omega) h
        omega
      · rw [State.outBit_of_ge (by omega), show q / 8 = s.wr.byte by omega]
        exact congrArg (fun x => BitVec.getLsbD x _) hread
    · intro q hq
      rw [List.length_replicate] at hq
      have hpos : s.wr.pos = 8 * s.wr.byte + s.wr.bit.toNat := rfl
      have hq8 : (s.wr.pos + q) / 8 = s.wr.byte := by omega
      rw [State.outBit_of_lt (by rw [State.setWr_wr]; simp only; omega), hq8]
      show ((s.mem.write s.dstPtr s.wacc).read (s.dstByteAddr s.wr.byte)).getLsbD _ = _
      rw [hread, hlow _ (by omega)]
      simp [hq]
    · simp only [State.setWr_wr]; omega
    · intro a ha
      simp only [State.setWr_wr] at ha
      refine Memory.read_write_other _ hm ?_
      rw [State.dstPtr_eq]
      exact ha _ (Nat.le_refl _) (by omega)
    · simp only [State.setWr_wr, State.setWr_bus, State.storeByte_bus, State.setWr_mem,
        State.storeByte_mem]
      rw [show s.wr.byte + 1 - s.wr.byte = 1 by omega]
      simp only [List.range'_one, List.map_cons, List.map_nil, List.reverse_singleton,
        List.singleton_append]
      rw [hread, State.dstPtr_eq]
    · simp only [State.setWr_wr]; unfold Cursor.pos; omega

end Sys2Proof.Machine
end

