-- ==== Sys2Proof/Laws/Engine.lean ====
section
/-!
SUPPORT. What one engine step of a legal command can do, said once: it takes input bits, appends output
bits, and then goes on, completes, or has taken the exception.
-/

namespace Sys2Proof.Machine

/-! ## Legal regions -/

/-- A byte of a legal source region does not wrap (`43_commands.md` R208 L2). -/
theorem State.Legal.srcByteAddr_eq {s : State} (h : s.Legal) {i : Nat} (hi : i < s.srcLen) :
    s.srcByteAddr i = s.srcAddr + i := by
  have := h.2.1.1
  exact Widths.narrowAddr_of_lt (by omega)

/-- A byte of a legal destination region does not wrap (`43_commands.md` R208 L2). -/
theorem State.Legal.dstByteAddr_eq {s : State} (h : s.Legal) {i : Nat} (hi : i < s.dstLen) :
    s.dstByteAddr i = s.dstAddr + i := by
  have := h.2.1.2
  exact Widths.narrowAddr_of_lt (by omega)

/-- In a legal command no source byte is a destination byte (`43_commands.md` R208 L4). -/
theorem State.Legal.disjoint {s : State} (h : s.Legal) {i j : Nat} (hi : i < s.srcLen)
    (hj : j < s.dstLen) : s.srcByteAddr i ≠ s.dstByteAddr j := by
  rw [h.srcByteAddr_eq hi, h.dstByteAddr_eq hj]
  exact h.2.2.2 i hi j hj

/-! ## Accesses -/

theorem busReads_append : ∀ (l m : List Access), busReads (l ++ m) = busReads m ++ busReads l
  | [], m => by simp [busReads]
  | .read a :: l, m => by simp [busReads, busReads_append l m]
  | .write a v :: l, m => by simp [busReads, busReads_append l m]

theorem busWrites_append : ∀ (l m : List Access), busWrites (l ++ m) = busWrites m ++ busWrites l
  | [], m => by simp [busWrites]
  | .read a :: l, m => by simp [busWrites, busWrites_append l m]
  | .write a v :: l, m => by simp [busWrites, busWrites_append l m]

theorem busReads_reads (f : Nat → Nat) : ∀ l : List Nat,
    busReads (l.map fun i => Access.read (f i)).reverse = l.map f
  | [] => rfl
  | i :: l => by
    rw [List.map_cons, List.reverse_cons, busReads_append, busReads_reads f l]; rfl

theorem busReads_writes (f : Nat → Nat) (g : Nat → Byte) : ∀ l : List Nat,
    busReads (l.map fun i => Access.write (f i) (g i)).reverse = []
  | [] => rfl
  | i :: l => by
    rw [List.map_cons, List.reverse_cons, busReads_append, busReads_writes f g l]; rfl

theorem busWrites_reads (f : Nat → Nat) : ∀ l : List Nat,
    busWrites (l.map fun i => Access.read (f i)).reverse = []
  | [] => rfl
  | i :: l => by
    rw [List.map_cons, List.reverse_cons, busWrites_append, busWrites_reads f l]; rfl

theorem busWrites_writes (f : Nat → Nat) (g : Nat → Byte) : ∀ l : List Nat,
    busWrites (l.map fun i => Access.write (f i) (g i)).reverse = l.map fun i => (f i, g i)
  | [] => rfl
  | i :: l => by
    rw [List.map_cons, List.reverse_cons, busWrites_append, busWrites_writes f g l]; rfl

/-! ## Moving both sides -/

/-- `t` is `s` after the next `k` input bits have been taken and the bits `bs` appended; `pol` and `cnt`
may have changed too. -/
structure Moved (s t : State) (k : Nat) (bs : List Bool) : Prop where
  wf : t.memWf = true
  readOk : t.ReadOk
  writeOk : t.WriteOk
  pos : t.rd.pos = s.rd.pos + k
  appended : s.Appended t bs.length (fun q => bs.getD q false)
  only : t = { s with
    rd := t.rd, rbuf := t.rbuf, wr := t.wr, wacc := t.wacc, mem := t.mem, bus := t.bus
    pol := t.pol, cnt := t.cnt }
  byte_le : s.wr.byte ≤ t.wr.byte
  touched_le : s.rd.touched ≤ t.rd.touched
  mem : ∀ a, (∀ i, s.wr.byte ≤ i → i < t.wr.byte → a ≠ s.dstByteAddr i) →
    t.mem.read a = s.mem.read a
  bus : t.bus = ((List.range' s.wr.byte (t.wr.byte - s.wr.byte)).map fun i =>
      Access.write (s.dstByteAddr i) (t.mem.read (s.dstByteAddr i))).reverse
    ++ (((List.range' s.rd.touched (t.rd.touched - s.rd.touched)).map fun i =>
      Access.read (s.srcByteAddr i)).reverse ++ s.bus)

theorem State.ReadOk.touched_le {s : State} (h : s.ReadOk) : s.rd.touched ≤ s.srcLen := by
  obtain ⟨-, h1, h2, _⟩ := h
  unfold Cursor.touched
  split
  · omega
  · next h0 =>
    have : s.rd.byte ≠ s.srcLen := fun e => h0 (h2 e)
    omega

/-- Taking input bits and then appending output bits. -/
theorem Moved.of {s u v : State} {k : Nat} {bs : List Bool} (c : BitVec 3) (hl : s.Legal)
    (h1 : Consumed s u k) (h2 : Produced (u.setCnt c) v bs) (p : Bool) (d : BitVec 3) :
    Moved s { v with pol := p, cnt := d } k bs := by
  have hu := h1.onlyInput
  have ho := h2.onlyOutput
  unfold State.OnlyOutput at ho
  have hwr : (u.setCnt c).wr = s.wr := by rw [State.setCnt_wr, hu]
  have hmem : (u.setCnt c).mem = s.mem := by rw [State.setCnt_mem, hu]
  have hda : (u.setCnt c).dstByteAddr = s.dstByteAddr := by
    funext i; unfold State.dstByteAddr; rw [State.setCnt_dstAddr, State.setCnt_widths, hu]
  have hdl : v.dstLen = s.dstLen := by rw [ho, State.setCnt_dstLen, hu]
  have hvw : v.widths = s.widths := by rw [ho, State.setCnt_widths, hu]
  have hvs : v.srcAddr = s.srcAddr := by rw [ho, State.setCnt_srcAddr, hu]
  have hvl : v.srcLen = s.srcLen := by rw [ho, State.setCnt_srcLen, hu]
  have hvd : v.dstAddr = s.dstAddr := by rw [ho, State.setCnt_dstAddr, hu]
  have hvr : v.rd = u.rd := by rw [ho]; rfl
  have hvb : v.rbuf = u.rbuf := by rw [ho]; rfl
  have hout : (u.setCnt c).outBit = s.outBit := by
    funext q; unfold State.outBit
    rw [hwr, hmem, hda, State.setCnt_wacc, hu]
  have hm : ∀ a, (∀ i, s.wr.byte ≤ i → i < v.wr.byte → a ≠ s.dstByteAddr i) →
      v.mem.read a = s.mem.read a := fun a ha => by
    have := h2.mem a (by rw [hwr, hda]; exact ha)
    rwa [hmem] at this
  have hsrc : ∀ i, i < s.srcLen → v.mem.read (s.srcByteAddr i) = s.mem.read (s.srcByteAddr i) := by
    intro i hi
    refine hm _ fun j _ hj => hl.disjoint hi ?_
    have := h2.writeOk.2.1
    rw [hdl] at this; omega
  have hsb : v.srcByteAddr = s.srcByteAddr := by
    funext i; unfold State.srcByteAddr; rw [hvs, hvw]
  have happ := h2.appended
  refine ⟨h2.wf, ⟨?_, ?_, ?_, ?_⟩, h2.writeOk, ?_, ⟨?_, ?_, ?_⟩, ?_, ?_, ?_, ?_, ?_⟩
  · show v.srcLen < v.widths.lenSpace
    rw [hvl, hvw, ← h1.srcLen, ← h1.widths]; exact h1.readOk.1
  · show v.rd.byte ≤ v.srcLen
    rw [hvr, hvl, ← h1.srcLen]; exact h1.readOk.2.1
  · show v.rd.byte = v.srcLen → v.rd.bit = 0
    rw [hvr, hvl, ← h1.srcLen]; exact h1.readOk.2.2.1
  · show v.rd.bit ≠ 0 → v.rbuf = v.mem.read (v.srcByteAddr v.rd.byte)
    rw [hvr, hvb, hsb]
    intro h0
    have hlt : u.rd.byte < s.srcLen := by
      have := h1.readOk.touched_le
      unfold Cursor.touched at this
      rw [if_neg h0, h1.srcLen] at this
      omega
    rw [hsrc _ hlt, h1.readOk.2.2.2 h0]
    unfold State.srcByte
    rw [h1.mem, h1.srcByteAddr]
  · show v.rd.pos = _
    rw [hvr]; exact h1.pos
  · have := happ.1; rwa [hwr] at this
  · intro q hq
    have := happ.2.1 q (by rwa [hwr])
    rwa [hout] at this
  · intro q hq
    have := happ.2.2 q hq
    rwa [hwr] at this
  · simp only
    rw [ho, hu]; rfl
  · have := h2.byte_le; rwa [hwr] at this
  · show s.rd.touched ≤ v.rd.touched
    rw [hvr]; exact h1.count_le
  · exact hm
  · show v.bus = _
    have e := h2.bus
    rw [hwr, hda, State.setCnt_bus, h1.bus] at e
    rw [e]
    show _ = _ ++ ((List.map _ (List.range' _ (v.rd.touched - _))).reverse ++ s.bus)
    rw [hvr]

theorem Consumed.refl {s : State} (h : s.ReadOk) : Consumed s s 0 where
  readOk := h
  pos := rfl
  onlyInput := rfl
  bus := by simp
  count_le := Nat.le_refl _

/-! ## One step of the engine -/

/-- How an engine step of a command can end: the command goes on, completes with its last byte written,
or has taken the exception with the destination full. -/
inductive StepEnd (s t : State) (k : Nat) (bs : List Bool) : Prop where
  | goesOn (h : Moved s t k bs) (hk : (s.phase = .enc ∧ k = 1 ∧ t.cnt ≠ 7) ∨ (s.phase = .dec ∧ k = 3))
  | completes (u : State) (h : Moved s u k bs) (hb : u.wr.bit = 0) (ht : t = u.complete)
  | overflows (u : State) (h : Moved s u k bs) (hb : u.wr.byte = u.dstLen) (ht : t = u.takeOverflow)

/-- Appending bits after taking bits, in a legal command: it fits and goes on to `f`, or it does not fit
and takes the exception with the destination full. -/
theorem emit_cases {s u : State} {k : Nat} (c : BitVec 3) (hm : s.memWf = true) (hl : s.Legal)
    (hw : s.WriteOk) (h1 : Consumed s u k) (bs : List Bool) :
    (s.wr.pos + bs.length ≤ 8 * s.dstLen
      ∧ ∃ v, putList bs (u.setCnt c) = .ok v ∧ Produced (u.setCnt c) v bs)
    ∨ (8 * s.dstLen < s.wr.pos + bs.length
      ∧ ∃ v, putList bs (u.setCnt c) = .overflow v.takeOverflow
        ∧ Moved s v k (bs.take (8 * s.dstLen - s.wr.pos)) ∧ v.wr.byte = v.dstLen
        ∧ v.pol = s.pol ∧ v.cnt = c) := by
  have hu := h1.onlyInput
  have hm' : (u.setCnt c).memWf = true := by
    unfold State.memWf; rw [State.setCnt_mem, State.setCnt_widths, h1.mem, h1.widths]; exact hm
  have hw' : (u.setCnt c).WriteOk := by
    have e1 : (u.setCnt c).wr = s.wr := by rw [State.setCnt_wr, hu]
    have e2 : (u.setCnt c).dstLen = s.dstLen := by rw [State.setCnt_dstLen, hu]
    have e3 : (u.setCnt c).wacc = s.wacc := by rw [State.setCnt_wacc, hu]
    unfold State.WriteOk
    rw [e1, e2, e3, State.setCnt_widths, h1.widths]; exact hw
  have hpos : (u.setCnt c).wr.pos = s.wr.pos := by rw [State.setCnt_wr, hu]
  have hdl : (u.setCnt c).dstLen = s.dstLen := by rw [State.setCnt_dstLen, hu]
  rcases Nat.lt_or_ge (8 * s.dstLen) (s.wr.pos + bs.length) with hlt | hge
  · refine Or.inr ⟨hlt, ?_⟩
    obtain ⟨v, e, hp, hb⟩ := putList_overflows hm' hw' (by rw [hpos, hdl]; exact hlt)
    rw [hpos, hdl] at hp
    have hmv := Moved.of c hl h1 hp v.pol v.cnt
    have hpol : v.pol = s.pol := by rw [hp.pol, State.setCnt_pol, hu]
    have hcnt : v.cnt = c := by
      have := hp.onlyOutput
      rw [this]; rfl
    exact ⟨v, e, hmv, by rw [hb, hp.dstLen], hpol, hcnt⟩
  · refine Or.inl ⟨hge, ?_⟩
    exact putList_fits hm' hw' (by rw [hpos, hdl]; exact hge)

theorem State.setCnt_self {u : State} {c : BitVec 3} (h : u.cnt = c) : u.setCnt c = u := by
  subst h; rfl

theorem State.ne_end {s : State} (he : s.atEnd = false) :
    s.rd.byte ≠ s.srcLen := fun e => by
  unfold State.atEnd at he
  rw [e] at he
  simp at he

/-- ENC_SCAN (`41_encoder.md` R147), case by case. -/
theorem encScan_spec {s : State} (hm : s.memWf = true) (hl : s.Legal) (hr : s.ReadOk)
    (hw : s.WriteOk) (he : s.atEnd = false) :
    ∃ u, Consumed s u 1 ∧
      ((s.srcBit s.rd.pos = s.pol ∧ s.cnt + 1 ≠ 7
          ∧ encScan s = .next (u.setCnt (s.cnt + 1)))
        ∨ (s.srcBit s.rd.pos = s.pol ∧ s.cnt + 1 = 7 ∧ s.wr.pos + 3 ≤ 8 * s.dstLen
          ∧ ∃ v, Produced (u.setCnt 7) v (code3 7) ∧ encScan s = .next (v.setCnt 0))
        ∨ (s.srcBit s.rd.pos ≠ s.pol ∧ s.wr.pos + 3 ≤ 8 * s.dstLen
          ∧ ∃ v, Produced (u.setCnt s.cnt) v (code3 s.cnt) ∧ encScan s = .next (v.flipPol.setCnt 1))
        ∨ ((s.srcBit s.rd.pos ≠ s.pol ∨ s.cnt + 1 = 7) ∧ 8 * s.dstLen < s.wr.pos + 3
          ∧ ∃ v bs, Moved s v 1 bs ∧ v.wr.byte = v.dstLen ∧ v.pol = s.pol
            ∧ v.cnt = (if s.srcBit s.rd.pos = s.pol then 7 else s.cnt)
            ∧ encScan s = .next v.takeOverflow)) := by
  obtain ⟨hb, hc⟩ := getBit_spec hr (State.ne_end he)
  refine ⟨(getBit s).2, hc, ?_⟩
  have hpol : (getBit s).2.pol = s.pol := by rw [hc.onlyInput]
  have hcnt : (getBit s).2.cnt = s.cnt := by rw [hc.onlyInput]
  have e : encScan s = if s.srcBit s.rd.pos = s.pol then
      (if s.cnt + 1 = 7 then
        ((putList (code3 7) ((getBit s).2.setCnt (s.cnt + 1))).map fun x => x.setCnt 0).outcome
       else .next ((getBit s).2.setCnt (s.cnt + 1)))
      else ((putList (code3 s.cnt) (getBit s).2).map fun x => x.flipPol.setCnt 1).outcome := by
    unfold encScan
    simp only [hpol, hcnt, hb, State.setCnt_cnt, putCode_eq_putList]
  have hself : (getBit s).2.setCnt s.cnt = (getBit s).2 := State.setCnt_self hcnt
  by_cases h1 : s.srcBit s.rd.pos = s.pol
  · rw [if_pos h1] at e
    by_cases h2 : s.cnt + 1 = 7
    · rw [if_pos h2, h2] at e
      rcases emit_cases 7 hm hl hw hc (code3 7) with ⟨hf, v, ev, hp⟩ | ⟨hf, v, ev, hv, hb', hp', hc'⟩
      · exact Or.inr (Or.inl ⟨h1, h2, hf, v, hp, by rw [e, ev]; rfl⟩)
      · exact Or.inr (Or.inr (Or.inr ⟨Or.inr h2, hf, v, _, hv, hb', hp', by rw [if_pos h1]; exact hc',
          by rw [e, ev]; rfl⟩))
    · rw [if_neg h2] at e
      exact Or.inl ⟨h1, h2, e⟩
  · rw [if_neg h1] at e
    rcases emit_cases s.cnt hm hl hw hc (code3 s.cnt) with ⟨hf, v, ev, hp⟩ | ⟨hf, v, ev, hv, hb', hp', hc'⟩
    · rw [hself] at ev
      exact Or.inr (Or.inr (Or.inl ⟨h1, hf, v, hp, by rw [e, ev]; rfl⟩))
    · rw [hself] at ev
      exact Or.inr (Or.inr (Or.inr ⟨Or.inl h1, hf, v, _, hv, hb', hp', by rw [if_neg h1]; exact hc',
        by rw [e, ev]; rfl⟩))

/-- Appending bits and then flushing, in a legal command. -/
theorem flush_moved {s v : State} {k : Nat} {bs : List Bool} (hl : s.Legal) {u : State} (c : BitVec 3)
    (h1 : Consumed s u k) (h2 : Produced (u.setCnt c) v bs) :
    ∃ n, n < 8 ∧ Moved s v.flush k (bs ++ List.replicate n false) ∧ v.flush.wr.bit = 0
      ∧ v.flush.wr.byte = (v.wr.pos + 7) / 8 := by
  obtain ⟨n, hn, hp, hb, hy⟩ := Produced.flush h2.wf h2.writeOk
  exact ⟨n, hn, Moved.of c hl h1 (h2.trans hp) v.flush.pol v.flush.cnt, hb, hy⟩

/-- ENC_FINISH (`41_encoder.md` R148). -/
theorem encFinish_spec {s : State} (hm : s.memWf = true) (hl : s.Legal) (hr : s.ReadOk)
    (hw : s.WriteOk) :
    (s.wr.pos + 3 ≤ 8 * s.dstLen
      ∧ ∃ v n, n < 8 ∧ Moved s v 0 (code3 s.cnt ++ List.replicate n false) ∧ v.wr.bit = 0
        ∧ v.wr.byte = (s.wr.pos + 3 + 7) / 8 ∧ encFinish s = .next v.complete)
    ∨ (8 * s.dstLen < s.wr.pos + 3
      ∧ ∃ v bs, Moved s v 0 bs ∧ v.wr.byte = v.dstLen ∧ encFinish s = .next v.takeOverflow) := by
  have e : encFinish s = ((putList (code3 s.cnt) (s.setCnt s.cnt)).map fun x => x.flush.complete).outcome := by
    unfold encFinish; rw [putCode_eq_putList]; rfl
  rcases emit_cases s.cnt hm hl hw (Consumed.refl hr) (code3 s.cnt) with
    ⟨hf, v, ev, hp⟩ | ⟨hf, v, ev, hv, hb', -, -⟩
  · obtain ⟨n, hn, hmv, hb, hy⟩ := flush_moved hl s.cnt (Consumed.refl hr) hp
    refine Or.inl ⟨hf, v.flush, n, hn, hmv, hb, ?_, by rw [e, ev]; rfl⟩
    have := hp.appended.1
    rw [hy, this]; rfl
  · exact Or.inr ⟨hf, v, _, hv, hb', by rw [e, ev]; rfl⟩

/-- DEC_FINISH (`42_decoder.md` R183). -/
theorem decFinish_spec {s : State} (hm : s.memWf = true) (hl : s.Legal) (hr : s.ReadOk)
    (hw : s.WriteOk) :
    ∃ v n, n < 8 ∧ Moved s v 0 (List.replicate n false) ∧ v.wr.bit = 0
      ∧ v.wr.byte = (s.wr.pos + 7) / 8 ∧ v.rd = s.rd ∧ decFinish s = .next v.complete := by
  obtain ⟨n, hn, hmv, hb, hy⟩ := flush_moved hl s.cnt (Consumed.refl hr) (Produced.refl hm hw)
  refine ⟨s.flush, n, hn, hmv, hb, hy, ?_, rfl⟩
  unfold State.flush; split <;> rfl

/-- What a code of value `v` does to a state. -/
theorem exec_code (v : Code) (s : State) :
    exec (decodeCode v) s
      = ((putList (List.replicate v.toNat s.pol) s).map fun x =>
          if v = 7 then x else x.flipPol).outcome := by
  rw [← putRun_eq_putList]
  have hid : ∀ e : Emit, e.map (fun x => x) = e := fun e => by cases e <;> rfl
  obtain ⟨⟨n, hn⟩⟩ := v
  interval_cases n
  · rfl
  · rfl
  · rfl
  · rfl
  · rfl
  · rfl
  · rfl
  · show (putRun s.pol 7 s).outcome = ((putRun s.pol 7 s).map fun x => x).outcome
    rw [hid]

/-- DEC_CODE (`42_decoder.md` R182): `v` is the code under the read cursor. -/
theorem decCode_spec {s : State} (hp : s.widths.wellFormed = true) (hm : s.memWf = true)
    (hl : s.Legal) (hr : s.ReadOk) (hw : s.WriteOk) (he : s.codeAvail = true) (v : Code)
    (hv : v = codeOfBits (s.srcBit s.rd.pos) (s.srcBit (s.rd.pos + 1)) (s.srcBit (s.rd.pos + 2))) :
    (s.wr.pos + v.toNat ≤ 8 * s.dstLen
      ∧ ∃ t, Moved s t 3 (List.replicate v.toNat s.pol) ∧ t.cnt = s.cnt
        ∧ t.pol = (if v = 7 then s.pol else !s.pol) ∧ decCode s = .next t)
    ∨ (8 * s.dstLen < s.wr.pos + v.toNat
      ∧ ∃ t bs, Moved s t 3 bs ∧ t.wr.byte = t.dstLen ∧ decCode s = .next t.takeOverflow) := by
  have ha := (State.codeAvail_iff hp hr hl.1.1).mp he
  obtain ⟨hc, hcons⟩ := getCode_spec hr ha
  rw [← hv] at hc
  have hpol : (getCode s).2.pol = s.pol := by rw [hcons.onlyInput]
  have hcnt : (getCode s).2.cnt = s.cnt := by rw [hcons.onlyInput]
  have hself : (getCode s).2.setCnt s.cnt = (getCode s).2 := State.setCnt_self hcnt
  have e : decCode s = ((putList (List.replicate v.toNat s.pol) ((getCode s).2.setCnt s.cnt)).map fun x =>
      if v = 7 then x else x.flipPol).outcome := by
    unfold decCode
    simp only [hc]
    rw [exec_code, hpol, hself]
  rcases emit_cases s.cnt hm hl hw hcons (List.replicate v.toNat s.pol) with
    ⟨hf, x, ex, hx⟩ | ⟨hf, x, ex, hx, hb', -, -⟩
  · rw [List.length_replicate] at hf
    have hxp : x.pol = s.pol := by rw [hx.pol, State.setCnt_pol, hpol]
    have hxc : x.cnt = s.cnt := by rw [hx.onlyOutput]; rfl
    refine Or.inl ⟨hf, if v = 7 then x else x.flipPol, ?_, ?_, ?_, by rw [e, ex]; rfl⟩
    · split
      · exact Moved.of s.cnt hl hcons hx x.pol x.cnt
      · exact Moved.of s.cnt hl hcons hx (!x.pol) x.cnt
    · split <;> exact hxc
    · split
      · exact hxp
      · rw [State.flipPol_pol, hxp]
  · rw [List.length_replicate] at hf
    exact Or.inr ⟨hf, x, _, hx, hb', by rw [e, ex]; rfl⟩

/-- Every engine step of a legal command answers a next state, in one of the three ways. -/
theorem engineStep_ends {s : State} (hi : s.Inv) (hb : s.busy = true) :
    ∃ t, engineStep s = .next t ∧ ∃ k bs, StepEnd s t k bs := by
  obtain ⟨⟨hp, -⟩, hm, -, -, hbusy⟩ := hi
  obtain ⟨-, hl, hr, hw, -, -, -⟩ := hbusy hb
  have hphase : s.phase = .enc ∨ s.phase = .dec := by
    simpa [State.busy] using hb
  have hself : ∀ {u : State} {k : Nat}, Consumed s u k → u.setCnt s.cnt = u := fun h =>
    State.setCnt_self (by rw [h.onlyInput])
  rcases hphase with hph | hph
  · have e : engineStep s = if s.atEnd then encFinish s else encScan s := by
      unfold engineStep; rw [hph]
    cases ha : s.atEnd
    · rw [ha] at e
      obtain ⟨u, hc, h⟩ := encScan_spec hm hl hr hw ha
      rcases h with ⟨-, h7, h⟩ | ⟨-, -, -, v, hp, h⟩ | ⟨-, -, v, hp, h⟩ | ⟨-, -, v, bs, hmv, hb', -, -, h⟩
      · have hu : (u.setCnt s.cnt).memWf = true := by
          unfold State.memWf; rw [State.setCnt_mem, State.setCnt_widths, hc.mem, hc.widths]; exact hm
        have huw : (u.setCnt s.cnt).WriteOk := by
          rw [hself hc]
          have e1 : u.wr = s.wr := by rw [hc.onlyInput]
          have e2 : u.dstLen = s.dstLen := by rw [hc.onlyInput]
          have e3 : u.wacc = s.wacc := by rw [hc.onlyInput]
          unfold State.WriteOk; rw [e1, e2, e3, hc.widths]; exact hw
        have := Moved.of s.cnt hl hc (Produced.refl hu huw) u.pol (s.cnt + 1)
        exact ⟨_, e.trans h, 1, [], .goesOn this (Or.inl ⟨hph, rfl, h7⟩)⟩
      · exact ⟨_, e.trans h, 1, _, .goesOn (Moved.of 7 hl hc hp v.pol 0)
          (Or.inl ⟨hph, rfl, by rw [State.setCnt_cnt]; decide⟩)⟩
      · exact ⟨_, e.trans h, 1, _,
          .goesOn (Moved.of s.cnt hl hc hp (!v.pol) 1)
          (Or.inl ⟨hph, rfl, by rw [State.setCnt_cnt]; decide⟩)⟩
      · exact ⟨_, e.trans h, 1, _, .overflows v hmv hb' rfl⟩
    · rw [ha] at e
      rcases encFinish_spec hm hl hr hw with ⟨-, v, n, -, hmv, hb', -, h⟩ | ⟨-, v, bs, hmv, hb', h⟩
      · exact ⟨_, e.trans h, 0, _, .completes v hmv hb' rfl⟩
      · exact ⟨_, e.trans h, 0, _, .overflows v hmv hb' rfl⟩
  · have e : engineStep s = if s.codeAvail then decCode s else decFinish s := by
      unfold engineStep; rw [hph]
    cases ha : s.codeAvail
    · rw [ha] at e
      obtain ⟨v, n, -, hmv, hb', -, -, h⟩ := decFinish_spec hm hl hr hw
      exact ⟨_, e.trans h, 0, _, .completes v hmv hb' rfl⟩
    · rw [ha] at e
      rcases decCode_spec hp hm hl hr hw ha _ rfl with ⟨-, t, hmv, -, -, h⟩ | ⟨-, t, bs, hmv, hb', h⟩
      · exact ⟨_, e.trans h, 3, _, .goesOn hmv (Or.inr ⟨hph, rfl⟩)⟩
      · exact ⟨_, e.trans h, 3, _, .overflows t hmv hb' rfl⟩

end Sys2Proof.Machine
end

