-- ==== Sys2Proof/Laws/Host.lean ====
section
/-!
SUPPORT. The register map; what an accepted START, a host access, a reset and a step with no command can
do, each said once; and the tests of the acceptance as facts about every byte of the regions.
-/

namespace Sys2Proof.Machine

/-! ## The register map -/

/-- Registers are at least four bytes apart (`10_state.md` R28). -/
theorem stride_ge (p : Widths) : 4 ≤ p.stride := by
  unfold Widths.stride; split <;> omega

/-- A register is found at its own offset only. -/
theorem Reg.eq_offset_of_ofOffset {p : Widths} {off : Nat} {r : Reg} (h : Reg.ofOffset p off = some r) :
    off = r.offset p := by
  unfold Reg.ofOffset at h
  split at h
  · next h0 =>
    suffices hi : off / p.stride = r.index by
      unfold Reg.offset
      rw [← hi, Nat.mul_div_cancel' (Nat.dvd_of_mod_eq_zero h0)]
    revert h
    unfold Reg.ofIndex
    split <;> intro h <;> cases h <;> assumption
  · cases h

/-! ## Regions -/

theorem plainReadable_iff (ws : List Window) (lo len : Nat) :
    plainReadable ws lo len = true
      ↔ ∀ i, i < len → ∀ w ∈ ws, w.Covers (lo + i) → w.readable = true := by
  unfold plainReadable rangesMeet Window.Covers
  simp only [List.all_eq_true, Bool.or_eq_true, Bool.not_eq_true', decide_eq_false_iff_not]
  refine ⟨fun h i hi w hw hc => (h w hw).resolve_right (by omega), fun h w hw => ?_⟩
  by_cases hr : w.readable = true
  · exact Or.inl hr
  · exact Or.inr fun hm => hr (h (max lo w.base - lo) (by omega) w hw (by omega))

theorem plainWritable_iff (ws : List Window) (lo len : Nat) :
    plainWritable ws lo len = true
      ↔ ∀ i, i < len → ∀ w ∈ ws, w.Covers (lo + i) → w.writable = true := by
  unfold plainWritable rangesMeet Window.Covers
  simp only [List.all_eq_true, Bool.or_eq_true, Bool.not_eq_true', decide_eq_false_iff_not]
  refine ⟨fun h i hi w hw hc => (h w hw).resolve_right (by omega), fun h w hw => ?_⟩
  by_cases hr : w.writable = true
  · exact Or.inl hr
  · exact Or.inr fun hm => hr (h (max lo w.base - lo) (by omega) w hw (by omega))

theorem rangesMeet_eq_false_iff (lo1 n1 lo2 n2 : Nat) :
    rangesMeet lo1 n1 lo2 n2 = false ↔ ∀ i, i < n1 → ∀ j, j < n2 → lo1 + i ≠ lo2 + j := by
  unfold rangesMeet
  rw [decide_eq_false_iff_not]
  refine ⟨fun h i hi j hj => by omega, fun h hm => ?_⟩
  exact h (max lo1 lo2 - lo1) (by omega) (max lo1 lo2 - lo2) (by omega) (by omega)

/-- Legality depends on the parameters, the operand registers and the platform's map alone. -/
theorem State.Legal.congr {s t : State} (h0 : t.widths = s.widths) (h1 : t.srcAddr = s.srcAddr)
    (h2 : t.srcLen = s.srcLen) (h3 : t.dstAddr = s.dstAddr) (h4 : t.dstLen = s.dstLen)
    (h5 : t.windows = s.windows) :
    s.Legal → t.Legal := by
  unfold State.Legal State.LengthsLegal State.RegionsFit State.RegionsPlain State.RegionsDisjoint
  rw [h0, h1, h2, h3, h4, h5]; exact id

/-! ## The four tests of the acceptance -/

theorem State.lengthsOk_iff (s : State) : s.lengthsOk = true ↔ s.LengthsLegal := by
  unfold State.lengthsOk
  rw [Bool.and_eq_true, decide_eq_true_eq, decide_eq_true_eq]

theorem State.noWrap_iff (s : State) : s.noWrap = true ↔ s.RegionsFit := by
  unfold State.noWrap
  rw [Bool.and_eq_true, decide_eq_true_eq, decide_eq_true_eq]

theorem State.plainRegions_iff (s : State) : s.plainRegions = true ↔ s.RegionsPlain := by
  unfold State.plainRegions
  rw [Bool.and_eq_true, plainReadable_iff, plainWritable_iff]

theorem State.disjointRegions_iff (s : State) : s.disjointRegions = true ↔ s.RegionsDisjoint := by
  unfold State.disjointRegions
  rw [Bool.not_eq_true', rangesMeet_eq_false_iff]

/-! ## Steps -/

/-- In IDLE and DONE the engine's step changes nothing (`43_commands.md` R207). -/
theorem engineStep_of_not_busy {s : State} (hb : s.busy = false) : engineStep s = .next s := by
  unfold engineStep; revert hb; unfold State.busy; cases s.phase <;> simp

/-- A step is the engine's, or one of the host's actions with the rest of them still to come. -/
theorem step_cases {s : State} {o : Host.Outcome State Fault Refusal} (h : step s = o) :
    (s.host = [] ∧ engineStep s = o) ∨ ∃ a rest, s.host = a :: rest ∧ hostAct a (s.setHost rest) = o := by
  unfold step at h
  split at h
  · next hh => exact Or.inl ⟨hh, h⟩
  · next a rest hh => exact Or.inr ⟨a, rest, hh, h⟩

/-- Everything a START can do when it answers a next state (`43_commands.md` R201, R202). -/
theorem start_cases {o : Op} {s t : State} (h : start o s = .next t) :
    (s.busy = true ∧ t = s)
      ∨ (s.busy = false ∧ s.written.srcLen = true ∧ s.srcLen = 0 ∧ t = (s.acceptStart o).completeEmpty)
      ∨ (s.busy = false ∧ s.srcLen ≠ 0 ∧ s.illegal = none ∧ t = (s.acceptStart o).startWork o) := by
  unfold start at h
  split at h
  · next hb => cases h; exact Or.inl ⟨hb, rfl⟩
  · next hb =>
    have hb' : s.busy = false := by simpa using hb
    split at h
    · cases h
    · next hw =>
      split at h
      · next hz => cases h; exact Or.inr (Or.inl ⟨hb', by simpa using hw, hz, rfl⟩)
      · next hz =>
        split at h
        · cases h
        · next hl => cases h; exact Or.inr (Or.inr ⟨hb', hz, hl, rfl⟩)

/-- A word written to CTRL that is a command runs one of the two STARTs (`30_encoding.md` R106). -/
theorem decodeCtrl_cases {w : Nat} {i : Instr} (h : decode (.ctrl w) = .ok i) :
    w.testBit 0 = true ∧ ((w.testBit 1 = false ∧ i = .encode) ∨ (w.testBit 1 = true ∧ i = .decode)) := by
  unfold decode decodeCtrl at h
  simp only at h
  split at h
  · next h0 =>
    split at h
    · next h1 => cases h; exact ⟨h0, Or.inr ⟨h1, rfl⟩⟩
    · next h1 => cases h; exact ⟨h0, Or.inl ⟨Bool.eq_false_of_not_eq_true h1, rfl⟩⟩
  · cases h

/-! ## Reset -/

theorem freeBytes_wf {p : Widths} {m : Memory} (b : Nat) (c : Nat) (hm : m.wf p.addrSpace = true) :
    ∀ n, (freeBytes p m b c n).wf p.addrSpace = true
  | 0 => hm
  | n + 1 => Memory.write_wf _ (Widths.narrowAddr_lt p _) (freeBytes_wf b c hm n)

/-- Free values land in their own bytes only. -/
theorem freeBytes_read {p : Widths} {m : Memory} (b : Nat) (c : Nat) (hm : m.wf p.addrSpace = true)
    (a : Nat) : ∀ n, (∀ i, i < n → a ≠ p.narrowAddr (b + i)) → (freeBytes p m b c n).read a = m.read a
  | 0, _ => rfl
  | n + 1, h => by
    show ((freeBytes p m b c n).write _ _).read a = _
    rw [Memory.read_write_other _ (freeBytes_wf b c hm n) (h n (by omega))]
    exact freeBytes_read b c hm a n fun i hi => h i (by omega)

end Sys2Proof.Machine
end

