-- ==== Sys2Proof/Laws/PerInstr.lean ====
section
/-!
SUPPORT. What holds of each instruction as syntax: the word the encoder gives it.
-/

namespace Sys2Proof.Laws.WordOf

/-- The word of a code is the number of bits it emits (`30_encoding.md` R90, R94: "the whole code is the
operand"), and the word of a command is a CTRL word with START = 1 in the form the encoder writes
(`30_encoding.md` R106). -/
def Statement (i : Instr) : Prop :=
  (encode i).wellFormed = true ∧
    match encode i with
    | .code3 v => i.isCode = true ∧ v.toNat = i.runLength
    | .ctrl w => i.isCode = false ∧ w.testBit 0 = true

theorem run0 : Statement .run0 := ⟨rfl, rfl, rfl⟩
theorem run1 : Statement .run1 := ⟨rfl, rfl, rfl⟩
theorem run2 : Statement .run2 := ⟨rfl, rfl, rfl⟩
theorem run3 : Statement .run3 := ⟨rfl, rfl, rfl⟩
theorem run4 : Statement .run4 := ⟨rfl, rfl, rfl⟩
theorem run5 : Statement .run5 := ⟨rfl, rfl, rfl⟩
theorem run6 : Statement .run6 := ⟨rfl, rfl, rfl⟩
theorem run7c : Statement .run7c := ⟨rfl, rfl, rfl⟩
theorem encode : Statement .encode := ⟨rfl, rfl, rfl⟩
theorem decode : Statement .decode := ⟨rfl, rfl, rfl⟩

end Sys2Proof.Laws.WordOf
end

