-- ==== Sys2Proof/Tests/Slice0.lean ====
section
/-!
SUPPORT. Tests: ill-formed terms the checks refuse, words written out from the spec's encodings, single
steps against `95_test_vectors.md` and the worked examples of the rules, and, for every statement with
hypotheses, a state that meets them.
-/

namespace Sys2Proof.Tests

open Sys2Proof Sys2Proof.Machine Sys2Proof.Contract

/-! ## Helpers -/

/-- The next state of an outcome, if it has one. -/
def nextOf : Host.Outcome State Fault Refusal → Option State
  | .next s => some s
  | .fault _ => none
  | .refused _ => none

/-- The refusal of an outcome, if it has one. -/
def refusalOf : Host.Outcome State Fault Refusal → Option Refusal
  | .next _ => none
  | .fault _ => none
  | .refused r => some r

/-- A machine with the operands of `95_test_vectors.md` (SRC_ADDR 0x1000, DST_ADDR 0x2000) written, and
one or two source bytes in memory. -/
def ready (s0 s1 : Byte) (n cap : Nat) : State :=
  { State.reset with
    srcAddr := 0x1000, srcLen := n, dstAddr := 0x2000, dstLen := cap
    written := ⟨true, true, true, true⟩
    mem := Memory.write (Memory.write [] 0x1000 s0) 0x1001 s1 }

/-- The same with an ENCODE begun. -/
def inEnc (s0 s1 : Byte) (n cap : Nat) : State := { ready s0 s1 n cap with phase := .enc }

/-- The same with a DECODE begun. -/
def inDec (s0 s1 : Byte) (n cap : Nat) : State :=
  { ready s0 s1 n cap with phase := .dec, op := .decode }

/-- A state with these actions of the host still to come. -/
def withHost (s : State) (l : List HostAction) : State := { s with host := l }

/-! ## Well-formedness: an ill-formed term for each check -/

theorem test_wf_ctrl_needs_start : (InstrWord.ctrl 0b10).wellFormed = false := by decide
theorem test_wf_ctrl_no_reserved : (InstrWord.ctrl 0b101).wellFormed = false := by decide
theorem test_wf_no_zero_after_closing : canonicalCodes [2, 0, 3] = false := by decide
theorem test_wf_no_trailing_continuation : canonicalCodes [0, 7] = false := by decide
theorem test_wf_empty_stream : canonicalCodes [] = false := by decide
theorem test_wf_canonical : canonicalCodes [1, 7, 0] = true := by decide
theorem test_wf_command_is_no_code : Instr.encode.isCode = false := by decide
theorem test_wf_every_instr : [Instr.run0, .run7c, .encode, .decode].all Instr.wellFormed = true := by
  decide
/-- A memory of the default parameters in its canonical form. -/
def wf (m : Memory) : Bool := m.wf Config.widths.addrSpace

theorem test_wf_memory_order : wf [(5, 1), (3, 1)] = false := by decide
theorem test_wf_memory_repeat : wf [(5, 1), (5, 2)] = false := by decide
theorem test_wf_memory_default : wf [(5, Config.unwrittenByte)] = false := by decide
theorem test_wf_widths_address : Widths.wellFormed ⟨0, 2⟩ = false := by decide
theorem test_wf_widths_length : Widths.wellFormed ⟨1, 1⟩ = false := by decide
theorem test_wf_memory_space : wf [(Config.widths.addrSpace, 1)] = false := by decide

/-! ## Decoding: words written out from `30_encoding.md` R94, R106, one per constructor -/

theorem test_decode_run0 : decode (.code3 0b000) = .ok .run0 := rfl
theorem test_decode_run1 : decode (.code3 0b001) = .ok .run1 := rfl
theorem test_decode_run2 : decode (.code3 0b010) = .ok .run2 := rfl
theorem test_decode_run3 : decode (.code3 0b011) = .ok .run3 := rfl
theorem test_decode_run4 : decode (.code3 0b100) = .ok .run4 := rfl
theorem test_decode_run5 : decode (.code3 0b101) = .ok .run5 := rfl
theorem test_decode_run6 : decode (.code3 0b110) = .ok .run6 := rfl
theorem test_decode_run7c : decode (.code3 0b111) = .ok .run7c := rfl
theorem test_decode_encode : decode (.ctrl 0b01) = .ok .encode := rfl
theorem test_decode_decode : decode (.ctrl 0b11) = .ok .decode := rfl
/-- `95_test_vectors.md` 2.6: reserved bits of CTRL are ignored. -/
theorem test_decode_reserved : decode (.ctrl 0xFFFFFFFD) = .ok .encode := rfl
theorem test_decode_no_start : decode (.ctrl 0b10) = .error .noStart := rfl
/-- `95_test_vectors.md` P2: B6 DB is five codes 5, the middle one across the byte boundary. -/
theorem test_decode_straddling :
    decodeStream [0xB6, 0xDB] = [.run5, .run5, .run5, .run5, .run5] := by decide
/-- `30_encoding.md` R108: the source's example. -/
theorem test_stream_example : encodeStream [5, 3] = [0xAC] := by decide
theorem test_table_code : decodeTableWord 3 6 = some .run6 := by decide
theorem test_table_command : decodeTableWord 2 3 = some .decode := by decide
theorem test_fetch_code_runs :
    (nextOf (step (State.reset.withFetchWord 3 0))).map (fun t => (t.pol, t.rd)) = some (true, ⟨0, 3⟩) := by
  decide
theorem test_fetch_command_runs :
    (nextOf (step (State.reset.withFetchWord 2 3))).map (fun t => (t.op, t.phase))
      = some (.decode, .done) := by decide

/-! ## The eight codes (`95_test_vectors.md` 2.4, at polarity 1) -/

/-- What a code leaves of polarity, accumulator and write cursor, started at polarity 1 and position 0.
-/
def codeResult (i : Instr) : Option (Bool × Byte × Cursor) :=
  (nextOf (exec i { inDec 0 0 1 1 with pol := true })).map fun t => (t.pol, t.wacc, t.wr)

theorem test_run0 : codeResult .run0 = some (false, 0x00, ⟨0, 0⟩) := by decide
theorem test_run1 : codeResult .run1 = some (false, 0x80, ⟨0, 1⟩) := by decide
theorem test_run2 : codeResult .run2 = some (false, 0xC0, ⟨0, 2⟩) := by decide
theorem test_run3 : codeResult .run3 = some (false, 0xE0, ⟨0, 3⟩) := by decide
theorem test_run4 : codeResult .run4 = some (false, 0xF0, ⟨0, 4⟩) := by decide
theorem test_run5 : codeResult .run5 = some (false, 0xF8, ⟨0, 5⟩) := by decide
theorem test_run6 : codeResult .run6 = some (false, 0xFC, ⟨0, 6⟩) := by decide
theorem test_run7c : codeResult .run7c = some (true, 0xFE, ⟨0, 7⟩) := by decide

/-- `95_test_vectors.md` P2 step 2: RUN5 at polarity 1 from (0, 5) writes 07 and leaves C0 at (1, 2). -/
theorem test_run5_crosses :
    (nextOf (exec .run5 { inDec 0 0 2 4 with pol := true, wr := ⟨0, 5⟩ })).map
      (fun t => (t.mem.read 0x2000, t.wacc, t.wr)) = some (0x07, 0xC0, ⟨1, 2⟩) := by decide

/-- `95_test_vectors.md` 2.5: DECODE FF with DST_LEN 1 overflows in its second RUN7C, after writing 00.
-/
theorem test_run7c_overflows :
    (nextOf (exec .run7c { inDec 0xFF 0 1 1 with wr := ⟨0, 7⟩ })).map
      (fun t => (t.result, t.statusWord, t.wr, t.bus))
      = some (0xFFFFFFFF, 0b110, ⟨1, 0⟩, [.write 0x2000 0]) := by decide

/-! ## The commands (`95_test_vectors.md` 2.6, P5) -/

theorem test_encode_starts :
    (nextOf (exec .encode (ready 7 0 1 1))).map (fun t => (t.phase, t.statusWord)) = some (.enc, 1) := by
  decide

/-- START clears DONE and OVF of the command before. -/
theorem test_decode_starts :
    (nextOf (exec .decode { ready 7 0 1 1 with phase := .done, statusOvf := true })).map
      (fun t => (t.phase, t.statusWord)) = some (.dec, 1) := by decide

/-- P5: only SRC_LEN has been written, with 0. -/
theorem test_zero_length :
    (nextOf (exec .decode { State.reset with written := ⟨false, true, false, false⟩ })).map
      (fun t => (t.result, t.statusWord)) = some (0, 0b010) := by decide

theorem test_overlap_refused :
    refusalOf (exec .encode { ready 7 0 2 1 with dstAddr := 0x1001 }) = some .regionsOverlap := by
  decide

/-! ## The primitives and the engine's steps -/

/-- `40_bit_cursor.md` R124: from (0, 6) with S[0] = 03, S[1] = 80, get_code returns 7, cursor (1, 1).
-/
theorem test_get_code_straddles :
    (fun r : Code × State => (r.1, r.2.rd, r.2.bus))
        (getCode { inDec 0x03 0x80 2 1 with rd := ⟨0, 6⟩, rbuf := 0x03 })
      = (7, ⟨1, 1⟩, [.read 0x1001]) := by decide

/-- `40_bit_cursor.md` R126: from (0, 6) with wacc E4, put_code(7) writes E7 and leaves 80 at (1, 1). -/
theorem test_put_code_straddles :
    (nextOf (putCode 7 { inEnc 0 0 1 2 with wr := ⟨0, 6⟩, wacc := 0xE4 }).outcome).map
      (fun t => (t.mem.read 0x2000, t.wacc, t.wr)) = some (0xE7, 0x80, ⟨1, 1⟩) := by decide

/-- `95_test_vectors.md` P1 step 6: the first 1 bit of 07 emits code 5. -/
theorem test_enc_scan_closes :
    (nextOf (engineStep { inEnc 7 0 1 1 with rd := ⟨0, 5⟩, rbuf := 7, cnt := 5 })).map
      (fun t => (t.rd, t.wr, t.wacc, t.pol, t.cnt)) = some (⟨0, 6⟩, ⟨0, 3⟩, 0xA0, true, 1) := by decide

/-- `41_encoder.md` R156 SCAN 7: the seventh 0 bit emits code 7 at once. -/
theorem test_enc_scan_seventh :
    (nextOf (engineStep { inEnc 0 0 1 1 with rd := ⟨0, 6⟩, rbuf := 0, cnt := 6 })).map
      (fun t => (t.rd, t.wr, t.wacc, t.pol, t.cnt)) = some (⟨0, 7⟩, ⟨0, 3⟩, 0xE0, false, 0) := by decide

/-- `95_test_vectors.md` P1 step 9. -/
theorem test_enc_finish :
    (nextOf (engineStep
        { inEnc 7 0 1 1 with rd := ⟨1, 0⟩, wr := ⟨0, 3⟩, wacc := 0xA0, pol := true, cnt := 3 })).map
      (fun t => (t.mem.read 0x2000, t.result, t.statusWord)) = some (0xAC, 1, 0b010) := by decide

/-- `95_test_vectors.md` P2 step 6: one bit left, flush writes 00, RESULT 4. -/
theorem test_dec_finish :
    (nextOf (engineStep
        { inDec 0xB6 0xDB 2 4 with rd := ⟨1, 7⟩, rbuf := 0xDB, wr := ⟨3, 1⟩, pol := true })).map
      (fun t => (t.bus, t.result, t.statusWord)) = some ([.write 0x2003 0], 4, 0b010) := by decide

/-! ## The contract against `95_test_vectors.md` 2.2, 2.3 and 2.5 -/

theorem test_encode_fn_7f : encodeFn [0x7F] 2 = some [0x3C, 0x00] := by decide
theorem test_encode_fn_7f_short : encodeFn [0x7F] 1 = none := by decide
theorem test_decode_fn_b6db : decodeFn [0xB6, 0xDB] 4 = some [0x07, 0xC1, 0xF0, 0x00] := by decide
theorem test_decode_fn_zero : decodeFn [0x00] 0 = some [] := by decide

/-! ## The host's accesses (`95_test_vectors.md` 2.6) -/

theorem test_host_write_while_busy :
    (nextOf (step (withHost (inDec 0 0 1 1) [.writeReg 0x04 5]))).map (·.srcLen) = some 1 := by decide

theorem test_host_reads_status :
    (nextOf (step (withHost (inDec 0 0 1 1) [.readReg 0x14]))).map (·.hostData) = some 1 := by decide

theorem test_reset_while_busy_idles :
    (nextOf (step (withHost (inDec 0 0 1 1) [.reset]))).map (fun t => (t.phase, t.statusWord))
      = some (.idle, 0) := by decide

/-! ## Other parameters (`00_scope.md` R7) -/

/-- A machine after reset with other parameters and these actions of the host to come. -/
def fresh (p : Widths) (l : List HostAction) : State := withHost (State.resetWith p []) l

/-- `00_scope.md` R9: a write of more bits than the register has is truncated to its width. -/
theorem test_write_narrows :
    (nextOf (step (fresh ⟨16, 8⟩ [.writeReg 0x04 0x1FF]))).map (·.srcLen) = some 0xFF := by decide

/-- `10_state.md` R28: with a 64-bit address the registers are 8 bytes apart, so 0x04 is no register and
SRC_LEN is at 0x08. -/
theorem test_wide_map :
    Reg.ofOffset ⟨64, 32⟩ 0x08 = some .srcLen ∧ Reg.ofOffset ⟨64, 32⟩ 0x04 = none := by decide

/-- `43_commands.md` R208 L1 at LW = 8: the largest length is 127. -/
theorem test_narrow_length_refused :
    refusalOf (exec .encode { ready 7 0 128 1 with widths := ⟨16, 8⟩ }) = some .lengthTopBitSet := by
  decide

/-- `60_exceptions.md` R221 at LW = 8: -1 is 0xFF. -/
theorem test_narrow_overflow :
    (nextOf (exec .run1 { inDec 0 0 1 0 with widths := ⟨16, 8⟩ })).map (·.result) = some 0xFF := by
  decide

/-! ## Witnesses: a state that meets the hypotheses of each statement, clause by clause -/

/-- A write position of the output stream. -/
def posAt (p : Nat) : Cursor := ⟨p / 8, BitVec.ofNat 3 p⟩

/-- An ENCODE of one byte about to take its seventh or eighth input bit, at a write position. -/
def scanning (s0 : Byte) (bit cnt : BitVec 3) (p : Nat) : State :=
  { inEnc s0 0 1 1 with rd := ⟨0, bit⟩, rbuf := s0, cnt := cnt, wr := posAt p, bus := [.read 0x1000] }

/-- A DECODE of the byte AC after its two codes, at a write position. -/
def expanded (p : Nat) : State :=
  { inDec 0xAC 0 1 1 with rd := ⟨0, 6⟩, rbuf := 0xAC, wr := posAt p, bus := [.read 0x1000] }

/-- The smallest parameters that are admitted, and wide ones. -/
theorem witness_InvariantsHoldAtReset :
    Widths.wellFormed ⟨1, 2⟩ = true ∧ Widths.wellFormed ⟨64, 64⟩ = true := by decide

theorem witness_StepKeepsInvariant :
    (inEnc 7 0 1 1).Inv ∧ ∃ t, step (inEnc 7 0 1 1) = .next t := ⟨by decide, _, rfl⟩

theorem witness_StepKeepsAccessPattern :
    (scanning 7 5 5 0).Inv ∧ (scanning 7 5 5 0).BusPattern ∧ ∃ t, step (scanning 7 5 5 0) = .next t :=
  ⟨by decide, by decide, _, rfl⟩

theorem witness_StepKeepsPlatformMap :
    ∃ t, step { inEnc 7 0 1 1 with windows := [⟨0, 16, true, false⟩] } = .next t := ⟨_, rfl⟩

theorem witness_StepRunsTheDecodedCode :
    (inDec 0xAC 0 1 1).phase = .dec ∧ (inDec 0xAC 0 1 1).codeAvail = true
      ∧ decode (.code3 (getCode (inDec 0xAC 0 1 1)).1) = .ok .run5 ∧ (inDec 0xAC 0 1 1).host = [] := by
  decide

theorem witness_StepRunsTheDecodedCode_wait :
    (withHost (inDec 0xAC 0 1 1) [.wait]).phase = .dec
      ∧ (withHost (inDec 0xAC 0 1 1) [.wait]).host = .wait :: []
      ∧ (withHost (inDec 0xAC 0 1 1) [.wait]).codeAvail = true
      ∧ decode (.code3 (getCode ((withHost (inDec 0xAC 0 1 1) [.wait]).setHost [])).1) = .ok .run5 := by
  decide

theorem witness_StepRunsTheDecodedCommand :
    (withHost (ready 7 0 1 1) [.writeReg 0x10 3]).host = .writeReg 0x10 3 :: []
      ∧ decode (.ctrl 3) = .ok .decode := ⟨rfl, rfl⟩

theorem witness_DecodeInvertsEncode : Instr.run7c.wellFormed = true ∧ Instr.decode.wellFormed = true := by
  decide

theorem witness_EncodeInvertsDecode :
    ((InstrWord.code3 7).wellFormed = true ∧ decode (.code3 7) = .ok .run7c)
      ∧ (InstrWord.ctrl 3).wellFormed = true ∧ decode (.ctrl 3) = .ok .decode :=
  ⟨⟨rfl, rfl⟩, rfl, rfl⟩

/-- For each length, the last position at which it fits in one byte. -/
theorem witness_runs_that_fit : ∀ k ∈ [1, 2, 3, 4, 5, 6, 7],
    (expanded (8 - k)).memWf = true ∧ (expanded (8 - k)).WriteOk
      ∧ (expanded (8 - k)).wr.pos + k ≤ 8 * (expanded (8 - k)).dstLen := by decide

/-- For each length, the first position at which it does not. -/
theorem witness_runs_that_do_not_fit : ∀ k ∈ [1, 2, 3, 4, 5, 6, 7],
    (expanded (9 - k)).memWf = true ∧ (expanded (9 - k)).WriteOk
      ∧ 8 * (expanded (9 - k)).dstLen < (expanded (9 - k)).wr.pos + k := by decide

theorem witness_CodesFrame :
    Instr.run5.isCode = true ∧ (expanded 2).memWf = true ∧ (∃ t, exec .run5 (expanded 2) = .next t)
      ∧ (expanded 2).wr.bit.toNat + Instr.run5.runLength < 8 := ⟨rfl, by decide, ⟨_, rfl⟩, by decide⟩

theorem witness_CodesFrame_storing :
    (∃ t, exec .run5 (expanded 3) = .next t)
      ∧ ¬(expanded 3).wr.bit.toNat + Instr.run5.runLength < 8 := ⟨⟨_, rfl⟩, by decide⟩

theorem witness_OverflowEntry : (expanded 8).wr.byte = (expanded 8).dstLen := by decide

theorem witness_Ready : (ready 7 0 1 1).Ready := by decide

/-- The largest address a region may reach, and a destination of length 0 inside the source. -/
theorem witness_Ready_boundary :
    { ready 7 0 1 0 with srcAddr := 0xFFFFFFFF, dstAddr := 0xFFFFFFFF }.Ready := by decide

theorem witness_ZeroLengthCommandCompletes :
    (ready 7 0 0 1).busy = false ∧ (ready 7 0 0 1).written.srcLen = true ∧ (ready 7 0 0 1).srcLen = 0 := by
  decide

theorem witness_StartWhileBusyIgnored : (inDec 7 0 1 1).busy = true ∧ (inEnc 7 0 1 1).busy = true := by
  decide

theorem witness_CtrlWithoutStartDoesNothing :
    (withHost (inEnc 7 0 1 1) [.writeReg 0x10 2]).host = .writeReg 0x10 2 :: []
      ∧ (2 : Nat).testBit 0 = false := ⟨rfl, by decide⟩

theorem witness_CommandsFrame :
    (∃ t, exec .encode (ready 7 0 1 1) = .next t) ∧ ∃ t, exec .decode (ready 7 0 1 1) = .next t :=
  ⟨⟨_, rfl⟩, _, rfl⟩

theorem witness_IllegalCommands_unwritten :
    (let s : State := { ready 7 0 1 1 with written := ⟨true, true, true, false⟩ }
     s.busy = false ∧ s.srcLen ≠ 0 ∧ ¬(s.written.all = true ∧ s.Legal)) := by decide

theorem witness_IllegalCommands_length :
    (let s : State := ready 7 0 0x80000000 1
     s.busy = false ∧ s.srcLen ≠ 0 ∧ ¬(s.written.all = true ∧ s.Legal)) := by decide

theorem witness_IllegalCommands_wrap :
    (let s : State := { ready 7 0 2 1 with srcAddr := 0xFFFFFFFF }
     s.busy = false ∧ s.srcLen ≠ 0 ∧ ¬(s.written.all = true ∧ s.Legal)) := by decide

theorem witness_IllegalCommands_map :
    (let s : State := { ready 7 0 1 1 with windows := [⟨0x2000, 1, true, false⟩] }
     s.busy = false ∧ s.srcLen ≠ 0 ∧ ¬(s.written.all = true ∧ s.Legal)) := by decide

theorem witness_IllegalCommands_overlap :
    (let s : State := { ready 7 0 2 1 with dstAddr := 0x1001 }
     s.busy = false ∧ s.srcLen ≠ 0 ∧ ¬(s.written.all = true ∧ s.Legal)) := by decide

/-- SRC_LEN never written, holding 0 and holding 1. -/
theorem witness_RefusedStarts_length_unwritten : ∀ n ∈ [0, 1],
    (let s : State := { ready 7 0 n 1 with written := ⟨true, false, true, true⟩ }
     s.busy = false ∧ s.written.srcLen = false) := by decide

theorem witness_RefusedStarts_operand_unwritten :
    (let s : State := { ready 7 0 1 1 with written := ⟨true, true, true, false⟩ }
     s.busy = false ∧ s.srcLen ≠ 0 ∧ s.written.all = false) := by decide

/-- The first length that is too long. -/
theorem witness_RefusedStarts_length :
    (let s : State := ready 7 0 0x80000000 1
     s.busy = false ∧ s.srcLen ≠ 0 ∧ s.written.all = true ∧ ¬s.LengthsLegal) := by decide

/-- The first address that is too high. -/
theorem witness_RefusedStarts_wrap :
    (let s : State := { ready 7 0 2 1 with srcAddr := 0xFFFFFFFF }
     s.busy = false ∧ s.srcLen ≠ 0 ∧ s.written.all = true ∧ s.LengthsLegal ∧ ¬s.RegionsFit) := by
  decide

theorem witness_RefusedStarts_map :
    (let s : State := { ready 7 0 1 1 with windows := [⟨0x2000, 1, true, false⟩] }
     s.busy = false ∧ s.srcLen ≠ 0 ∧ s.written.all = true ∧ s.LengthsLegal ∧ s.RegionsFit
       ∧ ¬s.RegionsPlain) := by decide

/-- Regions that share one byte, the last of the source. -/
theorem witness_RefusedStarts_overlap :
    (let s : State := { ready 7 0 2 1 with dstAddr := 0x1001 }
     s.busy = false ∧ s.srcLen ≠ 0 ∧ s.written.all = true ∧ s.LengthsLegal ∧ s.RegionsFit
       ∧ s.RegionsPlain ∧ ¬s.RegionsDisjoint) := by decide

/-- Three, two and no bits left. -/
theorem witness_BitsLeftTests : ∀ p ∈ [5, 6, 8],
    (let s : State := { inDec 7 0 1 1 with rd := posAt p, rbuf := 7 }
     s.widths.wellFormed = true ∧ s.ReadOk ∧ s.srcLen ≤ s.widths.maxLen ∧ s.phase = .dec) := by decide

theorem witness_BitsLeftTests_enc : ∀ p ∈ [7, 8],
    (let s : State := { inEnc 7 0 1 1 with rd := posAt p, rbuf := 7 }
     s.widths.wellFormed = true ∧ s.ReadOk ∧ s.srcLen ≤ s.widths.maxLen ∧ s.phase = .enc) := by decide

/-- The last code of a byte, and a code across the byte boundary. -/
theorem witness_GetCodeReadsThreeBits : ∀ p ∈ [5, 6],
    (let s : State := { inDec 3 0x80 2 1 with rd := posAt p, rbuf := 3 }
     s.widths.wellFormed = true ∧ s.ReadOk ∧ s.srcLen ≤ s.widths.maxLen ∧ s.codeAvail = true) := by decide

theorem witness_EncScanStep_counts :
    (let s := scanning 7 4 4 0
     s.Inv ∧ s.phase = .enc ∧ s.atEnd = false ∧ s.srcBit s.rd.pos = s.pol ∧ s.cnt ≠ 6) :=
  ⟨by decide, by decide⟩

/-- The last position at which a code fits. -/
theorem witness_EncScanStep_seventh :
    (let s := scanning 0 6 6 5
     s.Inv ∧ s.phase = .enc ∧ s.atEnd = false ∧ s.srcBit s.rd.pos = s.pol ∧ s.cnt = 6
       ∧ s.wr.pos + 3 ≤ 8 * s.dstLen) := ⟨by decide, by decide⟩

theorem witness_EncScanStep_closes :
    (let s := scanning 7 5 5 5
     s.Inv ∧ s.phase = .enc ∧ s.atEnd = false ∧ s.srcBit s.rd.pos ≠ s.pol
       ∧ s.wr.pos + 3 ≤ 8 * s.dstLen) := ⟨by decide, by decide⟩

/-- The first position at which a code does not fit. -/
theorem witness_EncScanStep_overflows_closing :
    (let s := scanning 7 5 5 6
     s.Inv ∧ s.phase = .enc ∧ s.atEnd = false ∧ s.srcBit s.rd.pos ≠ s.pol
       ∧ 8 * s.dstLen < s.wr.pos + 3) := ⟨by decide, by decide⟩

theorem witness_EncScanStep_overflows_seventh :
    (let s := scanning 0 6 6 6
     s.Inv ∧ s.phase = .enc ∧ s.atEnd = false ∧ s.srcBit s.rd.pos = s.pol ∧ s.cnt = 6
       ∧ 8 * s.dstLen < s.wr.pos + 3) := ⟨by decide, by decide⟩

/-- An ENCODE of one byte at its end, at a write position. -/
def scanned (p : Nat) : State :=
  { inEnc 7 0 1 1 with rd := ⟨1, 0⟩, rbuf := 7, cnt := 3, wr := posAt p, bus := [.read 0x1000] }

theorem witness_EncFinishStep_fits :
    (scanned 5).Inv ∧ (scanned 5).phase = .enc ∧ (scanned 5).atEnd = true
      ∧ (scanned 5).wr.pos + 3 ≤ 8 * (scanned 5).dstLen := ⟨by decide, by decide⟩

theorem witness_EncFinishStep_overflows :
    (scanned 6).Inv ∧ (scanned 6).phase = .enc ∧ (scanned 6).atEnd = true
      ∧ 8 * (scanned 6).dstLen < (scanned 6).wr.pos + 3 := ⟨by decide, by decide⟩

/-- With a partial byte waiting, and with none. -/
theorem witness_DecFinishStep :
    (expanded 1).Inv ∧ (expanded 8).Inv
      ∧ ∀ p ∈ [1, 8], (expanded p).phase = .dec ∧ (expanded p).codeAvail = false :=
  ⟨by decide, by decide, by decide⟩

theorem witness_DecFinishStep_no_partial_byte : (expanded 8).wr.bit = 0 := by decide

theorem witness_EngineStaysInsideItsRegions :
    (expanded 1).Inv ∧ (expanded 1).EngineNext ∧ (∃ t, step (expanded 1) = .next t)
      ∧ (expanded 1).OutsideDst 0x2001 := ⟨by decide, Or.inl rfl, ⟨_, rfl⟩, by decide⟩

theorem witness_EngineIsNeverStuck :
    (withHost (inEnc 7 0 1 1) [.wait]).Inv ∧ (withHost (inEnc 7 0 1 1) [.wait]).busy = true
      ∧ (withHost (inEnc 7 0 1 1) [.wait]).EngineNext := ⟨by decide, by decide, Or.inr ⟨[], rfl⟩⟩

theorem witness_EngineIsNeverStuck_last :
    (scanned 5).Inv ∧ (scanned 5).busy = true ∧ (scanned 5).EngineNext ∧ (scanned 5).stepsLeft = 1 :=
  ⟨by decide, by decide, Or.inl rfl, by decide⟩

theorem witness_EngineSeesOnlyTheSource :
    (let s := inEnc 7 0 1 1
     let m := s.mem.write 0x2000 5
     s.Inv ∧ s.busy = true ∧ m.wf s.widths.addrSpace = true ∧ m ≠ s.mem
       ∧ ∀ i, i < s.srcLen → m.read (s.srcByteAddr i) = s.srcByte i) := ⟨by decide, by decide⟩

theorem witness_whole_commands :
    (ready 7 0 1 1).Ready ∧ (ready 7 0 1 1).memWf = true ∧ (ready 7 0 1 1).host = [] := by decide

/-- An ENCODE that ends in overflow. -/
theorem witness_EncodeComputesItsFunction_overflow :
    (ready 7 0 1 0).Ready ∧ (ready 7 0 1 0).memWf = true ∧ (ready 7 0 1 0).host = []
      ∧ encodeFn (ready 7 0 1 0).srcBytes 0 = none := by decide

/-- A DECODE that ends in overflow. -/
theorem witness_DecodeComputesItsFunction_overflow :
    (ready 0xFF 0 1 1).Ready ∧ (ready 0xFF 0 1 1).memWf = true ∧ (ready 0xFF 0 1 1).host = []
      ∧ decodeFn (ready 0xFF 0 1 1).srcBytes 1 = none := by decide

/-- The same operands and source after an earlier command, with other memory beyond the source. -/
def laterReady : State := { ready 7 9 1 1 with phase := .done, result := 5, pol := true, cnt := 3 }

theorem witness_CommandsAreIndependent :
    (ready 7 0 1 1).Ready ∧ laterReady.Ready ∧ (ready 7 0 1 1).memWf = true
      ∧ laterReady.memWf = true ∧ (ready 7 0 1 1).host = [] ∧ laterReady.host = []
      ∧ laterReady.widths = (ready 7 0 1 1).widths
      ∧ laterReady.srcAddr = (ready 7 0 1 1).srcAddr ∧ laterReady.srcLen = (ready 7 0 1 1).srcLen
      ∧ laterReady.dstAddr = (ready 7 0 1 1).dstAddr ∧ laterReady.dstLen = (ready 7 0 1 1).dstLen
      ∧ laterReady.srcBytes = (ready 7 0 1 1).srcBytes ∧ laterReady ≠ ready 7 0 1 1 :=
  ⟨by decide, by decide, rfl, rfl, rfl, rfl, rfl, rfl, rfl, rfl, rfl, by decide, by decide⟩

theorem witness_DecodeInvertsEncodeOnBytes :
    encodeFn [0x07] 1 = some [0xAC] ∧ [(0x07 : Byte)].length ≤ 1 := by decide

/-- `41_encoder.md` R141: F0 has runs 0, 4, 4. -/
theorem witness_RunsDecomposeTheInput :
    bitsOf [0xF0] ≠ [] ∧ unruns false [0, 4, 4] = bitsOf [0xF0] ∧ ∀ x ∈ [0, 4, 4].tail, 1 ≤ x := by
  decide

theorem witness_EncodeIsCanonical : bitsOf [0x7F] ≠ [] := by decide

/-- The smallest room that always suffices for one byte. -/
theorem witness_EncodedSizeBounds : [(0xAA : Byte)] ≠ [] ∧ 3 * [(0xAA : Byte)].length + 1 ≤ 4 := by decide

theorem witness_EncodedSizeIsItsCodeCount : [(0xAA : Byte)] ≠ [] ∧ 1 ≤ 1 := by decide

theorem witness_DecodedSizeBound :
    [(0xFF : Byte)] ≠ [] ∧ (7 * (8 * [(0xFF : Byte)].length / 3) + 7) / 8 ≤ 2 := by decide

/-- `42_decoder.md` R186: AC and AF. -/
theorem witness_DecodeIgnoresTheTail :
    [(0xAF : Byte)].length = [(0xAC : Byte)].length
      ∧ (bitsOf [0xAF]).take (3 * (8 * [(0xAC : Byte)].length / 3))
        = (bitsOf [0xAC]).take (3 * (8 * [(0xAC : Byte)].length / 3)) := by decide

/-- The last bits need not be 0. -/
theorem witness_AllZeroCodesDecodeToNothing : ∀ v ∈ codesOf (bitsOf [0x03]), v = 0 := by decide

theorem witness_HostAccessWhileBusy_write :
    (withHost (inEnc 7 0 1 1) [.writeReg 0x10 3]).busy = true
      ∧ (Reg.ofOffset Config.widths 0x00).isSome = true
      ∧ (Reg.ofOffset Config.widths 0x10).isSome = true ∧ (Reg.ofOffset Config.widths 0x18).isSome = true
      ∧ (withHost (inEnc 7 0 1 1) [.writeReg 0x10 3]).host = .writeReg 0x10 3 :: [] :=
  ⟨by decide, rfl, rfl, rfl, rfl⟩

theorem witness_HostAccessWhileBusy_read :
    (withHost (inEnc 7 0 1 1) [.readReg 0x18]).host = .readReg 0x18 :: []
      ∧ (Reg.ofOffset Config.widths 0x18).isSome = true := by decide

theorem witness_HostAccessWhileBusy_constant :
    (inEnc 7 0 1 1).busy = true ∧ (∃ t, step (inEnc 7 0 1 1) = .next t)
      ∧ ∀ rest, (inEnc 7 0 1 1).host ≠ .reset :: rest := ⟨by decide, ⟨_, rfl⟩, nofun⟩

theorem witness_HostWritesOperands :
    (ready 7 0 1 1).busy = false
      ∧ (withHost (ready 7 0 1 1) [.writeReg 0x00 3]).host = .writeReg 0x00 3 :: []
      ∧ (withHost (ready 7 0 1 1) [.writeReg 0x04 3]).host = .writeReg 0x04 3 :: []
      ∧ (withHost (ready 7 0 1 1) [.writeReg 0x08 3]).host = .writeReg 0x08 3 :: []
      ∧ (withHost (ready 7 0 1 1) [.writeReg 0x0C 3]).host = .writeReg 0x0C 3 :: [] :=
  ⟨by decide, rfl, rfl, rfl, rfl⟩

theorem witness_HostReadsRegisters :
    (withHost (inEnc 7 0 1 1) [.readReg 0x00]).host = .readReg 0x00 :: []
      ∧ (withHost (inEnc 7 0 1 1) [.readReg 0x04]).host = .readReg 0x04 :: []
      ∧ (withHost (inEnc 7 0 1 1) [.readReg 0x08]).host = .readReg 0x08 :: []
      ∧ (withHost (inEnc 7 0 1 1) [.readReg 0x0C]).host = .readReg 0x0C :: []
      ∧ (withHost (inEnc 7 0 1 1) [.readReg 0x10]).host = .readReg 0x10 :: []
      ∧ (withHost (inEnc 7 0 1 1) [.readReg 0x14]).host = .readReg 0x14 :: [] :=
  ⟨rfl, rfl, rfl, rfl, rfl, rfl⟩

theorem witness_HostReadsRegisters_result :
    (withHost laterReady [.readReg 0x18]).host = .readReg 0x18 :: []
      ∧ (withHost laterReady [.readReg 0x18]).phase = .done := ⟨rfl, rfl⟩

theorem witness_StatusWordBits_busy : (inEnc 7 0 1 1).Inv ∧ (inEnc 7 0 1 1).busy = true :=
  ⟨by decide, by decide⟩

theorem witness_StatusWordBits_overflow :
    (let s : State := { ready 7 0 1 0 with phase := .done, statusOvf := true, result := 0xFFFFFFFF }
     s.Inv ∧ s.statusOvf = true ∧ s.doneFlag = true) := ⟨by decide, by decide⟩

theorem witness_ResultPersists :
    (let s := withHost { ready 7 0 1 1 with phase := .done } [.writeReg 0x10 2]
     s.phase = .done ∧ (∃ t, step s = .next t) ∧ (∀ rest, s.host ≠ .reset :: rest)
       ∧ ∀ w rest, s.host = .writeReg 0x10 w :: rest → w.testBit 0 = false) :=
  ⟨rfl, ⟨_, rfl⟩, nofun, fun w rest h => by cases h; rfl⟩

theorem witness_PhaseChangesOnlySo_reset :
    ∃ t, step (withHost (inEnc 7 0 1 1) [.reset]) = .next t ∧ t.phase ≠ .enc :=
  ⟨_, rfl, by decide⟩

theorem witness_PhaseChangesOnlySo_start :
    ∃ t, step (withHost (ready 7 0 1 1) [.writeReg 0x10 3]) = .next t ∧ t.phase ≠ .idle :=
  ⟨_, rfl, by decide⟩

theorem witness_PhaseChangesOnlySo_engine :
    ∃ t, step (expanded 8) = .next t ∧ t.phase ≠ .dec := ⟨_, rfl, by decide⟩

theorem witness_BuffersBelongToTheEngineWhileBusy_write_source :
    (let s := withHost (inEnc 7 0 1 1) [.writeMem 0x1000 1]
     s.Inv ∧ s.busy = true ∧ 0 < s.srcLen ∧ s.host = .writeMem (s.srcByteAddr 0) 1 :: []) :=
  ⟨by decide, by decide, by decide, rfl⟩

theorem witness_BuffersBelongToTheEngineWhileBusy_write_destination :
    (let s := withHost (inEnc 7 0 1 1) [.writeMem 0x2000 1]
     s.Inv ∧ s.busy = true ∧ 0 < s.dstLen ∧ s.host = .writeMem (s.dstByteAddr 0) 1 :: []) :=
  ⟨by decide, by decide, by decide, rfl⟩

theorem witness_BuffersBelongToTheEngineWhileBusy_read_destination :
    (let s := withHost (inEnc 7 0 1 1) [.readMem 0x2000]
     s.Inv ∧ s.busy = true ∧ 0 < s.dstLen ∧ s.host = .readMem (s.dstByteAddr 0) :: []) :=
  ⟨by decide, by decide, by decide, rfl⟩

theorem witness_BuffersBelongToTheEngineWhileBusy_read_source :
    (let s := withHost (inEnc 7 0 1 1) [.readMem 0x1000]
     s.Inv ∧ s.busy = true ∧ 0 < s.srcLen ∧ s.host = .readMem (s.srcByteAddr 0) :: []) :=
  ⟨by decide, by decide, by decide, rfl⟩

theorem witness_ResetAction :
    (let s := withHost (inEnc 7 0 1 1) [.reset]
     s.host = .reset :: [] ∧ s.memWf = true ∧ s.OutsideDst 0x1FFF) := by decide

theorem witness_ResetAction_not_busy : (withHost (ready 7 0 1 1) [.reset]).busy = false := by decide

theorem witness_HostIssuesACommand :
    State.reset.busy = false
      ∧ (withHost State.reset [.writeReg 0x00 1, .writeReg 0x04 1, .writeReg 0x08 2, .writeReg 0x0C 1,
          .writeReg 0x10 1]).host
        = [.writeReg 0x00 1, .writeReg 0x04 1, .writeReg 0x08 2, .writeReg 0x0C 1, .writeReg 0x10 1] ++ [] :=
  ⟨rfl, rfl⟩

theorem witness_RegisterMapIsExact :
    Config.widths.aw ≤ 32 ∧ Config.widths.lw ≤ 32
      ∧ (let p : Widths := ⟨64, 32⟩
         32 < max p.aw p.lw ∧ max p.aw p.lw % 8 = 0) := by decide

/-- One past the last register, and inside the first. -/
theorem witness_RegisterMapIsExact_holes :
    (∀ r : Reg, 0x1C ≠ r.offset (fresh Config.widths []).widths)
      ∧ (∀ r : Reg, 0x01 ≠ r.offset (fresh Config.widths []).widths)
      ∧ (fresh Config.widths [.readReg 0x1C]).host = .readReg 0x1C :: []
      ∧ (fresh Config.widths [.writeReg 0x01 0]).host = .writeReg 0x01 0 :: [] :=
  ⟨fun r => by cases r <;> decide, fun r => by cases r <;> decide, rfl, rfl⟩

/-- The first address that does not exist. -/
theorem witness_AddressesOutsideTheSpaceFault :
    2 ^ (fresh ⟨16, 8⟩ []).widths.aw ≤ 0x10000
      ∧ (fresh ⟨16, 8⟩ [.writeMem 0x10000 1]).host = .writeMem 0x10000 1 :: []
      ∧ (fresh ⟨16, 8⟩ [.readMem 0x10000]).host = .readMem 0x10000 :: [] :=
  ⟨by decide, rfl, rfl⟩

/-- The last address, with the platform's window beside it. -/
theorem witness_HostUsesMemory :
    (let s : State := { withHost (ready 7 0 1 1) [.writeMem 0xFFFFFFFF 1] with
      windows := [⟨0xFFFFFFFE, 1, false, false⟩] }
     s.busy = false ∧ s.memWf = true ∧ 0xFFFFFFFF < 2 ^ s.widths.aw
       ∧ (∀ w ∈ s.windows, ¬w.Covers 0xFFFFFFFF) ∧ s.host = .writeMem 0xFFFFFFFF 1 :: []) := by decide

theorem witness_HostUsesMemory_read :
    (withHost (ready 7 0 1 1) [.readMem 0x1000]).busy = false
      ∧ (withHost (ready 7 0 1 1) [.readMem 0x1000]).memWf = true
      ∧ (withHost (ready 7 0 1 1) [.readMem 0x1000]).host = .readMem 0x1000 :: [] := by decide

end Sys2Proof.Tests
end

section
/-!
SUPPORT. What each action of the host can do, said once, and what an engine step leaves unchanged in every
state. The proofs about `step` go through these lemmas and do not unfold the actions again.
-/

namespace Sys2Proof.Machine

/-! ## The step and its actor -/

theorem step_of_host_nil {s : State} (h : s.host = []) : step s = engineStep s := by
  unfold step; rw [h]

theorem step_of_host_cons {s : State} {a : HostAction} {rest : List HostAction}
    (h : s.host = a :: rest) : step s = hostAct a (s.setHost rest) := by
  unfold step; rw [h]

/-! ## The register map -/

/-- Every register is found at its offset (`10_state.md` R28). -/
theorem Reg.ofOffset_offset (p : Widths) (r : Reg) : Reg.ofOffset p (r.offset p) = some r := by
  have hpos : 0 < p.stride := by have := stride_ge p; omega
  have hindex : r.offset p / p.stride = r.index := Nat.mul_div_cancel_left _ hpos
  have hmod : r.offset p % p.stride = 0 := Nat.mul_mod_right _ _
  unfold Reg.ofOffset
  rw [if_pos hmod, hindex]
  cases r <;> rfl

/-! ## The host's accesses -/

/-- A CTRL word is no command exactly when its bit 0 is 0 (`30_encoding.md` R106). -/
theorem decodeCtrl_noStart {w : Nat} (h : decode (.ctrl w) = .error .noStart) :
    w.testBit 0 = false := by
  unfold decode decodeCtrl at h
  by_cases h0 : w.testBit 0 = true
  · by_cases h1 : w.testBit 1 = true <;> simp [h0, h1] at h
  · simpa using h0

/-- In IDLE and DONE a host write at the offset of any register but CTRL is that register's write. -/
theorem hostWriteReg_operand {s : State} {r : Reg} (v : Nat) (hb : s.busy = false) (hr : r ≠ .ctrl) :
    hostWriteReg (r.offset s.widths) v s = .next (s.writeOperand r v) := by
  unfold hostWriteReg
  rw [Reg.ofOffset_offset]
  cases r with
  | ctrl => exact absurd rfl hr
  | _ => exact if_neg (by simp [hb])

/-- Everything a host register write can do when it answers a next state (`10_state.md` R26 to R29): it
is ignored, it writes a register, or it starts a command. -/
theorem hostWriteReg_cases {off v : Nat} {s t : State} (h : hostWriteReg off v s = .next t) :
    (t = s ∧ (s.busy = true ∨ (off = Reg.ctrl.offset s.widths ∧ v.testBit 0 = false)))
      ∨ (s.busy = false ∧ ∃ r, r ≠ .ctrl ∧ off = r.offset s.widths ∧ t = s.writeOperand r v)
      ∨ (off = Reg.ctrl.offset s.widths ∧ v.testBit 0 = true
        ∧ start (if v.testBit 1 then .decode else .encode) s = .next t) := by
  unfold hostWriteReg at h
  split at h
  · cases h
  · next hoff =>
    have hoff := Reg.eq_offset_of_ofOffset hoff
    split at h
    · next i hi =>
      obtain ⟨h0, ⟨h1, rfl⟩ | ⟨h1, rfl⟩⟩ := decodeCtrl_cases hi
      · exact Or.inr (Or.inr ⟨hoff, h0, by rw [h1]; exact h⟩)
      · exact Or.inr (Or.inr ⟨hoff, h0, by rw [h1]; exact h⟩)
    · next hi =>
      cases h
      exact Or.inl ⟨rfl, Or.inr ⟨hoff, decodeCtrl_noStart hi⟩⟩
  · next r hr hoff =>
    split at h
    · next hb => cases h; exact Or.inl ⟨rfl, Or.inl hb⟩
    · next hb =>
      cases h
      refine Or.inr (Or.inl ⟨by simpa using hb, r, ?_, Reg.eq_offset_of_ofOffset hoff, rfl⟩)
      rintro rfl
      exact hr rfl

/-- A host register read changes nothing but what the host has read (`10_state.md` R29). -/
theorem State.readReg_frame (s : State) (r : Reg) :
    s.readReg r = { s with hostData := (s.readReg r).hostData, draws := (s.readReg r).draws } := by
  cases r with
  | result => unfold State.readReg; simp only; split <;> rfl
  | _ => rfl

theorem hostReadReg_cases {off : Nat} {s t : State} (h : hostReadReg off s = .next t) :
    ∃ r, off = Reg.offset s.widths r ∧ t = s.readReg r := by
  unfold hostReadReg at h
  split at h
  · cases h
  · next r hr => cases h; exact ⟨r, Reg.eq_offset_of_ofOffset hr, rfl⟩

/-- Everything a host store can do when it answers a next state (`20_memory.md` R60,
`70_reset_and_hazards.md` R255). -/
theorem hostWriteMem_cases {a : Nat} {v : Byte} {s t : State} (h : hostWriteMem a v s = .next t) :
    a < s.widths.addrSpace ∧ (s.busy = true → s.inSrc a = false ∧ s.inDst a = false)
      ∧ plainWritable s.windows a 1 = true ∧ t = { s with mem := s.mem.write a v } := by
  unfold hostWriteMem at h
  split_ifs at h with ha hown hplain
  cases h
  refine ⟨by omega, fun hb => ?_, by simpa using hplain, rfl⟩
  simpa [hb] using hown

/-- Everything a host load can do when it answers a next state (`20_memory.md` R60,
`70_reset_and_hazards.md` R255). -/
theorem hostReadMem_cases {a : Nat} {s t : State} (h : hostReadMem a s = .next t) :
    a < s.widths.addrSpace ∧ (s.busy = true → s.inDst a = false)
      ∧ plainReadable s.windows a 1 = true ∧ t = s.setHostData (s.mem.read a).toNat := by
  unfold hostReadMem at h
  split_ifs at h with ha hown hplain
  cases h
  refine ⟨by omega, fun hb => ?_, by simpa using hplain, rfl⟩
  simpa [hb] using hown

/-- A reset leaves the reset registers, and memory as it was or with free bytes in the destination
region of the command it abandons (`70_reset_and_hazards.md` R250, R251). -/
theorem hostReset_cases {s t : State} (h : hostReset s = .next t) :
    (s.busy = false ∧ t = s.resetRegs)
      ∨ (s.busy = true ∧ t = { s.resetRegs with
          mem := freeBytes s.widths s.mem s.dstAddr s.resetRegs.draws s.dstLen
          draws := s.resetRegs.draws + s.dstLen }) := by
  unfold hostReset at h
  simp only at h
  split at h
  · next hb => cases h; exact Or.inr ⟨hb, rfl⟩
  · next hb => cases h; exact Or.inl ⟨by simpa using hb, rfl⟩

/-! ## The engine's frame, in every state -/

/-- `t` is `s` but for RESULT, STATUS, the phase, the working state, memory and the record of the
engine's accesses: what an engine step may change (`41_encoder.md` R147, R148,
`42_decoder.md` R182, R183). -/
def State.OnlyEngine (s t : State) : Prop :=
  t = { s with
    result := t.result, statusOvf := t.statusOvf, phase := t.phase, rd := t.rd, rbuf := t.rbuf
    wr := t.wr, wacc := t.wacc, pol := t.pol, cnt := t.cnt, ovf := t.ovf, mem := t.mem, bus := t.bus }

theorem State.OnlyEngine.refl (s : State) : s.OnlyEngine s := rfl

theorem State.OnlyEngine.trans {s t u : State} (h1 : s.OnlyEngine t) (h2 : t.OnlyEngine u) :
    s.OnlyEngine u := by
  unfold State.OnlyEngine at *
  rw [h2, h1]

theorem State.OnlyOutput.onlyEngine {s t : State} (h : s.OnlyOutput t) : s.OnlyEngine t := by
  unfold State.OnlyOutput at h
  unfold State.OnlyEngine
  rw [h]

theorem getBit_onlyEngine (s : State) : s.OnlyEngine (getBit s).2 := by
  unfold getBit State.fetchByte
  simp only
  split <;> rfl

theorem getCode_onlyEngine (s : State) : s.OnlyEngine (getCode s).2 :=
  ((getBit_onlyEngine s).trans (getBit_onlyEngine _)).trans (getBit_onlyEngine _)

theorem State.flush_onlyEngine (s : State) : s.OnlyEngine s.flush := by
  unfold State.flush
  split <;> rfl

theorem putList_onlyEngine (bs : List Bool) (s : State) : s.OnlyEngine (putList bs s).state := by
  rcases putList_frame bs s with ⟨t, e, ho, -⟩ | ⟨t, e, ho, -⟩
  · rw [e]; exact ho.onlyEngine
  · rw [e]; exact ho.onlyEngine.trans rfl

/-- An update after an emission keeps the frame, whether it is reached or not. -/
theorem Emit.map_onlyEngine {s : State} {e : Emit} {f : State → State} (he : s.OnlyEngine e.state)
    (hf : ∀ x, State.OnlyEngine x (f x)) : s.OnlyEngine (e.map f).state := by
  cases e with
  | ok x => exact he.trans (hf x)
  | overflow x => exact he

theorem encScan_onlyEngine {s t : State} (h : encScan s = .next t) : s.OnlyEngine t := by
  have hget := getBit_onlyEngine s
  have hcount : ∀ c, s.OnlyEngine ((getBit s).2.setCnt c) := fun c => hget.trans rfl
  unfold encScan at h
  simp only [putCode_eq_putList, Emit.outcome_eq] at h
  split_ifs at h <;> cases h
  · exact Emit.map_onlyEngine ((hcount _).trans (putList_onlyEngine _ _)) fun _ => rfl
  · exact hcount _
  · exact Emit.map_onlyEngine (hget.trans (putList_onlyEngine _ _)) fun _ => rfl

theorem encFinish_onlyEngine {s t : State} (h : encFinish s = .next t) : s.OnlyEngine t := by
  unfold encFinish at h
  simp only [putCode_eq_putList, Emit.outcome_eq] at h
  cases h
  exact Emit.map_onlyEngine (putList_onlyEngine _ _) fun x => x.flush_onlyEngine.trans rfl

theorem exec_code_onlyEngine (v : Code) {s t : State} (h : exec (decodeCode v) s = .next t) :
    s.OnlyEngine t := by
  rw [exec_code, Emit.outcome_eq] at h
  cases h
  refine Emit.map_onlyEngine (putList_onlyEngine _ _) fun x => ?_
  split <;> rfl

theorem decCode_onlyEngine {s t : State} (h : decCode s = .next t) : s.OnlyEngine t :=
  (getCode_onlyEngine s).trans (exec_code_onlyEngine _ h)

theorem decFinish_onlyEngine {s t : State} (h : decFinish s = .next t) : s.OnlyEngine t := by
  cases h
  exact s.flush_onlyEngine.trans rfl

/-- What any engine step leaves unchanged, in every state at all. -/
theorem engineStep_onlyEngine {s t : State} (h : engineStep s = .next t) : s.OnlyEngine t := by
  unfold engineStep at h
  split at h
  · cases h; exact .refl s
  · split at h
    · exact encFinish_onlyEngine h
    · exact encScan_onlyEngine h
  · split at h
    · exact decCode_onlyEngine h
    · exact decFinish_onlyEngine h
  · cases h; exact .refl s

end Sys2Proof.Machine
end

section
/-!
PROOF. Every step keeps the machine's invariant: a command's engine steps by what `StepEnd` says they
do, an accepted START by its legality, a host access by the bytes it may not touch, a reset since it
leaves IDLE.
-/

namespace Sys2Proof

theorem Widths.minusOne_lt (p : Widths) : p.minusOne < p.lenSpace :=
  Nat.sub_lt p.lenSpace_pos Nat.one_pos

end Sys2Proof

namespace Sys2Proof.Machine

/-! ## The invariant outside a command -/

theorem State.phase_ne_done_of_busy {s : State} (hb : s.busy = true) : s.phase ≠ .done := by
  intro h
  unfold State.busy at hb
  rw [h] at hb
  exact absurd hb (by decide)

/-- The invariant of a machine that has no command executing: the clause on a command is void. -/
theorem State.Inv.of_not_busy {s : State} (hs : s.Sized) (hm : s.memWf = true)
    (hovf : s.statusOvf = true → s.phase = .done)
    (hsign : s.phase = .done → s.statusOvf = s.result.testBit (s.widths.lw - 1))
    (hb : s.busy = false) : s.Inv :=
  ⟨hs, hm, hovf, hsign, fun h => absurd h (by rw [hb]; decide)⟩

/-- The invariant says nothing of the host's actions still to come. -/
theorem State.Inv.setHost {s : State} (h : s.Inv) (l : List HostAction) : (s.setHost l).Inv := h

/-! ## The engine's steps -/

/-- Moving through a command keeps every register inside its width. -/
theorem Moved.sized {s t : State} {k : Nat} {bs : List Bool} (h : Moved s t k bs) (hs : s.Sized) :
    t.Sized := by
  obtain ⟨hp, hsa, hsl, hda, hdl, hres, -, -⟩ := hs
  obtain ⟨hlen, hrd, -, -⟩ := h.readOk
  obtain ⟨⟨hcap, -⟩, hwr, -, -⟩ := h.writeOk
  have hrd' := Nat.lt_of_le_of_lt hrd hlen
  have hwr' := Nat.lt_of_le_of_lt hwr hcap
  have e := h.only
  rw [e] at hrd' hwr' ⊢
  exact ⟨hp, hsa, hsl, hda, hdl, hres, hrd', hwr'⟩

/-- Moving through a command keeps it legal. -/
theorem Moved.legal {s t : State} {k : Nat} {bs : List Bool} (h : Moved s t k bs) (hl : s.Legal) :
    t.Legal := by
  rw [h.only]; exact hl

/-- A command that goes on keeps the invariant (`10_state.md` R41). -/
theorem State.Inv.of_goesOn {s t : State} {k : Nat} {bs : List Bool} (hi : s.Inv) (hb : s.busy = true)
    (h : Moved s t k bs) (hk : (s.phase = .enc ∧ k = 1 ∧ t.cnt ≠ 7) ∨ (s.phase = .dec ∧ k = 3)) :
    t.Inv := by
  obtain ⟨hs, -, hovf, -, hbusy⟩ := hi
  obtain ⟨hne, hl, -, -, hraised, henc, hdec⟩ := hbusy hb
  have hphase : t.phase = s.phase := by rw [h.only]
  have hstatus : t.statusOvf = s.statusOvf := by rw [h.only]
  have hop : t.op = s.op := by rw [h.only]
  have hlen : t.srcLen = s.srcLen := by rw [h.only]
  have hraised' : t.ovf = s.ovf := by rw [h.only]
  have hdone : t.phase ≠ .done := hphase ▸ State.phase_ne_done_of_busy hb
  refine ⟨h.sized hs, h.wf, fun ho => ?_, fun hd => absurd hd hdone, fun _ => ?_⟩
  · rw [hphase]; exact hovf (hstatus ▸ ho)
  · refine ⟨hlen ▸ hne, h.legal hl, h.readOk, h.writeOk, hraised'.trans hraised,
      fun he => ?_, fun hd => ?_⟩
    · rw [hphase] at he
      rcases hk with ⟨-, -, hc⟩ | ⟨hd, -⟩
      · exact ⟨hc, hop.trans (henc he).2⟩
      · rw [he] at hd; cases hd
    · rw [hphase] at hd
      exact hop.trans (hdec hd)

/-- A command that completes keeps the invariant: RESULT is a legal length, so its sign bit is 0
(`10_state.md` R27). -/
theorem State.Inv.complete {u : State} (hs : u.Sized) (hm : u.memWf = true) (hl : u.Legal)
    (hw : u.WriteOk) : u.complete.Inv := by
  obtain ⟨hp, hsa, hsl, hda, hdl, -, hrd, hwr⟩ := hs
  have hle : u.wr.byte ≤ u.widths.maxLen := hw.2.1.trans hl.1.2
  exact .of_not_busy ⟨hp, hsa, hsl, hda, hdl, hwr, hrd, hwr⟩ hm (fun _ => rfl)
    (fun _ => (Widths.testBit_of_le_maxLen hle).symm) rfl

/-- The exception entry keeps the invariant: RESULT is -1, so its sign bit is 1 (`60_exceptions.md`
R221). -/
theorem State.Inv.takeOverflow {u : State} (hs : u.Sized) (hm : u.memWf = true) :
    u.takeOverflow.Inv := by
  obtain ⟨hp, hsa, hsl, hda, hdl, -, hrd, hwr⟩ := hs
  exact .of_not_busy ⟨hp, hsa, hsl, hda, hdl, Widths.minusOne_lt _, hrd, hwr⟩ hm (fun _ => rfl)
    (fun _ => (Widths.testBit_minusOne hp).symm) rfl

theorem engineStep_keeps_inv {s t : State} (hi : s.Inv) (h : engineStep s = .next t) : t.Inv := by
  cases hb : s.busy with
  | false =>
    rw [engineStep_of_not_busy hb] at h
    cases h
    exact hi
  | true =>
    obtain ⟨t', h', k, bs, hend⟩ := engineStep_ends hi hb
    obtain rfl : t' = t := by rw [h'] at h; cases h; rfl
    have ⟨hs, _, _, _, hbusy⟩ := hi
    have hl := (hbusy hb).2.1
    cases hend with
    | goesOn hm hk => exact .of_goesOn hi hb hm hk
    | completes u hm _ ht => rw [ht]; exact .complete (hm.sized hs) hm.wf (hm.legal hl) hm.writeOk
    | overflows u hm _ ht => rw [ht]; exact .takeOverflow (hm.sized hs) hm.wf

/-! ## A START -/

/-- The acceptance test passes the commands whose operands were all written and are legal
(`43_commands.md` R208, `70_reset_and_hazards.md` R252). -/
theorem State.illegal_eq_none_iff (s : State) :
    s.illegal = none ↔ s.written.all = true ∧ s.Legal := by
  unfold State.illegal State.Legal
  rw [← s.lengthsOk_iff, ← s.noWrap_iff, ← s.plainRegions_iff, ← s.disjointRegions_iff]
  split_ifs <;> simp_all

/-- The zero-length command completes with RESULT 0, whose sign bit is 0 (`43_commands.md` R202). -/
theorem State.Inv.completeEmpty {s : State} (hi : s.Inv) (o : Op) :
    (s.acceptStart o).completeEmpty.Inv := by
  obtain ⟨⟨hp, hsa, hsl, hda, hdl, -, hrd, hwr⟩, hm, -⟩ := hi
  exact .of_not_busy ⟨hp, hsa, hsl, hda, hdl, Widths.lenSpace_pos _, hrd, hwr⟩ hm (fun _ => rfl)
    (fun _ => (Nat.zero_testBit _).symm) rfl

/-- The registers of a command that begins: both cursors at their start (`40_bit_cursor.md` R121). -/
theorem State.Sized.startWork {s : State} (hs : s.Sized) (o : Op) :
    ((s.acceptStart o).startWork o).Sized := by
  obtain ⟨hp, hsa, hsl, hda, hdl, hres, -, -⟩ := hs
  cases o <;>
    exact ⟨hp, hsa, hsl, hda, hdl, hres, Widths.lenSpace_pos _, Widths.lenSpace_pos _⟩

/-- A command that begins is executing with both cursors at the start of legal regions, nothing in the
accumulator and `op` agreeing with the phase (`41_encoder.md` R146, `42_decoder.md` R181). -/
theorem State.BusyOk.startWork {s : State} (hs : s.Sized) (hne : s.srcLen ≠ 0) (hl : s.Legal) (o : Op) :
    ((s.acceptStart o).startWork o).BusyOk := by
  obtain ⟨-, -, hsl, -, hdl, -, -, -⟩ := hs
  have hcap : s.dstLen ≤ s.widths.addrSpace := by have := hl.2.1.2; omega
  have hcnt : (0 : BitVec 3) ≠ 7 := by decide
  have hread : ((s.acceptStart o).startWork o).ReadOk := by
    cases o <;> exact ⟨hsl, Nat.zero_le _, fun _ => rfl, fun h => absurd rfl h⟩
  have hwrite : ((s.acceptStart o).startWork o).WriteOk := by
    cases o <;> exact ⟨⟨hdl, hcap⟩, Nat.zero_le _, fun _ => rfl, fun _ _ => BitVec.getLsbD_zero⟩
  cases o with
  | encode => exact ⟨hne, hl, hread, hwrite, rfl, fun _ => ⟨hcnt, rfl⟩, nofun⟩
  | decode => exact ⟨hne, hl, hread, hwrite, rfl, nofun, fun _ => rfl⟩

theorem State.Inv.startWork {s : State} (hi : s.Inv) (hne : s.srcLen ≠ 0) (hl : s.Legal) (o : Op) :
    ((s.acceptStart o).startWork o).Inv := by
  obtain ⟨hs, hm, -⟩ := hi
  have hbusy := State.BusyOk.startWork hs hne hl o
  have hsized := hs.startWork o
  cases o with
  | encode => exact ⟨hsized, hm, nofun, nofun, fun _ => hbusy⟩
  | decode => exact ⟨hsized, hm, nofun, nofun, fun _ => hbusy⟩

theorem start_keeps_inv {o : Op} {s t : State} (hi : s.Inv) (h : start o s = .next t) : t.Inv := by
  rcases start_cases h with ⟨-, rfl⟩ | ⟨-, -, -, rfl⟩ | ⟨-, hne, hnone, rfl⟩
  · exact hi
  · exact hi.completeEmpty o
  · exact hi.startWork hne (s.illegal_eq_none_iff.mp hnone).2 o

/-! ## The host's accesses and reset -/

/-- An operand written in IDLE or DONE is truncated to its register's width (`00_scope.md` R9). -/
theorem State.Inv.writeOperand {s : State} (hi : s.Inv) (hb : s.busy = false) (r : Reg) (v : Nat) :
    (s.writeOperand r v).Inv := by
  have ⟨⟨hp, hsa, hsl, hda, hdl, hres, hrd, hwr⟩, hm, hovf, hsign, _⟩ := hi
  have haddr := Widths.narrowAddr_lt s.widths v
  have hlen := Widths.narrowLen_lt s.widths v
  cases r with
  | srcAddr => exact .of_not_busy ⟨hp, haddr, hsl, hda, hdl, hres, hrd, hwr⟩ hm hovf hsign hb
  | srcLen => exact .of_not_busy ⟨hp, hsa, hlen, hda, hdl, hres, hrd, hwr⟩ hm hovf hsign hb
  | dstAddr => exact .of_not_busy ⟨hp, hsa, hsl, haddr, hdl, hres, hrd, hwr⟩ hm hovf hsign hb
  | dstLen => exact .of_not_busy ⟨hp, hsa, hsl, hda, hlen, hres, hrd, hwr⟩ hm hovf hsign hb
  | ctrl => exact hi
  | status => exact hi
  | result => exact hi

theorem hostWriteReg_keeps_inv {off v : Nat} {s t : State} (hi : s.Inv)
    (h : hostWriteReg off v s = .next t) : t.Inv := by
  rcases hostWriteReg_cases h with ⟨rfl, -⟩ | ⟨hb, r, -, -, rfl⟩ | ⟨-, -, hstart⟩
  · exact hi
  · exact hi.writeOperand hb r v
  · exact start_keeps_inv hi hstart

theorem hostReadReg_keeps_inv {off : Nat} {s t : State} (hi : s.Inv)
    (h : hostReadReg off s = .next t) : t.Inv := by
  obtain ⟨r, -, rfl⟩ := hostReadReg_cases h
  rw [s.readReg_frame r]
  exact hi

/-- An address outside the source region, as the host's store tests it, is the address of no source byte
of a legal command. -/
theorem State.Legal.srcByteAddr_ne_of_not_inSrc {s : State} (hl : s.Legal) {a : Nat}
    (ha : s.inSrc a = false) {i : Nat} (hi : i < s.srcLen) : s.srcByteAddr i ≠ a := by
  unfold State.inSrc at ha
  rw [Bool.and_eq_false_iff, decide_eq_false_iff_not, decide_eq_false_iff_not] at ha
  rw [hl.srcByteAddr_eq hi]
  omega

/-- A host store outside the source region leaves `rbuf` the byte being read. -/
theorem State.ReadOk.write_outside {s : State} (hr : s.ReadOk) (hl : s.Legal) (hm : s.memWf = true)
    {a : Nat} (v : Byte) (ha : s.inSrc a = false) :
    State.ReadOk { s with mem := s.mem.write a v } := by
  obtain ⟨hlen, hle, hend, hbuf⟩ := hr
  refine ⟨hlen, hle, hend, fun h0 => ?_⟩
  have hlt : s.rd.byte < s.srcLen := Nat.lt_of_le_of_ne hle fun he => h0 (hend he)
  exact (hbuf h0).trans
    (Memory.read_write_other v hm (hl.srcByteAddr_ne_of_not_inSrc ha hlt)).symm

theorem hostWriteMem_keeps_inv {a : Nat} {v : Byte} {s t : State} (hi : s.Inv)
    (h : hostWriteMem a v s = .next t) : t.Inv := by
  obtain ⟨ha, hown, -, rfl⟩ := hostWriteMem_cases h
  obtain ⟨hs, hm, hovf, hsign, hbusy⟩ := hi
  refine ⟨hs, Memory.write_wf v ha hm, hovf, hsign, fun hb => ?_⟩
  obtain ⟨hne, hl, hr, hw, hrest⟩ := hbusy hb
  exact ⟨hne, hl, hr.write_outside hl hm v (hown hb).1, hw, hrest⟩

theorem hostReadMem_keeps_inv {a : Nat} {s t : State} (hi : s.Inv)
    (h : hostReadMem a s = .next t) : t.Inv := by
  obtain ⟨-, -, -, rfl⟩ := hostReadMem_cases h
  exact hi

/-- Whatever free values the registers hold after a reset, they are values of their widths. -/
theorem State.Sized.resetRegs {s : State} (hs : s.Sized) : s.resetRegs.Sized :=
  ⟨hs.1, BitVec.isLt _, BitVec.isLt _, BitVec.isLt _, BitVec.isLt _, BitVec.isLt _, BitVec.isLt _,
    BitVec.isLt _⟩

theorem hostReset_keeps_inv {s t : State} (hi : s.Inv) (h : hostReset s = .next t) : t.Inv := by
  obtain ⟨hs, hm, -⟩ := hi
  rcases hostReset_cases h with ⟨-, rfl⟩ | ⟨-, rfl⟩
  · exact .of_not_busy hs.resetRegs hm nofun nofun rfl
  · exact .of_not_busy hs.resetRegs (freeBytes_wf _ _ hm _) nofun nofun rfl

/-! ## The step -/

theorem hostAct_keeps_inv {a : HostAction} {s t : State} (hi : s.Inv) (h : hostAct a s = .next t) :
    t.Inv := by
  cases a with
  | writeReg off v => exact hostWriteReg_keeps_inv hi h
  | readReg off => exact hostReadReg_keeps_inv hi h
  | writeMem a v => exact hostWriteMem_keeps_inv hi h
  | readMem a => exact hostReadMem_keeps_inv hi h
  | reset => exact hostReset_keeps_inv hi h
  | wait => exact engineStep_keeps_inv hi h

/-- Settles O3: the step is the engine's or one of the host's actions, and each keeps the invariant. -/
theorem stepKeepsInvariant : Obligations.StepKeepsInvariant := by
  unfold Obligations.StepKeepsInvariant
  intro s t hi h
  rcases step_cases h with ⟨-, h⟩ | ⟨a, rest, -, h⟩
  · exact engineStep_keeps_inv hi h
  · exact hostAct_keeps_inv (hi.setHost rest) h

end Sys2Proof.Machine
end

section
/-!
PROOF. No step changes the parameters or the platform's memory map, and what a host write to an operand
register does.
-/

namespace Sys2Proof.Machine

/-! ## The platform -/

/-- `t` has the parameters (`00_scope.md` R7) and the memory map (`20_memory.md` R71) of `s`. -/
def State.SamePlatform (s t : State) : Prop := t.widths = s.widths ∧ t.windows = s.windows

theorem State.SamePlatform.refl (s : State) : s.SamePlatform s := ⟨rfl, rfl⟩

theorem State.OnlyEngine.samePlatform {s t : State} (h : s.OnlyEngine t) : s.SamePlatform t := by
  unfold State.OnlyEngine at h
  rw [h]
  exact ⟨rfl, rfl⟩

theorem start_samePlatform {o : Op} {s t : State} (h : start o s = .next t) : s.SamePlatform t := by
  rcases start_cases h with ⟨-, rfl⟩ | ⟨-, -, -, rfl⟩ | ⟨-, -, -, rfl⟩
  · exact .refl t
  · exact ⟨rfl, rfl⟩
  · cases o <;> exact ⟨rfl, rfl⟩

theorem hostWriteReg_samePlatform {off v : Nat} {s t : State} (h : hostWriteReg off v s = .next t) :
    s.SamePlatform t := by
  rcases hostWriteReg_cases h with ⟨rfl, -⟩ | ⟨-, r, -, -, rfl⟩ | ⟨-, -, hstart⟩
  · exact .refl t
  · cases r <;> exact ⟨rfl, rfl⟩
  · exact start_samePlatform hstart

theorem hostAct_samePlatform {a : HostAction} {s t : State} (h : hostAct a s = .next t) :
    s.SamePlatform t := by
  cases a with
  | writeReg off v => exact hostWriteReg_samePlatform h
  | readReg off =>
    obtain ⟨r, -, rfl⟩ := hostReadReg_cases h
    rw [s.readReg_frame r]
    exact ⟨rfl, rfl⟩
  | writeMem a v =>
    obtain ⟨-, -, -, rfl⟩ := hostWriteMem_cases h
    exact ⟨rfl, rfl⟩
  | readMem a =>
    obtain ⟨-, -, -, rfl⟩ := hostReadMem_cases h
    exact ⟨rfl, rfl⟩
  | reset =>
    rcases hostReset_cases h with ⟨-, rfl⟩ | ⟨-, rfl⟩
    · exact ⟨rfl, rfl⟩
    · exact ⟨rfl, rfl⟩
  | wait => exact (engineStep_onlyEngine h).samePlatform

/-- Settles O5, in every state at all: an engine step by its frame, a host action case by case. -/
theorem stepKeepsPlatformMap : Obligations.StepKeepsPlatformMap := by
  unfold Obligations.StepKeepsPlatformMap
  intro s t h
  rcases step_cases h with ⟨-, h⟩ | ⟨a, rest, -, h⟩
  · exact (engineStep_onlyEngine h).samePlatform
  · exact hostAct_samePlatform (s := s.setHost rest) h

/-! ## Operand writes -/

/-- In IDLE and DONE the step of a host write at the offset of any register but CTRL is that register's
write (`10_state.md` R28, R29). -/
theorem step_writeReg_of_not_busy {s : State} {r : Reg} {v : Nat} {rest : List HostAction}
    (hb : s.busy = false) (hr : r ≠ .ctrl) (h : s.host = .writeReg (r.offset s.widths) v :: rest) :
    step s = .next ((s.setHost rest).writeOperand r v) :=
  (step_of_host_cons h).trans (hostWriteReg_operand (s := s.setHost rest) v hb hr)

/-- Settles O46: the register at the offset is written, truncated by `State.writeOperand`. -/
theorem hostWritesOperands : Obligations.HostWritesOperands := by
  unfold Obligations.HostWritesOperands
  intro s v rest hb
  refine ⟨fun h => ?_, fun h => ?_, fun h => ?_, fun h => ?_⟩
  · exact step_writeReg_of_not_busy hb (r := .srcAddr) nofun h
  · exact step_writeReg_of_not_busy hb (r := .srcLen) nofun h
  · exact step_writeReg_of_not_busy hb (r := .dstAddr) nofun h
  · exact step_writeReg_of_not_busy hb (r := .dstLen) nofun h

end Sys2Proof.Machine
end

section
/-!
PROOF. The engine's accesses follow `10_state.md` R41 I5 and I6 at reset and after every step: an engine
step of a command extends the record on both sides by the bytes its cursors pass, a START begins it anew
with both cursors at their start, and no host access adds to it or changes a byte it names.
-/

namespace Sys2Proof.Machine

/-! ## What moving through a command adds to the record -/

/-- The indexes below `m`, then those from `m` on, are the indexes below `n`. -/
theorem range_append_range' {m n : Nat} (h : m ≤ n) :
    List.range m ++ List.range' m (n - m) = List.range n := by
  rw [List.range_eq_range', List.range_eq_range']
  have happend := List.range'_append_1 (s := 0) (m := m) (n := n - m)
  rwa [Nat.zero_add, Nat.add_sub_cancel' h] at happend

theorem Moved.srcByteAddr {s t : State} {k : Nat} {bs : List Bool} (h : Moved s t k bs) :
    t.srcByteAddr = s.srcByteAddr := by
  rw [h.only]; rfl

theorem Moved.dstByteAddr {s t : State} {k : Nat} {bs : List Bool} (h : Moved s t k bs) :
    t.dstByteAddr = s.dstByteAddr := by
  rw [h.only]; rfl

theorem Moved.phase {s t : State} {k : Nat} {bs : List Bool} (h : Moved s t k bs) :
    t.phase = s.phase := by
  rw [h.only]

/-- The source bytes the read cursor enters are read once each, in ascending order (`20_memory.md`
R67). -/
theorem Moved.busReads {s t : State} {k : Nat} {bs : List Bool} (h : Moved s t k bs) :
    busReads t.bus = busReads s.bus
      ++ (List.range' s.rd.touched (t.rd.touched - s.rd.touched)).map s.srcByteAddr := by
  rw [h.bus, busReads_append, busReads_append, busReads_writes, busReads_reads, List.append_nil]

/-- The destination bytes the write cursor leaves behind are written once each, in ascending order, and
hold what was written (`20_memory.md` R68). -/
theorem Moved.busWrites {s t : State} {k : Nat} {bs : List Bool} (h : Moved s t k bs) :
    busWrites t.bus = busWrites s.bus
      ++ (List.range' s.wr.byte (t.wr.byte - s.wr.byte)).map fun i =>
        (s.dstByteAddr i, t.mem.read (s.dstByteAddr i)) := by
  rw [h.bus, busWrites_append, busWrites_append, busWrites_writes, busWrites_reads, List.append_nil]

/-- A destination byte already written keeps its value: the bytes written from now on are others. -/
theorem Moved.read_written {s t : State} {k : Nat} {bs : List Bool} (h : Moved s t k bs)
    {i : Nat} (hi : i < s.wr.byte) : t.mem.read (s.dstByteAddr i) = s.mem.read (s.dstByteAddr i) := by
  obtain ⟨⟨-, hspace⟩, hwr, -⟩ := h.writeOk
  have hwidths : t.widths = s.widths := by rw [h.only]
  rw [hwidths] at hspace
  refine h.mem _ fun j hj hj' he => ?_
  have := s.dstByteAddr_inj (by omega) (by omega) he
  omega

/-! ## The access pattern -/

/-- The access pattern speaks only of a command that executes. -/
theorem State.BusPattern.of_not_busy {s : State} (hb : s.busy = false) : s.BusPattern :=
  fun h => absurd h (by rw [hb]; decide)

/-- The access pattern says nothing of the host's actions still to come. -/
theorem State.BusPattern.setHost {s : State} (h : s.BusPattern) (l : List HostAction) :
    (s.setHost l).BusPattern := h

/-- A command that goes on keeps the access pattern (`10_state.md` R41 I5, I6). -/
theorem State.BusPattern.moved {s t : State} {k : Nat} {bs : List Bool} (hp : s.BusPattern)
    (h : Moved s t k bs) : t.BusPattern := by
  intro hb
  have hbusy : s.busy = true := by
    unfold State.busy at hb ⊢
    rwa [h.phase] at hb
  obtain ⟨hreads, hwrites⟩ := hp hbusy
  rw [h.srcByteAddr, h.dstByteAddr, h.busReads, h.busWrites, hreads, hwrites]
  constructor
  · show (List.range s.rd.touched).map _ ++ _ = (List.range t.rd.touched).map _
    rw [← List.map_append, range_append_range' h.touched_le]
  · rw [← range_append_range' h.byte_le, List.map_append]
    congr 1
    refine List.map_congr_left fun i hi => ?_
    rw [h.read_written (List.mem_range.mp hi)]

theorem engineStep_keeps_busPattern {s t : State} (hi : s.Inv) (hp : s.BusPattern)
    (h : engineStep s = .next t) : t.BusPattern := by
  cases hb : s.busy with
  | false =>
    rw [engineStep_of_not_busy hb] at h
    cases h
    exact hp
  | true =>
    obtain ⟨t', h', k, bs, hend⟩ := engineStep_ends hi hb
    obtain rfl : t' = t := by rw [h'] at h; cases h; rfl
    cases hend with
    | goesOn hm _ => exact hp.moved hm
    | completes u _ _ ht => exact .of_not_busy (by rw [ht]; rfl)
    | overflows u _ _ ht => exact .of_not_busy (by rw [ht]; rfl)

/-- A START begins the record anew, with both cursors at their start (`43_commands.md` R201). -/
theorem start_keeps_busPattern {o : Op} {s t : State} (hp : s.BusPattern) (h : start o s = .next t) :
    t.BusPattern := by
  rcases start_cases h with ⟨-, rfl⟩ | ⟨-, -, -, rfl⟩ | ⟨-, -, -, rfl⟩
  · exact hp
  · exact .of_not_busy rfl
  · intro _
    cases o <;> exact ⟨rfl, rfl⟩

/-- Writing a register starts no command. -/
theorem State.writeOperand_busy (s : State) (r : Reg) (v : Nat) : (s.writeOperand r v).busy = s.busy := by
  cases r <;> rfl

theorem hostWriteReg_keeps_busPattern {off v : Nat} {s t : State} (hp : s.BusPattern)
    (h : hostWriteReg off v s = .next t) : t.BusPattern := by
  rcases hostWriteReg_cases h with ⟨rfl, -⟩ | ⟨hb, r, -, -, rfl⟩ | ⟨-, -, hstart⟩
  · exact hp
  · exact .of_not_busy ((s.writeOperand_busy r v).trans hb)
  · exact start_keeps_busPattern hp hstart

/-- An address outside the destination region, as the host's store tests it, is the address of no
destination byte of a legal command. -/
theorem State.Legal.dstByteAddr_ne_of_not_inDst {s : State} (hl : s.Legal) {a : Nat}
    (ha : s.inDst a = false) {i : Nat} (hi : i < s.dstLen) : s.dstByteAddr i ≠ a := by
  unfold State.inDst at ha
  rw [Bool.and_eq_false_iff, decide_eq_false_iff_not, decide_eq_false_iff_not] at ha
  rw [hl.dstByteAddr_eq hi]
  omega

/-- A host store misses the destination region of a command that executes, so the bytes written there
still hold what was written (`70_reset_and_hazards.md` R255). -/
theorem hostWriteMem_keeps_busPattern {a : Nat} {v : Byte} {s t : State} (hi : s.Inv)
    (hp : s.BusPattern) (h : hostWriteMem a v s = .next t) : t.BusPattern := by
  obtain ⟨-, hown, -, rfl⟩ := hostWriteMem_cases h
  obtain ⟨-, hm, -, -, hbusy⟩ := hi
  intro (hb : s.busy = true)
  obtain ⟨-, hl, -, ⟨-, hwr, -⟩, -⟩ := hbusy hb
  obtain ⟨hreads, hwrites⟩ := hp hb
  refine ⟨hreads, hwrites.trans (List.map_congr_left fun i hi => ?_)⟩
  have hlt : i < s.dstLen := Nat.lt_of_lt_of_le (List.mem_range.mp hi) hwr
  have hne := hl.dstByteAddr_ne_of_not_inDst (hown hb).2 hlt
  exact congrArg (Prod.mk _) (Memory.read_write_other v hm hne).symm

theorem hostAct_keeps_busPattern {a : HostAction} {s t : State} (hi : s.Inv) (hp : s.BusPattern)
    (h : hostAct a s = .next t) : t.BusPattern := by
  cases a with
  | writeReg off v => exact hostWriteReg_keeps_busPattern hp h
  | readReg off =>
    obtain ⟨r, -, rfl⟩ := hostReadReg_cases h
    rw [s.readReg_frame r]
    exact hp
  | writeMem a v => exact hostWriteMem_keeps_busPattern hi hp h
  | readMem a =>
    obtain ⟨-, -, -, rfl⟩ := hostReadMem_cases h
    exact hp
  | reset =>
    rcases hostReset_cases h with ⟨-, rfl⟩ | ⟨-, rfl⟩
    · exact .of_not_busy rfl
    · exact .of_not_busy rfl
  | wait => exact engineStep_keeps_busPattern hi hp h

/-- Settles O4: I1 to I4 and I7 by `stepKeepsInvariant`, I5 and I6 by the actor of the step. -/
theorem stepKeepsAccessPattern : Obligations.StepKeepsAccessPattern := by
  unfold Obligations.StepKeepsAccessPattern
  intro s t hi hp h
  refine ⟨stepKeepsInvariant s t hi h, ?_⟩
  rcases step_cases h with ⟨-, h⟩ | ⟨a, rest, -, h⟩
  · exact engineStep_keeps_busPattern hi hp h
  · exact hostAct_keeps_busPattern (hi.setHost rest) (hp.setHost rest) h

/-! ## Reset -/

/-- The invariant and the access pattern hold in IDLE with every register at zero, a value of every
width (log 2). -/
theorem State.resetWith_inv_busPattern {p : Widths} (ws : List Window) (hp : p.wellFormed = true) :
    (State.resetWith p ws).Inv ∧ (State.resetWith p ws).BusPattern := by
  have haddr := p.addrSpace_pos
  have hlen := p.lenSpace_pos
  exact ⟨.of_not_busy ⟨hp, haddr, hlen, haddr, hlen, hlen, hlen, hlen⟩ rfl nofun nofun rfl,
    .of_not_busy rfl⟩

/-- Settles O1: reset leaves IDLE, whose STATUS word is 0. -/
theorem resetLeavesIdleAndStatusZero : Obligations.ResetLeavesIdleAndStatusZero := by
  unfold Obligations.ResetLeavesIdleAndStatusZero
  exact ⟨rfl, fun p ws => ⟨rfl, rfl, rfl, rfl⟩⟩

/-- Settles O2: the base case of `stepKeepsAccessPattern`. -/
theorem invariantsHoldAtReset : Obligations.InvariantsHoldAtReset := by
  unfold Obligations.InvariantsHoldAtReset
  exact ⟨State.resetWith_inv_busPattern [] (by decide),
    fun _ ws hp => State.resetWith_inv_busPattern ws hp⟩

end Sys2Proof.Machine
end

section
/-!
PROOF. A word in the encoder's form determines, and is determined by, the instruction it decodes to.
-/

namespace Sys2Proof

theorem encode_decodeCode (v : Code) : encode (decodeCode v) = .code3 v := by
  revert v; decide

/-- A CTRL word in the encoder's form is START = 1 with OP beside it, and nothing above
(`10_state.md` R26). -/
theorem InstrWord.wellFormed_ctrl {w : Nat} (h : (InstrWord.ctrl w).wellFormed = true) :
    w = 0b01 ∨ w = 0b11 := by
  unfold InstrWord.wellFormed at h
  rw [Bool.and_eq_true, decide_eq_true_eq] at h
  obtain ⟨hstart, hlt⟩ := h
  interval_cases w
  · cases hstart
  · exact .inl rfl
  · cases hstart
  · exact .inr rfl

/-- Settles O10: code by code, and for the two command words. -/
theorem encodeInvertsDecode : Obligations.EncodeInvertsDecode := by
  unfold Obligations.EncodeInvertsDecode
  intro w i hw h
  cases w with
  | code3 v => cases h; exact encode_decodeCode v
  | ctrl w =>
    rcases InstrWord.wellFormed_ctrl hw with rfl | rfl
    · cases h; rfl
    · cases h; rfl

end Sys2Proof
end

section
/-!
PROOF. The register port: the map, what a host read returns, the STATUS word, and that a host write to a
register is dropped while BUSY.
-/

namespace Sys2Proof

/-! ## The stride (`10_state.md` R28) -/

theorem Widths.stride_of_le {p : Widths} (ha : p.aw ≤ 32) (hl : p.lw ≤ 32) : p.stride = 4 := by
  unfold Widths.stride; rw [if_pos ⟨ha, hl⟩]

theorem Widths.stride_of_wide {p : Widths} (h : 32 < max p.aw p.lw) (h8 : max p.aw p.lw % 8 = 0) :
    p.stride = max p.aw p.lw / 8 := by
  unfold Widths.stride
  rw [if_neg (by omega)]
  omega

end Sys2Proof

namespace Sys2Proof.Machine

/-! ## The register map (`10_state.md` R28) -/

/-- The offsets of the seven registers are the multiples 0 to 6 of the stride. -/
theorem Reg.map_offset (p : Widths) :
    [Reg.srcAddr, .srcLen, .dstAddr, .dstLen, .ctrl, .status, .result].map (Reg.offset p)
      = [0, 1, 2, 3, 4, 5, 6].map fun k => p.stride * k := rfl

/-- At an offset that is no register's offset the map has no register. -/
theorem Reg.ofOffset_eq_none {p : Widths} {off : Nat} (h : ∀ r : Reg, off ≠ r.offset p) :
    Reg.ofOffset p off = none :=
  Option.eq_none_iff_forall_ne_some.mpr fun r hr => h r (Reg.eq_offset_of_ofOffset hr)

theorem hostWriteReg_of_none {s : State} {off : Nat} (v : Nat)
    (h : Reg.ofOffset s.widths off = none) : hostWriteReg off v s = .fault .noRegister := by
  unfold hostWriteReg; rw [h]

theorem hostReadReg_of_none {s : State} {off : Nat} (h : Reg.ofOffset s.widths off = none) :
    hostReadReg off s = .fault .noRegister := by
  unfold hostReadReg; rw [h]

theorem hostReadReg_of_some {s : State} {off : Nat} {r : Reg}
    (h : Reg.ofOffset s.widths off = some r) : hostReadReg off s = .next (s.readReg r) := by
  unfold hostReadReg; rw [h]

/-- Settles O54: the offsets by the stride, the map's two directions by the register found at an
offset. -/
theorem registerMapIsExact : Obligations.RegisterMapIsExact := by
  unfold Obligations.RegisterMapIsExact
  refine ⟨fun p ha hl => ?_, fun p hwide h8 => ?_, Reg.ofOffset_offset, fun s off v rest hoff h => ?_⟩
  · rw [Reg.map_offset, Widths.stride_of_le ha hl]; rfl
  · rw [Reg.map_offset, Widths.stride_of_wide hwide h8]
  · have hnone := Reg.ofOffset_eq_none hoff
    rcases h with h | h
    · exact (step_of_host_cons h).trans (hostWriteReg_of_none (s := s.setHost rest) v hnone)
    · exact (step_of_host_cons h).trans (hostReadReg_of_none (s := s.setHost rest) hnone)

/-! ## Register reads -/

/-- The step of a host read at the offset of a register is that register's read, in every phase
(`10_state.md` R28, R29). -/
theorem step_readReg {s : State} {r : Reg} {rest : List HostAction}
    (h : s.host = .readReg (r.offset s.widths) :: rest) :
    step s = .next ((s.setHost rest).readReg r) :=
  (step_of_host_cons h).trans (hostReadReg_of_some (s := s.setHost rest) (Reg.ofOffset_offset _ r))

theorem State.doneFlag_eq_true_iff (s : State) : s.doneFlag = true ↔ s.phase = .done := by
  unfold State.doneFlag; rw [beq_iff_eq]

/-- RESULT reads as its value while DONE is 1 (`43_commands.md` R206). -/
theorem State.readReg_result_of_done {s : State} (h : s.phase = .done) :
    s.readReg .result = s.setHostData s.result :=
  if_pos (s.doneFlag_eq_true_iff.mpr h)

/-- Settles O47: the register at the offset is read by `State.readReg`. -/
theorem hostReadsRegisters : Obligations.HostReadsRegisters := by
  unfold Obligations.HostReadsRegisters
  intro s rest
  refine ⟨fun h => ?_, fun h => ?_, fun h => ?_, fun h => ?_, fun h => ?_, fun h => ?_, fun h hd => ?_⟩
  · exact step_readReg (r := .srcAddr) h
  · exact step_readReg (r := .srcLen) h
  · exact step_readReg (r := .dstAddr) h
  · exact step_readReg (r := .dstLen) h
  · exact step_readReg (r := .ctrl) h
  · exact step_readReg (r := .status) h
  · rw [step_readReg (r := .result) h, State.readReg_result_of_done (s := s.setHost rest) hd]
    rfl

/-! ## STATUS (`10_state.md` R27) -/

/-- Three flags laid out from bit 0 on. -/
theorem testBit_three_flags (a b c : Bool) :
    (a.toNat + 2 * b.toNat + 4 * c.toNat).testBit 0 = a
      ∧ (a.toNat + 2 * b.toNat + 4 * c.toNat).testBit 1 = b
      ∧ (a.toNat + 2 * b.toNat + 4 * c.toNat).testBit 2 = c
      ∧ a.toNat + 2 * b.toNat + 4 * c.toNat < 8 := by
  revert a b c; decide

/-- Settles O48: the word's layout, and the clauses of the invariant on OVF. -/
theorem statusWordBits : Obligations.StatusWordBits := by
  unfold Obligations.StatusWordBits
  refine ⟨fun s => testBit_three_flags s.busy s.doneFlag s.statusOvf, fun s hi => ?_⟩
  obtain ⟨-, -, hovf, hsign, -⟩ := hi
  rw [s.doneFlag_eq_true_iff]
  exact ⟨fun ⟨hb, hd⟩ => State.phase_ne_done_of_busy hb hd, hovf, hsign⟩

/-! ## While BUSY (`10_state.md` R29) -/

/-- A START while BUSY is ignored (`43_commands.md` R201). -/
theorem start_of_busy (o : Op) {s : State} (hb : s.busy = true) : start o s = .next s := by
  unfold start; rw [if_pos hb]

/-- Settles O21: both commands are a START. -/
theorem startWhileBusyIgnored : Obligations.StartWhileBusyIgnored := by
  unfold Obligations.StartWhileBusyIgnored
  exact fun s hb => ⟨start_of_busy .encode hb, start_of_busy .decode hb⟩

/-- A host write to any register is dropped while BUSY. -/
theorem hostWriteReg_of_busy {s : State} {off : Nat} {r : Reg} (v : Nat) (hb : s.busy = true)
    (h : Reg.ofOffset s.widths off = some r) : hostWriteReg off v s = .next s := by
  unfold hostWriteReg
  rw [h]
  cases r with
  | ctrl =>
    simp only
    split
    · next i hi =>
      obtain ⟨-, ⟨-, rfl⟩ | ⟨-, rfl⟩⟩ := decodeCtrl_cases hi
      · exact start_of_busy .encode hb
      · exact start_of_busy .decode hb
    · rfl
  | _ => exact if_pos hb

theorem eq_of_hostWriteReg_of_busy {s t : State} {off v : Nat} (hb : s.busy = true)
    (h : hostWriteReg off v s = .next t) : t = s := by
  cases hoff : Reg.ofOffset s.widths off with
  | none => rw [hostWriteReg_of_none v hoff] at h; cases h
  | some r => rw [hostWriteReg_of_busy v hb hoff] at h; cases h; rfl

/-- `t` has the four operands of `s` (`10_state.md` R21 to R24). -/
def State.SameOperands (s t : State) : Prop :=
  t.srcAddr = s.srcAddr ∧ t.srcLen = s.srcLen ∧ t.dstAddr = s.dstAddr ∧ t.dstLen = s.dstLen

theorem State.SameOperands.refl (s : State) : s.SameOperands s := ⟨rfl, rfl, rfl, rfl⟩

theorem State.OnlyEngine.sameOperands {s t : State} (h : s.OnlyEngine t) : s.SameOperands t := by
  unfold State.OnlyEngine at h
  rw [h]
  exact ⟨rfl, rfl, rfl, rfl⟩

/-- While BUSY no action of the host but a reset changes an operand. -/
theorem hostAct_sameOperands_of_busy {a : HostAction} {s t : State} (hb : s.busy = true)
    (ha : a ≠ .reset) (h : hostAct a s = .next t) : s.SameOperands t := by
  cases a with
  | writeReg off v => rw [eq_of_hostWriteReg_of_busy hb h]; exact .refl s
  | readReg off =>
    obtain ⟨r, -, rfl⟩ := hostReadReg_cases h
    rw [s.readReg_frame r]
    exact .refl s
  | writeMem a v =>
    obtain ⟨-, -, -, rfl⟩ := hostWriteMem_cases h
    exact .refl s
  | readMem a =>
    obtain ⟨-, -, -, rfl⟩ := hostReadMem_cases h
    exact .refl s
  | reset => exact absurd rfl ha
  | wait => exact (engineStep_onlyEngine h).sameOperands

/-- Settles O45: a register write is dropped, a register read has the frame of `State.readReg`, and no
actor but a reset writes an operand. -/
theorem hostAccessWhileBusy : Obligations.HostAccessWhileBusy := by
  unfold Obligations.HostAccessWhileBusy
  refine ⟨fun s off v rest hb h hoff => ?_, fun s off rest h hoff => ?_, fun s t hb h hreset => ?_⟩
  · obtain ⟨r, hr⟩ := Option.isSome_iff_exists.mp hoff
    exact (step_of_host_cons h).trans (hostWriteReg_of_busy (s := s.setHost rest) v hb hr)
  · obtain ⟨r, hr⟩ := Option.isSome_iff_exists.mp hoff
    exact ⟨_, (step_of_host_cons h).trans (hostReadReg_of_some (s := s.setHost rest) hr),
      (s.setHost rest).readReg_frame r⟩
  · rcases step_cases h with ⟨-, h⟩ | ⟨a, rest, hhost, h⟩
    · exact (engineStep_onlyEngine h).sameOperands
    · have hne : a ≠ .reset := fun he => hreset rest (he ▸ hhost)
      exact hostAct_sameOperands_of_busy (s := s.setHost rest) hb hne h

end Sys2Proof.Machine
end

section
/-!
PROOF. Memory: the stream order of the source bits, the host's accesses to memory, and where the engine's
accesses may fall.
-/

namespace Sys2Proof

/-! ## Stream order (`20_memory.md` R65) -/

theorem bitsOf_append (xs ys : List Byte) : bitsOf (xs ++ ys) = bitsOf xs ++ bitsOf ys := by
  induction xs with
  | nil => rfl
  | cons x xs ih => exact (congrArg (byteBits x ++ ·) ih).trans (List.append_assoc _ _ _).symm

theorem byteBits_eq_map (x : Byte) : byteBits x = (List.range 8).map fun k => x.getLsbD (7 - k) := rfl

/-- The bits of `n` bytes given by index: position p is bit 7 - p mod 8 of byte p / 8. -/
theorem bitsOf_map_range (f : Nat → Byte) (n : Nat) :
    bitsOf ((List.range n).map f)
      = (List.range (8 * n)).map fun p => (f (p / 8)).getLsbD (7 - p % 8) := by
  induction n with
  | zero => rfl
  | succ n ih =>
    have hlast : byteBits (f n)
        = (List.range 8).map fun k => (f ((8 * n + k) / 8)).getLsbD (7 - (8 * n + k) % 8) := by
      rw [byteBits_eq_map]
      refine List.map_congr_left fun k hk => ?_
      have hk8 : k < 8 := List.mem_range.mp hk
      rw [Nat.mul_add_div (by decide), Nat.mul_add_mod, Nat.div_eq_of_lt hk8, Nat.mod_eq_of_lt hk8,
        Nat.add_zero]
    have hone : bitsOf [f n] = byteBits (f n) := List.append_nil _
    rw [List.range_succ, List.map_append, bitsOf_append, ih, List.map_singleton, hone, hlast,
      Nat.mul_succ, List.range_add, List.map_append, List.map_map]
    rfl

end Sys2Proof

namespace Sys2Proof.Machine

/-- Settles O13: `State.srcBytes` lists the source bytes by index. -/
theorem sourceBitsAreMostSignificantFirst : Obligations.SourceBitsAreMostSignificantFirst := by
  unfold Obligations.SourceBitsAreMostSignificantFirst
  exact fun s => bitsOf_map_range s.srcByte s.srcLen

/-! ## The host's accesses (`20_memory.md` R60, R69) -/

theorem hostWriteMem_of_ge {s : State} {a : Nat} (v : Byte) (h : s.widths.addrSpace ≤ a) :
    hostWriteMem a v s = .fault .noAddress := by
  unfold hostWriteMem; rw [if_pos h]

theorem hostReadMem_of_ge {s : State} {a : Nat} (h : s.widths.addrSpace ≤ a) :
    hostReadMem a s = .fault .noAddress := by
  unfold hostReadMem; rw [if_pos h]

theorem hostWriteMem_of_plain {s : State} {a : Nat} (v : Byte) (hb : s.busy = false)
    (ha : a < s.widths.addrSpace) (hp : plainWritable s.windows a 1 = true) :
    hostWriteMem a v s = .next { s with mem := s.mem.write a v } := by
  unfold hostWriteMem
  rw [if_neg (Nat.not_le.mpr ha), hb, hp]
  rfl

theorem hostReadMem_of_plain {s : State} {a : Nat} (hb : s.busy = false)
    (ha : a < s.widths.addrSpace) (hp : plainReadable s.windows a 1 = true) :
    hostReadMem a s = .next (s.setHostData (s.mem.read a).toNat) := by
  unfold hostReadMem
  rw [if_neg (Nat.not_le.mpr ha), hb, hp]
  rfl

/-- An address that no window of the map covers is plain memory (`20_memory.md` R71). -/
theorem plain_of_uncovered {ws : List Window} {a : Nat} (h : ∀ w ∈ ws, ¬w.Covers a) :
    plainReadable ws a 1 = true ∧ plainWritable ws a 1 = true := by
  have hno : ∀ i, i < 1 → ∀ w ∈ ws, ¬w.Covers (a + i) := fun i hi w hw => by
    obtain rfl : i = 0 := Nat.lt_one_iff.mp hi
    exact h w hw
  exact ⟨(plainReadable_iff ws a 1).mpr fun i hi w hw hc => absurd hc (hno i hi w hw),
    (plainWritable_iff ws a 1).mpr fun i hi w hw hc => absurd hc (hno i hi w hw)⟩

/-- Settles O55: the address is tested before anything else. -/
theorem addressesOutsideTheSpaceFault : Obligations.AddressesOutsideTheSpaceFault := by
  unfold Obligations.AddressesOutsideTheSpaceFault
  intro s a v rest ha h
  rcases h with h | h
  · exact (step_of_host_cons h).trans (hostWriteMem_of_ge (s := s.setHost rest) v ha)
  · exact (step_of_host_cons h).trans (hostReadMem_of_ge (s := s.setHost rest) ha)

/-- Settles O56: an address no window covers is plain memory, and the store is `Memory.write`. -/
theorem hostUsesMemory : Obligations.HostUsesMemory := by
  unfold Obligations.HostUsesMemory
  intro s a v rest hb hm ha hw
  obtain ⟨hread, hwrite⟩ := plain_of_uncovered hw
  refine ⟨fun h => ?_, fun h => ?_⟩
  · exact ⟨{ s.setHost rest with mem := s.mem.write a v },
      (step_of_host_cons h).trans (hostWriteMem_of_plain (s := s.setHost rest) v hb ha hwrite), rfl,
      Memory.read_write_same a v hm, fun b hne => Memory.read_write_other v hm hne⟩
  · exact (step_of_host_cons h).trans (hostReadMem_of_plain (s := s.setHost rest) hb ha hread)

/-! ## Where the engine's accesses fall (`20_memory.md` R63) -/

theorem Moved.srcLen {s t : State} {k : Nat} {bs : List Bool} (h : Moved s t k bs) :
    t.srcLen = s.srcLen := by
  rw [h.only]

theorem Moved.dstLen {s t : State} {k : Nat} {bs : List Bool} (h : Moved s t k bs) :
    t.dstLen = s.dstLen := by
  rw [h.only]

theorem Moved.wr_byte_le {s t : State} {k : Nat} {bs : List Bool} (h : Moved s t k bs) :
    t.wr.byte ≤ s.dstLen := by
  obtain ⟨-, hle, -⟩ := h.writeOk
  rwa [h.dstLen] at hle

theorem Moved.touched_le_srcLen {s t : State} {k : Nat} {bs : List Bool} (h : Moved s t k bs) :
    t.rd.touched ≤ s.srcLen := by
  have hle := h.readOk.touched_le
  rwa [h.srcLen] at hle

theorem Moved.read_outsideDst {s t : State} {k : Nat} {bs : List Bool} (h : Moved s t k bs) {a : Nat}
    (ha : s.OutsideDst a) : t.mem.read a = s.mem.read a :=
  h.mem a fun i _ hi => ha i (Nat.lt_of_lt_of_le hi h.wr_byte_le)

/-- The bytes the cursors pass lie inside the regions, since the cursors do. -/
theorem Moved.accesses_inside {s t : State} {k : Nat} {bs : List Bool} (h : Moved s t k bs) :
    ∃ new, t.bus = new ++ s.bus ∧ ∀ x ∈ new, s.AccessInside x := by
  have hwr := h.wr_byte_le
  have hrd := h.touched_le_srcLen
  refine ⟨_, h.bus.trans (List.append_assoc _ _ _).symm, fun x hx => ?_⟩
  simp only [List.mem_append, List.mem_reverse, List.mem_map, List.mem_range'_1] at hx
  rcases hx with ⟨i, ⟨hlo, hhi⟩, rfl⟩ | ⟨i, ⟨hlo, hhi⟩, rfl⟩
  · exact ⟨i, by omega, rfl⟩
  · exact ⟨i, by omega, rfl⟩

/-- However an engine step ends, its memory and its accesses are those of moving through the command. -/
theorem StepEnd.moved {s t : State} {k : Nat} {bs : List Bool} (h : StepEnd s t k bs) :
    ∃ u, Moved s u k bs ∧ t.mem = u.mem ∧ t.bus = u.bus := by
  cases h with
  | goesOn hm _ => exact ⟨t, hm, rfl, rfl⟩
  | completes u hm _ ht => exact ⟨u, hm, by rw [ht]; rfl, by rw [ht]; rfl⟩
  | overflows u hm _ ht => exact ⟨u, hm, by rw [ht]; rfl, by rw [ht]; rfl⟩

theorem engineStep_inside {s t : State} (hi : s.Inv) (h : engineStep s = .next t) :
    (∀ a, s.OutsideDst a → t.mem.read a = s.mem.read a)
      ∧ ∃ new, t.bus = new ++ s.bus ∧ ∀ x ∈ new, s.AccessInside x := by
  cases hb : s.busy with
  | false =>
    rw [engineStep_of_not_busy hb] at h
    cases h
    exact ⟨fun _ _ => rfl, [], rfl, nofun⟩
  | true =>
    obtain ⟨t', h', k, bs, hend⟩ := engineStep_ends hi hb
    obtain rfl : t' = t := by rw [h'] at h; cases h; rfl
    obtain ⟨u, hm, hmem, hbus⟩ := hend.moved
    rw [hmem, hbus]
    exact ⟨fun a ha => hm.read_outsideDst ha, hm.accesses_inside⟩

/-- Where the engine is next, the step is the engine's, an action `wait` of the host being taken. -/
theorem step_of_engineNext {s : State} (h : s.EngineNext) : ∃ l, step s = engineStep (s.setHost l) := by
  rcases h with h | ⟨rest, h⟩
  · refine ⟨[], ?_⟩
    rw [step_of_host_nil h, ← h]
    rfl
  · exact ⟨rest, step_of_host_cons h⟩

/-- Settles O31: every end of an engine step moves both cursors inside their regions. -/
theorem engineStaysInsideItsRegions : Obligations.EngineStaysInsideItsRegions := by
  unfold Obligations.EngineStaysInsideItsRegions
  intro s t hi hnext h
  obtain ⟨l, hstep⟩ := step_of_engineNext hnext
  have hinside := engineStep_inside (hi.setHost l) (hstep.symm.trans h)
  -- what lies inside a region does not depend on the host's actions still to come
  exact hinside

end Sys2Proof.Machine
end

section
/-!
PROOF. An engine step is blind to memory outside the source region (`43_commands.md` R209), by a
simulation: states that differ in memory only, and agree on the addresses of `P`, stay so through every
primitive of the engine as long as it reads at addresses of `P` only.
-/

namespace Sys2Proof.Machine

/-! ## The relation -/

/-- `u` is `s` with another canonical memory, which agrees with that of `s` on the addresses of `P`. -/
def AgreeOn (P : Nat → Prop) (s u : State) : Prop :=
  ∃ m : Memory, u = { s with mem := m } ∧ s.memWf = true ∧ m.wf s.widths.addrSpace = true
    ∧ ∀ a, P a → m.read a = s.mem.read a

/-- Both emissions go on, or both have taken the exception, in states that agree. -/
inductive Emit.AgreeOn (P : Nat → Prop) : Emit → Emit → Prop where
  | ok {s u : State} (h : Machine.AgreeOn P s u) : Emit.AgreeOn P (.ok s) (.ok u)
  | overflow {s u : State} (h : Machine.AgreeOn P s u) : Emit.AgreeOn P (.overflow s) (.overflow u)

/-- Both steps answer a next state, and the two agree. -/
def NextAgree (P : Nat → Prop) (o o' : Host.Outcome State Fault Refusal) : Prop :=
  ∃ t u, o = .next t ∧ o' = .next u ∧ AgreeOn P t u

section
variable {P : Nat → Prop}

/-! ## The named updates -/

/-- An update that neither reads nor writes memory, nor the parameters, keeps agreement. -/
theorem AgreeOn.map {s u : State} (f : State → State) (h : AgreeOn P s u)
    (hf : ∀ x m, f { x with mem := m } = { f x with mem := m }) (hm : (f s).mem = s.mem)
    (hw : (f s).widths = s.widths) : AgreeOn P (f s) (f u) := by
  obtain ⟨m, rfl, hs, hwf, hr⟩ := h
  refine ⟨m, hf s m, ?_, hw ▸ hwf, fun a ha => (hr a ha).trans (by rw [hm])⟩
  unfold State.memWf
  rw [hm, hw]
  exact hs

/-- The same byte stored at the same address keeps agreement. -/
theorem AgreeOn.storeByte {s u : State} (h : AgreeOn P s u) {a : Nat} (v : Byte)
    (ha : a < s.widths.addrSpace) : AgreeOn P (s.storeByte a v) (u.storeByte a v) := by
  obtain ⟨m, rfl, hs, hwf, hr⟩ := h
  refine ⟨m.write a v, rfl, Memory.write_wf v ha hs, Memory.write_wf v ha hwf, fun b hb => ?_⟩
  rw [State.storeByte_mem, Memory.read_write a b v hwf, Memory.read_write a b v hs, hr b hb]

/-- A byte read at an address of `P` is the same in both. -/
theorem AgreeOn.loadRbuf {s u : State} (h : AgreeOn P s u) {a : Nat} (ha : P a) :
    AgreeOn P (s.loadRbuf a) (u.loadRbuf a) := by
  obtain ⟨m, rfl, hs, hwf, hr⟩ := h
  refine ⟨m, ?_, hs, hwf, hr⟩
  unfold State.loadRbuf
  rw [hr a ha]

theorem AgreeOn.setWr {s u : State} (h : AgreeOn P s u) (c : Cursor) (w : Byte) :
    AgreeOn P (s.setWr c w) (u.setWr c w) :=
  h.map (fun x => x.setWr c w) (fun _ _ => rfl) rfl rfl

theorem AgreeOn.setRd {s u : State} (h : AgreeOn P s u) (c : Cursor) :
    AgreeOn P (s.setRd c) (u.setRd c) :=
  h.map (fun x => x.setRd c) (fun _ _ => rfl) rfl rfl

theorem AgreeOn.setCnt {s u : State} (h : AgreeOn P s u) (c : BitVec 3) :
    AgreeOn P (s.setCnt c) (u.setCnt c) :=
  h.map (fun x => x.setCnt c) (fun _ _ => rfl) rfl rfl

theorem AgreeOn.flipPol {s u : State} (h : AgreeOn P s u) : AgreeOn P s.flipPol u.flipPol :=
  h.map State.flipPol (fun _ _ => rfl) rfl rfl

theorem AgreeOn.complete {s u : State} (h : AgreeOn P s u) : AgreeOn P s.complete u.complete :=
  h.map State.complete (fun _ _ => rfl) rfl rfl

theorem AgreeOn.takeOverflow {s u : State} (h : AgreeOn P s u) :
    AgreeOn P s.takeOverflow u.takeOverflow :=
  h.map State.takeOverflow (fun _ _ => rfl) rfl rfl

theorem State.dstPtr_lt (s : State) : s.dstPtr < s.widths.addrSpace := Widths.narrowAddr_lt _ _

/-! ## The output side -/

/-- `put_bit` stores what the accumulator holds, which no memory decides (`40_bit_cursor.md` R125). -/
theorem AgreeOn.placeBit {s u : State} (h : AgreeOn P s u) (b : Bool) :
    AgreeOn P (s.placeBit b) (u.placeBit b) := by
  have hu : u.placeBit b = if s.wr.bit = 7
      then (u.storeByte s.dstPtr (s.wacc ||| bitAt b s.wr.bit)).setWr (s.wr.next s.widths) 0
      else u.setWr (s.wr.next s.widths) (s.wacc ||| bitAt b s.wr.bit) := by
    obtain ⟨m, rfl, -⟩ := h
    rfl
  rw [hu]
  unfold State.placeBit
  simp only
  split
  · exact (h.storeByte _ s.dstPtr_lt).setWr _ _
  · exact h.setWr _ _

/-- `flush` stores what the accumulator holds (`40_bit_cursor.md` R127). -/
theorem AgreeOn.flush {s u : State} (h : AgreeOn P s u) : AgreeOn P s.flush u.flush := by
  have hu : u.flush = if s.wr.bit = 0 then u
      else (u.storeByte s.dstPtr s.wacc).setWr ⟨s.widths.narrowLen (s.wr.byte + 1), 0⟩ 0 := by
    obtain ⟨m, rfl, -⟩ := h
    rfl
  rw [hu]
  unfold State.flush
  split
  · exact h
  · exact (h.storeByte _ s.dstPtr_lt).setWr _ _

theorem Emit.AgreeOn.andThen {e e' : Emit} {f : State → Emit} (h : Emit.AgreeOn P e e')
    (hf : ∀ {s u}, Machine.AgreeOn P s u → Emit.AgreeOn P (f s) (f u)) :
    Emit.AgreeOn P (e.andThen f) (e'.andThen f) := by
  cases h with
  | ok h => exact hf h
  | overflow h => exact .overflow h

theorem Emit.AgreeOn.map {e e' : Emit} {f : State → State} (h : Emit.AgreeOn P e e')
    (hf : ∀ {s u}, Machine.AgreeOn P s u → Machine.AgreeOn P (f s) (f u)) :
    Emit.AgreeOn P (e.map f) (e'.map f) := by
  cases h with
  | ok h => exact .ok (hf h)
  | overflow h => exact .overflow h

theorem Emit.AgreeOn.outcome {e e' : Emit} (h : Emit.AgreeOn P e e') :
    NextAgree P e.outcome e'.outcome := by
  cases h with
  | ok h => exact ⟨_, _, rfl, rfl, h⟩
  | overflow h => exact ⟨_, _, rfl, rfl, h⟩

theorem AgreeOn.putBit {s u : State} (h : AgreeOn P s u) (b : Bool) :
    Emit.AgreeOn P (putBit b s) (putBit b u) := by
  have hfull : u.wr.byte = u.dstLen ↔ s.wr.byte = s.dstLen := by
    obtain ⟨m, rfl, -⟩ := h
    exact Iff.rfl
  by_cases hs : s.wr.byte = s.dstLen
  · rw [putBit_of_eq hs, putBit_of_eq (hfull.mpr hs)]
    exact .overflow h.takeOverflow
  · rw [putBit_of_ne hs, putBit_of_ne (hfull.not.mpr hs)]
    exact .ok (h.placeBit b)

theorem AgreeOn.putList {s u : State} (h : AgreeOn P s u) (bs : List Bool) :
    Emit.AgreeOn P (putList bs s) (putList bs u) := by
  induction bs generalizing s u with
  | nil => exact .ok h
  | cons b bs ih => exact (h.putBit b).andThen ih

/-! ## The input side -/

theorem AgreeOn.fetchByte {s u : State} (h : AgreeOn P s u) (hp : P s.srcPtr) :
    AgreeOn P s.fetchByte u.fetchByte := by
  have hu : u.fetchByte = if s.rd.bit = 0 then u.loadRbuf s.srcPtr else u := by
    obtain ⟨m, rfl, -⟩ := h
    rfl
  rw [hu]
  unfold State.fetchByte
  split
  · exact h.loadRbuf hp
  · exact h

/-- `get_bit` inside the source region reads at most one byte, a source byte (`40_bit_cursor.md`
R122). -/
theorem AgreeOn.getBit {s u : State} (h : AgreeOn P s u)
    (hsrc : ∀ i, i < s.srcLen → P (s.srcByteAddr i)) (hlt : s.rd.byte < s.srcLen) :
    (getBit u).1 = (getBit s).1 ∧ AgreeOn P (getBit s).2 (getBit u).2 := by
  have hfetch := h.fetchByte (hsrc _ hlt)
  have hbuf : u.fetchByte.rbuf = s.fetchByte.rbuf ∧ u.fetchByte.rd = s.fetchByte.rd
      ∧ u.fetchByte.widths = s.fetchByte.widths := by
    obtain ⟨m, e, -⟩ := hfetch
    rw [e]
    exact ⟨rfl, rfl, rfl⟩
  obtain ⟨hrbuf, hrd, hw⟩ := hbuf
  unfold Machine.getBit
  simp only [hrbuf, hrd, hw]
  exact ⟨trivial, hfetch.setRd _⟩

/-- A stream position before the end of the source is in a source byte. -/
theorem State.rd_byte_lt {s : State} (h : s.rd.pos < 8 * s.srcLen) : s.rd.byte < s.srcLen := by
  unfold Cursor.pos at h
  omega

/-- `get_code` inside the source region reads source bytes only (`40_bit_cursor.md` R124). -/
theorem AgreeOn.getCode {s u : State} (h : AgreeOn P s u)
    (hsrc : ∀ i, i < s.srcLen → P (s.srcByteAddr i)) (hr : s.ReadOk)
    (hpos : s.rd.pos + 3 ≤ 8 * s.srcLen) :
    (getCode u).1 = (getCode s).1 ∧ AgreeOn P (getCode s).2 (getCode u).2 := by
  have take : ∀ {k : Nat} {t v : State}, k < 3 → Consumed s t k → AgreeOn P t v →
      Consumed s (Machine.getBit t).2 (k + 1)
        ∧ (Machine.getBit v).1 = (Machine.getBit t).1
        ∧ AgreeOn P (Machine.getBit t).2 (Machine.getBit v).2 := by
    intro k t v hk hc ha
    have hlt : t.rd.byte < t.srcLen := State.rd_byte_lt (by rw [hc.pos, hc.srcLen]; omega)
    refine ⟨hc.trans (getBit_spec hc.readOk hlt.ne).2, ha.getBit (fun i hi => ?_) hlt⟩
    rw [hc.srcByteAddr]
    exact hsrc i (hc.srcLen ▸ hi)
  obtain ⟨c0, b0, a0⟩ := take (by decide) (.refl hr) h
  obtain ⟨c1, b1, a1⟩ := take (by decide) c0 a0
  obtain ⟨-, b2, a2⟩ := take (by decide) c1 a1
  refine ⟨?_, a2⟩
  unfold Machine.getCode
  simp only [b0, b1, b2]

/-! ## The engine's steps -/

theorem AgreeOn.exec_code {s u : State} (h : AgreeOn P s u) (v : Code) :
    NextAgree P (exec (decodeCode v) s) (exec (decodeCode v) u) := by
  have hpol : u.pol = s.pol := by obtain ⟨m, rfl, -⟩ := h; rfl
  rw [Machine.exec_code, Machine.exec_code, hpol]
  refine ((h.putList _).map fun hx => ?_).outcome
  split
  · exact hx
  · exact hx.flipPol

theorem AgreeOn.encScan {s u : State} (h : AgreeOn P s u)
    (hsrc : ∀ i, i < s.srcLen → P (s.srcByteAddr i)) (hlt : s.rd.byte < s.srcLen) :
    NextAgree P (encScan s) (encScan u) := by
  obtain ⟨hbit, ha⟩ := h.getBit hsrc hlt
  have hsame : (Machine.getBit u).2.pol = (Machine.getBit s).2.pol
      ∧ (Machine.getBit u).2.cnt = (Machine.getBit s).2.cnt := by
    obtain ⟨m, e, -⟩ := ha
    rw [e]
    exact ⟨rfl, rfl⟩
  obtain ⟨hpol, hcnt⟩ := hsame
  unfold Machine.encScan
  simp only [hbit, hpol, hcnt, State.setCnt_cnt, putCode_eq_putList]
  split
  · split
    · exact (((ha.setCnt _).putList _).map fun hx => hx.setCnt 0).outcome
    · exact ⟨_, _, rfl, rfl, ha.setCnt _⟩
  · exact ((ha.putList _).map fun hx => hx.flipPol.setCnt 1).outcome

theorem AgreeOn.encFinish {s u : State} (h : AgreeOn P s u) :
    NextAgree P (encFinish s) (encFinish u) := by
  have hcnt : u.cnt = s.cnt := by obtain ⟨m, rfl, -⟩ := h; rfl
  unfold Machine.encFinish
  rw [putCode_eq_putList, putCode_eq_putList, hcnt]
  exact ((h.putList _).map fun hx => hx.flush.complete).outcome

theorem AgreeOn.decCode {s u : State} (h : AgreeOn P s u)
    (hsrc : ∀ i, i < s.srcLen → P (s.srcByteAddr i)) (hr : s.ReadOk)
    (hpos : s.rd.pos + 3 ≤ 8 * s.srcLen) : NextAgree P (decCode s) (decCode u) := by
  obtain ⟨hcode, ha⟩ := h.getCode hsrc hr hpos
  unfold Machine.decCode
  simp only [hcode]
  exact ha.exec_code _

theorem AgreeOn.decFinish {s u : State} (h : AgreeOn P s u) :
    NextAgree P (decFinish s) (decFinish u) :=
  ⟨_, _, rfl, rfl, h.flush.complete⟩

/-- Which step is enabled is decided by the phase and the cursors; the step then reads source bytes
only. -/
theorem AgreeOn.engineStep {s u : State} (h : AgreeOn P s u) (hi : s.Inv) (hb : s.busy = true)
    (hsrc : ∀ i, i < s.srcLen → P (s.srcByteAddr i)) :
    NextAgree P (engineStep s) (engineStep u) := by
  obtain ⟨⟨hp, -⟩, -, -, -, hbusy⟩ := hi
  obtain ⟨-, ⟨⟨hlen, -⟩, -⟩, hr, -⟩ := hbusy hb
  have ⟨_, hle, _, _⟩ := hr
  have hsame : u.phase = s.phase ∧ u.atEnd = s.atEnd ∧ u.codeAvail = s.codeAvail := by
    obtain ⟨m, rfl, -⟩ := h
    exact ⟨rfl, rfl, rfl⟩
  obtain ⟨hphase, hend, havail⟩ := hsame
  unfold Machine.engineStep
  rw [hphase, hend, havail]
  cases s.phase with
  | idle => exact ⟨_, _, rfl, rfl, h⟩
  | done => exact ⟨_, _, rfl, rfl, h⟩
  | enc =>
    simp only
    split
    · exact h.encFinish
    · next he =>
      have hne := State.ne_end (Bool.eq_false_of_not_eq_true he)
      exact h.encScan hsrc (Nat.lt_of_le_of_ne hle hne)
  | dec =>
    simp only
    split
    · next ha => exact h.decCode hsrc hr ((State.codeAvail_iff hp hr hlen).mp ha)
    · exact h.decFinish

end

/-- Settles O33: the simulation, on the addresses where the two memories agree. -/
theorem engineSeesOnlyTheSource : Obligations.EngineSeesOnlyTheSource := by
  unfold Obligations.EngineSeesOnlyTheSource
  intro s m hi hb hm hsrc
  have ⟨_, hwf, _⟩ := hi
  have hagree : AgreeOn (fun a => m.read a = s.mem.read a) s { s with mem := m } :=
    ⟨m, rfl, hwf, hm, fun _ ha => ha⟩
  obtain ⟨t, u, ht, hu, m', rfl, -, -, hreads⟩ := hagree.engineStep hi hb hsrc
  exact ⟨t, _, ht, hu, rfl, hreads⟩

end Sys2Proof.Machine
end

section
/-!
PROOF. The code stream as ENCODE lays it out (`30_encoding.md` R91, R97): the bits of a packed byte list,
and what reading a stream back gives (R98, R100).
-/

namespace Sys2Proof

/-! ## `pack` (`00_scope.md` R10) -/

/-- The bit at stream offset k of a byte is its bit 7 - k (`00_scope.md` R8). -/
theorem getLsbD_byteOfOffsets (f : Nat → Bool) {k : Nat} (hk : k < 8) :
    (byteOfOffsets f).getLsbD (7 - k) = f k := by
  unfold byteOfOffsets
  rw [BitVec.getLsbD_ofFnLE, dif_pos (by omega), Nat.sub_sub_self (by omega)]

theorem length_pack (b : List Bool) : (pack b).length = (b.length + 7) / 8 := by
  unfold pack
  rw [List.length_map, List.length_range]

/-- Positions past the end of a bit list read as 0. -/
theorem map_getD_range (b : List Bool) (q : Nat) :
    ((List.range (b.length + q)).map fun p => b.getD p false) = b ++ List.replicate q false := by
  induction b with
  | nil =>
    show ((List.range (0 + q)).map fun _ => false) = List.replicate q false
    rw [List.map_const', List.length_range, Nat.zero_add]
  | cons x xs ih =>
    have hlen : (x :: xs).length + q = xs.length + q + 1 := Nat.add_right_comm _ _ _
    rw [hlen, List.range_succ_eq_map, List.map_cons, List.map_map]
    exact congrArg (x :: ·) ih

/-- The bits of a packed list are the list and then zero bits up to the byte boundary. -/
theorem bitsOf_pack (b : List Bool) :
    bitsOf (pack b) = b ++ List.replicate ((8 - b.length % 8) % 8) false := by
  have hlen : 8 * ((b.length + 7) / 8) = b.length + (8 - b.length % 8) % 8 := by omega
  unfold pack
  rw [bitsOf_map_range, hlen, ← map_getD_range]
  refine List.map_congr_left fun p _ => ?_
  rw [getLsbD_byteOfOffsets _ (Nat.mod_lt p (by decide)), Nat.div_add_mod]

/-! ## Code bits (`30_encoding.md` R91, R93) -/

theorem codeBits_cons (v : Code) (vs : List Code) : codeBits (v :: vs) = code3 v ++ codeBits vs :=
  List.flatMap_cons

theorem length_codeBits (cs : List Code) : (codeBits cs).length = 3 * cs.length := by
  induction cs with
  | nil => rfl
  | cons v vs ih =>
    have hcode : (code3 v).length = 3 := rfl
    rw [codeBits_cons, List.length_append, ih, hcode, List.length_cons]
    omega

theorem codeOfBits_getLsbD (v : Code) :
    codeOfBits (v.getLsbD 2) (v.getLsbD 1) (v.getLsbD 0) = v := by
  revert v; decide

/-- Whole codes are read back one by one, whatever bits follow. -/
theorem codesOf_codeBits_append (cs : List Code) (b : List Bool) :
    codesOf (codeBits cs ++ b) = cs ++ codesOf b := by
  induction cs with
  | nil => rfl
  | cons v vs ih =>
    calc codesOf (codeBits (v :: vs) ++ b)
        = codeOfBits (v.getLsbD 2) (v.getLsbD 1) (v.getLsbD 0) :: codesOf (codeBits vs ++ b) := rfl
      _ = v :: (vs ++ codesOf b) := by rw [codeOfBits_getLsbD, ih]

/-- Every three zero bits are a code 0, and what is left is discarded (`30_encoding.md` R98). -/
theorem codesOf_replicate_false : ∀ n : Nat,
    codesOf (List.replicate n false) = List.replicate (n / 3) 0
  | 0 => rfl
  | 1 => rfl
  | 2 => rfl
  | n + 3 => by
    calc codesOf (List.replicate (n + 3) false)
        = 0 :: codesOf (List.replicate n false) := rfl
      _ = List.replicate (n / 3 + 1) 0 := congrArg _ (codesOf_replicate_false n)
      _ = List.replicate ((n + 3) / 3) 0 := by rw [Nat.add_div_right n (by decide)]

theorem length_encodeStream (cs : List Code) :
    (encodeStream cs).length = (3 * cs.length + 7) / 8 := by
  unfold encodeStream
  rw [length_pack, length_codeBits]

theorem bitsOf_encodeStream (cs : List Code) : bitsOf (encodeStream cs)
    = codeBits cs ++ List.replicate ((8 - 3 * cs.length % 8) % 8) false := by
  unfold encodeStream
  rw [bitsOf_pack, length_codeBits]

/-- The codes of a stream are those it was made from, then the codes 0 of its padding bits
(`30_encoding.md` R100). -/
theorem codesOf_bitsOf_encodeStream (cs : List Code) : codesOf (bitsOf (encodeStream cs))
    = cs ++ List.replicate ((8 - 3 * cs.length % 8) % 8 / 3) 0 := by
  rw [bitsOf_encodeStream, codesOf_codeBits_append, codesOf_replicate_false]

/-- Settles O11: the padding of `pack`, for three bits a code. -/
theorem streamIsCodesThenZeroPadding : Obligations.StreamIsCodesThenZeroPadding := by
  unfold Obligations.StreamIsCodesThenZeroPadding
  exact ⟨fun cs => ⟨length_encodeStream cs, bitsOf_encodeStream cs⟩, by decide⟩

end Sys2Proof

namespace Sys2Proof.Contract

/-! ## What a code list stands for (`42_decoder.md` R170) -/

theorem expand_cons (p : Bool) (v : Code) (vs : List Code) : expand p (v :: vs)
    = List.replicate v.toNat p ++ expand (if v = 7 then p else !p) vs := rfl

/-- Codes 0 emit nothing, from either polarity. -/
theorem expand_replicate_zero (p : Bool) (n : Nat) : expand p (List.replicate n 0) = [] := by
  induction n generalizing p with
  | zero => rfl
  | succ n ih => rw [List.replicate_succ, expand_cons, ih]; rfl

/-- Codes 0 at the end of a code list add nothing to its bits (`30_encoding.md` R100). -/
theorem expand_append_replicate_zero (p : Bool) (cs : List Code) (n : Nat) :
    expand p (cs ++ List.replicate n 0) = expand p cs := by
  induction cs generalizing p with
  | nil => exact expand_replicate_zero p n
  | cons v vs ih => rw [List.cons_append, expand_cons, expand_cons, ih]

/-- Settles O12: the padding is read as codes 0, which emit nothing. -/
theorem streamReadsBackWithPadding : Obligations.StreamReadsBackWithPadding := by
  unfold Obligations.StreamReadsBackWithPadding
  intro cs
  refine ⟨codesOf_bitsOf_encodeStream cs, ?_⟩
  rw [codesOf_bitsOf_encodeStream, expand_append_replicate_zero]

end Sys2Proof.Contract
end

section
/-!
PROOF. The codes of ENCODE (`41_encoder.md` R140 to R143): the chunks of a run, the run lengths of a bit
list, and the two forms of input that reach the extremes of the code count.
-/

namespace Sys2Proof

theorem length_bitsOf (bs : List Byte) : (bitsOf bs).length = 8 * bs.length := by
  induction bs with
  | nil => rfl
  | cons x xs ih =>
    have hbyte : (byteBits x).length = 8 := rfl
    have hcons : bitsOf (x :: xs) = byteBits x ++ bitsOf xs := rfl
    rw [hcons, List.length_append, ih, hbyte, List.length_cons]
    omega

theorem bitsOf_ne_nil {bs : List Byte} (h : bs ≠ []) : bitsOf bs ≠ [] := by
  have hpos := List.length_pos_of_ne_nil h
  exact List.ne_nil_of_length_pos (by rw [length_bitsOf]; omega)

/-! ## Canonical code lists (`30_encoding.md` R102) -/

/-- A code 7 may stand where its run begins or goes on, and what follows it may begin with a code 0. -/
theorem canonicalFrom_seven_cons (zeroOk : Bool) {cs : List Code} (h : canonicalFrom true cs = true) :
    canonicalFrom zeroOk (7 :: cs) = true := by
  cases cs with
  | nil => cases h
  | cons c cs => cases zeroOk <;> exact h

/-- A closing code may stand last, or before codes that do not begin with a code 0. -/
theorem canonicalFrom_closing_cons {zeroOk : Bool} {c : Code} {cs : List Code}
    (hc : c ≠ 7) (hz : zeroOk = true ∨ c ≠ 0) (h : cs = [] ∨ canonicalFrom false cs = true) :
    canonicalFrom zeroOk (c :: cs) = true := by
  have hzero : (zeroOk || c != 0) = true := by simpa using hz
  cases cs with
  | nil =>
    unfold canonicalFrom
    rw [hzero, bne_iff_ne.mpr hc]
    rfl
  | cons d ds =>
    have htail : canonicalFrom false (d :: ds) = true := h.resolve_left nofun
    unfold canonicalFrom
    rw [hzero, beq_eq_false_iff_ne.mpr hc, htail]
    rfl

end Sys2Proof

namespace Sys2Proof.Contract

/-! ## The chunks of a run (`41_encoder.md` R142) -/

theorem chunks_of_lt {n : Nat} (h : n < 7) : chunks n = [BitVec.ofNat 3 n] := by
  unfold chunks
  rw [Nat.div_eq_of_lt h, Nat.mod_eq_of_lt h]
  rfl

theorem chunks_add_seven (n : Nat) : chunks (n + 7) = 7 :: chunks n := by
  unfold chunks
  rw [Nat.add_div_right n (by decide), Nat.add_mod_right]
  rfl

theorem length_chunks (n : Nat) : (chunks n).length = n / 7 + 1 := by
  unfold chunks
  rw [List.length_append, List.length_replicate]
  rfl

/-- The closing code of a run is 0 only where it follows a code 7 or the run is empty, so the chunks of a
run may stand last, or before those of a run that is not empty. -/
theorem canonicalFrom_chunks_append {zeroOk : Bool} {n : Nat} {cs : List Code}
    (hz : zeroOk = true ∨ n ≠ 0) (h : cs = [] ∨ canonicalFrom false cs = true) :
    canonicalFrom zeroOk (chunks n ++ cs) = true := by
  induction n using Nat.strongRecOn generalizing zeroOk with
  | ind n ih =>
    rcases Nat.lt_or_ge n 7 with hlt | hge
    · have hval : (BitVec.ofNat 3 n).toNat = n := Nat.mod_eq_of_lt (by omega)
      rw [chunks_of_lt hlt]
      refine canonicalFrom_closing_cons (fun he => ?_) (hz.imp_right fun hn he => ?_) h
      · rw [he] at hval; exact absurd hval.symm hlt.ne
      · rw [he] at hval; exact hn hval.symm
    · obtain ⟨m, rfl⟩ := Nat.exists_eq_add_of_le' hge
      rw [chunks_add_seven]
      exact canonicalFrom_seven_cons zeroOk (ih m (by omega) (.inl rfl))

/-- The chunks of run lengths of which only the first may be 0 are canonical. -/
theorem canonicalFrom_flatMap_chunks {zeroOk : Bool} {n : Nat} {ns : List Nat}
    (hz : zeroOk = true ∨ n ≠ 0) (hns : ∀ x ∈ ns, 1 ≤ x) :
    canonicalFrom zeroOk ((n :: ns).flatMap chunks) = true := by
  induction ns generalizing zeroOk n with
  | nil =>
    rw [List.flatMap_cons]
    exact canonicalFrom_chunks_append hz (.inl rfl)
  | cons m ms ih =>
    obtain ⟨hm, hms⟩ := List.forall_mem_cons.mp hns
    rw [List.flatMap_cons]
    exact canonicalFrom_chunks_append hz (.inr (ih (.inr (by omega)) hms))

/-! ## The run lengths (`41_encoder.md` R141) -/

theorem runsFrom_cons_same {p b : Bool} (h : b = p) (n : Nat) (bs : List Bool) :
    runsFrom p n (b :: bs) = runsFrom p (n + 1) bs := if_pos h

theorem runsFrom_cons_other {p b : Bool} (h : b ≠ p) (n : Nat) (bs : List Bool) :
    runsFrom p n (b :: bs) = n :: runsFrom (!p) 1 bs := if_neg h

/-- The run being counted comes first and does not shrink, and every later run has a bit. -/
theorem runsFrom_eq_cons (p : Bool) (n : Nat) (b : List Bool) :
    ∃ m ms, runsFrom p n b = m :: ms ∧ n ≤ m ∧ ∀ x ∈ ms, 1 ≤ x := by
  induction b generalizing p n with
  | nil => exact ⟨n, [], rfl, le_rfl, nofun⟩
  | cons b bs ih =>
    by_cases hb : b = p
    · obtain ⟨m, ms, e, hle, hms⟩ := ih p (n + 1)
      exact ⟨m, ms, (runsFrom_cons_same hb n bs).trans e, by omega, hms⟩
    · obtain ⟨m, ms, e, hle, hms⟩ := ih (!p) 1
      refine ⟨n, m :: ms, (runsFrom_cons_other hb n bs).trans (congrArg _ e), le_rfl, ?_⟩
      exact List.forall_mem_cons.mpr ⟨hle, hms⟩

/-- The run lengths count every bit once. -/
theorem sum_runsFrom (p : Bool) (n : Nat) (b : List Bool) :
    (runsFrom p n b).sum = n + b.length := by
  induction b generalizing p n with
  | nil => rfl
  | cons b bs ih =>
    by_cases hb : b = p
    · rw [runsFrom_cons_same hb, ih, List.length_cons]; omega
    · rw [runsFrom_cons_other hb, List.sum_cons, ih, List.length_cons]; omega

/-- The runs of a non-empty bit list are those counted from an empty run of 0 on. -/
theorem runs_of_ne_nil {b : List Bool} (h : b ≠ []) : runs b = runsFrom false 0 b := by
  cases b with
  | nil => exact absurd rfl h
  | cons b bs => rfl

theorem runs_eq_cons {b : List Bool} (h : b ≠ []) :
    ∃ m ms, runs b = m :: ms ∧ ∀ x ∈ ms, 1 ≤ x := by
  obtain ⟨m, ms, e, -, hms⟩ := runsFrom_eq_cons false 0 b
  exact ⟨m, ms, (runs_of_ne_nil h).trans e, hms⟩

theorem sum_runs {b : List Bool} (h : b ≠ []) : (runs b).sum = b.length := by
  rw [runs_of_ne_nil h, sum_runsFrom, Nat.zero_add]

/-- Settles O39: only the first run of the input can be empty. -/
theorem encodeIsCanonical : Obligations.EncodeIsCanonical := by
  unfold Obligations.EncodeIsCanonical
  intro b hb
  obtain ⟨m, ms, e, hms⟩ := runs_eq_cons hb
  unfold canonicalCodes encodeCodes
  rw [e]
  exact canonicalFrom_flatMap_chunks (.inl rfl) hms

/-! ## The number of codes (`30_encoding.md` R104, `41_encoder.md` R143) -/

/-- The number of codes that run lengths take. -/
def codeCount (ns : List Nat) : Nat := (ns.map fun n => n / 7 + 1).sum

theorem codeCount_cons (n : Nat) (ns : List Nat) : codeCount (n :: ns) = n / 7 + 1 + codeCount ns :=
  List.sum_cons

theorem length_encodeCodes (b : List Bool) : (encodeCodes b).length = codeCount (runs b) := by
  unfold encodeCodes codeCount
  rw [List.length_flatMap, funext length_chunks]

theorem length_encodeOut (src : List Byte) :
    (encodeOut src).length = (3 * (encodeCodes (bitsOf src)).length + 7) / 8 :=
  length_encodeStream _

/-- Runs take at least the codes of one run of all their bits. -/
theorem le_codeCount_cons (n : Nat) (ns : List Nat) : (n :: ns).sum / 7 + 1 ≤ codeCount (n :: ns) := by
  induction ns generalizing n with
  | nil => exact le_rfl
  | cons m ms ih =>
    have h := ih m
    rw [List.sum_cons, codeCount_cons]
    omega

/-- A run that is not empty takes no more codes than it has bits. -/
theorem codeCount_le_sum {ns : List Nat} (h : ∀ x ∈ ns, 1 ≤ x) : codeCount ns ≤ ns.sum := by
  induction ns with
  | nil => exact le_rfl
  | cons n ns ih =>
    obtain ⟨hn, hns⟩ := List.forall_mem_cons.mp h
    have hle := ih hns
    rw [codeCount_cons, List.sum_cons]
    omega

/-- With the one code of an empty first run, there is at most one code more than there are bits. -/
theorem length_encodeCodes_bounds {b : List Bool} (h : b ≠ []) :
    b.length / 7 + 1 ≤ (encodeCodes b).length ∧ (encodeCodes b).length ≤ b.length + 1 := by
  obtain ⟨m, ms, e, hms⟩ := runs_eq_cons h
  have hle := codeCount_le_sum hms
  rw [length_encodeCodes, ← sum_runs h, e]
  refine ⟨le_codeCount_cons m ms, ?_⟩
  rw [codeCount_cons, List.sum_cons]
  omega

/-! ### The extremes -/

/-- Bits of the polarity being counted make one run. -/
theorem runsFrom_replicate_same (p : Bool) (n k : Nat) :
    runsFrom p n (List.replicate k p) = [n + k] := by
  induction k generalizing n with
  | zero => rfl
  | succ k ih =>
    rw [List.replicate_succ, runsFrom_cons_same rfl, ih]
    congr 1
    omega

theorem bitsOf_replicate_zero (n : Nat) :
    bitsOf (List.replicate n 0x00) = List.replicate (8 * n) false := by
  induction n with
  | zero => rfl
  | succ n ih =>
    rw [List.replicate_succ, Nat.mul_succ, Nat.add_comm, List.replicate_add, ← ih]
    rfl

/-- The bits of bytes 0xAA alternate from 1 on, so each of them is a run of its own. -/
theorem runsFrom_replicate_alternating (m n : Nat) :
    runsFrom false m (bitsOf (List.replicate n 0xAA)) = m :: List.replicate (8 * n) 1 := by
  induction n generalizing m with
  | zero => rfl
  | succ n ih =>
    have hbyte : runsFrom false m (bitsOf (List.replicate (n + 1) 0xAA))
        = m :: List.replicate 7 1 ++ runsFrom false 1 (bitsOf (List.replicate n 0xAA)) := rfl
    rw [hbyte, ih, Nat.mul_succ, Nat.add_comm, List.replicate_add]
    rfl

theorem codeCount_replicate_one (k : Nat) : codeCount (List.replicate k 1) = k := by
  unfold codeCount
  rw [List.map_replicate, List.sum_replicate]
  exact Nat.mul_one k

theorem runs_bitsOf_replicate {n : Nat} (h : 1 ≤ n) (x : Byte) :
    runs (bitsOf (List.replicate n x)) = runsFrom false 0 (bitsOf (List.replicate n x)) :=
  runs_of_ne_nil (bitsOf_ne_nil fun he => by rw [List.replicate_eq_nil_iff] at he; omega)

/-- One run takes the fewest codes. -/
theorem length_encodeCodes_replicate_zero {n : Nat} (h : 1 ≤ n) :
    (encodeCodes (bitsOf (List.replicate n 0x00))).length = 8 * n / 7 + 1 := by
  rw [length_encodeCodes, runs_bitsOf_replicate h, bitsOf_replicate_zero,
    runsFrom_replicate_same, Nat.zero_add]
  rfl

/-- An empty first run and then a run a bit take the most codes. -/
theorem length_encodeCodes_replicate_alternating {n : Nat} (h : 1 ≤ n) :
    (encodeCodes (bitsOf (List.replicate n 0xAA))).length = 8 * n + 1 := by
  rw [length_encodeCodes, runs_bitsOf_replicate h, runsFrom_replicate_alternating,
    codeCount_cons, codeCount_replicate_one]
  omega

/-- Settles O41: the chunks are counted run by run, and both bounds on the count are reached. -/
theorem encodedSizeIsItsCodeCount : Obligations.EncodedSizeIsItsCodeCount := by
  unfold Obligations.EncodedSizeIsItsCodeCount
  refine ⟨fun src => ⟨length_encodeCodes _, length_encodeOut src⟩, fun src hne => ?_, fun n hn => ?_⟩
  · rw [← length_bitsOf]
    exact length_encodeCodes_bounds (bitsOf_ne_nil hne)
  · have hmost := length_encodeCodes_replicate_alternating hn
    refine ⟨length_encodeCodes_replicate_zero hn, hmost, ?_⟩
    rw [length_encodeOut, hmost]
    omega

end Sys2Proof.Contract
end

section
/-!
PROOF. The words of the instructions (`30_encoding.md` R94, R106), and what a host write of a word to CTRL
does.
-/

namespace Sys2Proof

/-- Settles O9: instruction by instruction, down the encoding tables. -/
theorem decodeInvertsEncode : Obligations.DecodeInvertsEncode := by
  unfold Obligations.DecodeInvertsEncode
  intro i _
  cases i <;> exact ⟨rfl, rfl⟩

/-- Settles O8: the words are fixed. -/
theorem spelledWordsDecode : Obligations.SpelledWordsDecode := by
  unfold Obligations.SpelledWordsDecode
  exact ⟨rfl, rfl, rfl, rfl, rfl, rfl, by decide⟩

/-- A CTRL word whose bit 0 is 0 is no command, whatever its other bits are (`30_encoding.md` R106). -/
theorem decode_ctrl_of_noStart {w : Nat} (h : w.testBit 0 = false) :
    decode (.ctrl w) = .error .noStart :=
  if_neg (by rw [h]; decide)

end Sys2Proof

namespace Sys2Proof.Machine

/-- A host write of a command word to CTRL runs its command, in every phase (`43_commands.md` R201). -/
theorem hostWriteReg_ctrl_of_ok {s : State} {w : Nat} {i : Instr} (h : decode (.ctrl w) = .ok i) :
    hostWriteReg (Reg.ctrl.offset s.widths) w s = exec i s := by
  unfold hostWriteReg
  rw [Reg.ofOffset_offset]
  simp only [h]

/-- A host write to CTRL of a word that is no command does nothing, in every phase
(`43_commands.md` R201). -/
theorem hostWriteReg_ctrl_of_error {s : State} {w : Nat} (h : decode (.ctrl w) = .error .noStart) :
    hostWriteReg (Reg.ctrl.offset s.widths) w s = .next s := by
  unfold hostWriteReg
  rw [Reg.ofOffset_offset]
  simp only [h]

/-- Settles O7: the host's action is used up, and the write runs the command. -/
theorem stepRunsTheDecodedCommand : Obligations.StepRunsTheDecodedCommand := by
  unfold Obligations.StepRunsTheDecodedCommand
  exact fun s w rest i h hi =>
    (step_of_host_cons h).trans (hostWriteReg_ctrl_of_ok (s := s.setHost rest) hi)

/-- Settles O22: a word with bit 0 = 0 is no command. -/
theorem ctrlWithoutStartDoesNothing : Obligations.CtrlWithoutStartDoesNothing := by
  unfold Obligations.CtrlWithoutStartDoesNothing
  exact fun s w rest h hw =>
    (step_of_host_cons h).trans
      (hostWriteReg_ctrl_of_error (s := s.setHost rest) (decode_ctrl_of_noStart hw))

end Sys2Proof.Machine
end

section
/-!
PROOF. The primitives of `40_bit_cursor.md`: the two tests on the bits left, the code fetch, and the
exception entry of a bit that finds no room.
-/

namespace Sys2Proof

/-- A code's value from its three bits, the most significant first (`30_encoding.md` R93). -/
theorem toNat_codeOfBits (b0 b1 b2 : Bool) :
    (codeOfBits b0 b1 b2).toNat = 4 * b0.toNat + 2 * b1.toNat + b2.toNat := by
  revert b0 b1 b2; decide

end Sys2Proof

namespace Sys2Proof.Machine

/-! ## The bits left (`40_bit_cursor.md` R123) -/

/-- The bytes read so far are those that hold the bits before the read position. -/
theorem Cursor.touched_eq (c : Cursor) : c.touched = (c.pos + 7) / 8 := by
  have hlt := c.bit.isLt
  unfold Cursor.touched Cursor.pos
  split
  next h0 =>
    have hbit : c.bit.toNat = 0 := by rw [h0]; rfl
    omega
  next h0 =>
    have hbit : c.bit.toNat ≠ 0 := fun h => h0 (BitVec.eq_of_toNat_eq h)
    omega

/-- The number of input bits left is a difference of natural numbers that does not fall below 0. -/
theorem State.ReadOk.pos_le {s : State} (h : s.ReadOk) : s.rd.pos ≤ 8 * s.srcLen := by
  have hle := h.touched_le
  rw [Cursor.touched_eq] at hle
  omega

theorem engineStep_of_enc {s : State} (h : s.phase = .enc) :
    engineStep s = if s.atEnd then encFinish s else encScan s := by
  unfold engineStep; rw [h]

theorem engineStep_of_dec {s : State} (h : s.phase = .dec) :
    engineStep s = if s.codeAvail then decCode s else decFinish s := by
  unfold engineStep; rw [h]

/-- Settles O26: both tests compare the read position with the end of the source. -/
theorem bitsLeftTests : Obligations.BitsLeftTests := by
  unfold Obligations.BitsLeftTests
  intro s hp hr hl
  have hle := hr.pos_le
  refine ⟨?_, ?_, engineStep_of_enc, engineStep_of_dec⟩
  · rw [State.atEnd_iff hr]; omega
  · rw [State.codeAvail_iff hp hr hl]; omega

/-! ## The code fetch (`40_bit_cursor.md` R124) -/

/-- Up to eight consecutive input bits lie in at most one byte not yet read, and that is a byte of the
source. -/
theorem Consumed.bus_of_le_eight {s t : State} {k : Nat} (h : Consumed s t k) (hk : k ≤ 8) :
    t.bus = s.bus ∨ ∃ i, i < s.srcLen ∧ t.bus = .read (s.srcByteAddr i) :: s.bus := by
  have hbus := h.bus
  have hge := h.count_le
  have hend : t.rd.touched ≤ s.srcLen := h.srcLen ▸ h.readOk.touched_le
  have hone : t.rd.touched - s.rd.touched ≤ 1 := by
    rw [t.rd.touched_eq, s.rd.touched_eq, h.pos]; omega
  rcases Nat.le_one_iff_eq_zero_or_eq_one.mp hone with hd | hd
  · rw [hd] at hbus
    exact Or.inl hbus
  · rw [hd] at hbus
    exact Or.inr ⟨s.rd.touched, by omega, hbus⟩

/-- Settles O27: the three bits `getCode_spec` takes, as a value, and what taking them reads. -/
theorem getCodeReadsThreeBits : Obligations.GetCodeReadsThreeBits := by
  unfold Obligations.GetCodeReadsThreeBits
  intro s hp hr hl ha
  obtain ⟨hcode, hc⟩ := getCode_spec hr ((State.codeAvail_iff hp hr hl).mp ha)
  refine ⟨?_, hc.pos, hc.onlyInput, hc.bus_of_le_eight (by decide)⟩
  rw [hcode, toNat_codeOfBits]

/-! ## The exception entry (`60_exceptions.md` R221) -/

/-- After the exception entry STATUS has DONE and OVF set and BUSY clear (`10_state.md` R27). -/
theorem State.takeOverflow_statusWord (s : State) : s.takeOverflow.statusWord = 0b110 := rfl

/-- Settles O18: the capacity test answers the exception entry, and DONE gives the engine no step. -/
theorem overflowEntry : Obligations.OverflowEntry := by
  unfold Obligations.OverflowEntry
  exact fun b s h => ⟨s.takeOverflow, putBit_of_eq h, rfl, s.takeOverflow_statusWord,
    engineStep_of_not_busy rfl⟩

end Sys2Proof.Machine
end

section
/-!
PROOF. The runs of the input (`41_encoder.md` R141) and the bounds on the encoded length (R151).
-/

namespace Sys2Proof.Contract

/-! ## The runs spell the input -/

/-- Bits of the polarity being counted make the run longer. -/
theorem runsFrom_replicate_append (p : Bool) (n k : Nat) (b : List Bool) :
    runsFrom p n (List.replicate k p ++ b) = runsFrom p (n + k) b := by
  induction k generalizing n with
  | zero => rfl
  | succ k ih =>
    rw [List.replicate_succ, List.cons_append, runsFrom_cons_same rfl, ih, Nat.add_right_comm,
      Nat.add_assoc]

/-- Run lengths counted from `n` bits on spell those bits and the rest of the input. -/
theorem unruns_runsFrom (p : Bool) (n : Nat) (b : List Bool) :
    unruns p (runsFrom p n b) = List.replicate n p ++ b := by
  induction b generalizing p n with
  | nil => rfl
  | cons x bs ih =>
    by_cases hx : x = p
    · rw [runsFrom_cons_same hx, ih, hx, List.replicate_succ', List.append_assoc]; rfl
    · have hflip : x = !p := Bool.eq_not_of_ne hx
      calc unruns p (runsFrom p n (x :: bs))
          = List.replicate n p ++ unruns (!p) (runsFrom (!p) 1 bs) := by
            rw [runsFrom_cons_other hx]; rfl
        _ = List.replicate n p ++ x :: bs := by rw [ih, hflip]; rfl

/-- Counting what run lengths spell gives the run lengths back, where only the first may be 0. -/
theorem runsFrom_unruns {ns : List Nat} (hns : ∀ x ∈ ns, 1 ≤ x) (p : Bool) (k n : Nat) :
    runsFrom p k (unruns p (n :: ns)) = (k + n) :: ns := by
  have hspell : unruns p (n :: ns) = List.replicate n p ++ unruns (!p) ns := rfl
  rw [hspell, runsFrom_replicate_append]
  induction ns generalizing p k n with
  | nil => rfl
  | cons m ms ih =>
    obtain ⟨hm, hms⟩ := List.forall_mem_cons.mp hns
    obtain ⟨j, rfl⟩ := Nat.exists_eq_add_of_le' hm
    have hfirst : unruns (!p) ((j + 1) :: ms)
        = (!p) :: (List.replicate j (!p) ++ unruns (!!p) ms) := rfl
    rw [hfirst, runsFrom_cons_other (by simp), runsFrom_replicate_append,
      ih hms (!p) 1 j rfl, Nat.add_comm 1 j]

/-- Settles O38: counting and spelling runs are inverse, and a non-empty input has a first run. -/
theorem runsDecomposeTheInput : Obligations.RunsDecomposeTheInput := by
  unfold Obligations.RunsDecomposeTheInput
  intro b hb
  have hruns := runs_of_ne_nil hb
  refine ⟨?_, ?_, sum_runs hb, fun ls hspell hls => ?_⟩
  · rw [hruns, unruns_runsFrom]; rfl
  · obtain ⟨m, ms, e, hms⟩ := runs_eq_cons hb
    rwa [e]
  · cases ls with
    | nil => exact absurd hspell.symm hb
    | cons n ns =>
      have hns : ∀ x ∈ ns, 1 ≤ x := hls
      rw [hruns, ← hspell, runsFrom_unruns hns, Nat.zero_add]

/-! ## The bounds on the encoded length -/

/-- Where the output fits, ENCODE gives it (`41_encoder.md` R145). -/
theorem encodeFn_of_le {src : List Byte} {cap : Nat} (hne : src ≠ [])
    (h : (encodeOut src).length ≤ cap) : encodeFn src cap = some (encodeOut src) := by
  unfold encodeFn
  rw [if_neg hne, if_neg (Nat.not_lt.mpr h)]

/-- Settles O40: three bits a code, for the bounds on the number of codes. -/
theorem encodedSizeBounds : Obligations.EncodedSizeBounds := by
  unfold Obligations.EncodedSizeBounds
  intro src hne
  obtain ⟨hlow, hhigh⟩ := length_encodeCodes_bounds (bitsOf_ne_nil hne)
  rw [length_bitsOf] at hlow hhigh
  have hlen := length_encodeOut src
  have hmost : (encodeOut src).length ≤ 3 * src.length + 1 := by omega
  exact ⟨by omega, by omega, hmost, fun cap hcap => encodeFn_of_le hne (hmost.trans hcap)⟩

end Sys2Proof.Contract
end

section
/-!
PROOF. One step of a command: the accepted START (`41_encoder.md` R146, `42_decoder.md` R181), the two
steps of the encoder (R147, R148), and the engine's progress (R150, R154, R189, R190).
-/

namespace Sys2Proof

theorem length_code3 (v : Code) : (code3 v).length = 3 := rfl

/-- Zero bits at the end of a bit list are what positions past its end read as. -/
theorem getD_append_replicate_false (b : List Bool) (n q : Nat) :
    (b ++ List.replicate n false).getD q false = b.getD q false := by
  rcases Nat.lt_or_ge q b.length with hq | hq
  · exact List.getD_append _ _ _ _ hq
  · rw [List.getD_append_right _ _ _ _ hq, List.getD_eq_getElem?_getD,
      List.getElem?_getD_replicate_default_eq, List.getD_eq_default _ _ hq]

end Sys2Proof

namespace Sys2Proof.Machine

/-! ## The accepted START -/

/-- A START that is ready begins the work of its command (`43_commands.md` R201). -/
theorem start_of_ready {s : State} (h : s.Ready) (o : Op) :
    start o s = .next ((s.acceptStart o).startWork o) := by
  obtain ⟨-, hb, hwritten, hne, hl⟩ := h
  have hlegal : s.illegal = none := s.illegal_eq_none_iff.mpr ⟨hwritten, hl⟩
  have hlen : s.written.srcLen = true := by
    unfold Written.all at hwritten
    simp only [Bool.and_eq_true] at hwritten
    exact hwritten.1.1.2
  unfold start
  rw [hb, hlen, if_neg hne, hlegal]
  rfl

/-- Settles O19: both commands are a START. -/
theorem commandsBegin : Obligations.CommandsBegin := by
  unfold Obligations.CommandsBegin
  exact fun s h => ⟨⟨_, start_of_ready h .encode, rfl⟩, ⟨_, start_of_ready h .decode, rfl⟩⟩

theorem State.busy_of_enc {s : State} (h : s.phase = .enc) : s.busy = true := by
  unfold State.busy; rw [h]; rfl

/-! ## ENC_SCAN -/

/-- The seventh bit of a run is the one met at a count of six. -/
theorem cnt_add_one_eq_seven_iff (c : BitVec 3) : c + 1 = 7 ↔ c = 6 := by
  revert c; decide

/-- Up to eight bits a side are in at most one byte not yet read and complete at most one byte not yet
written. -/
theorem Moved.bus_of_le_eight {s t : State} {k : Nat} {bs : List Bool} (h : Moved s t k bs)
    (hk : k ≤ 8) (hbs : bs.length ≤ 8) :
    ∃ new, t.bus = new ++ s.bus
      ∧ (Machine.busReads new).length ≤ 1 ∧ (Machine.busWrites new).length ≤ 1 := by
  obtain ⟨hpos, -, -⟩ := h.appended
  have hread : t.rd.touched - s.rd.touched ≤ 1 := by
    rw [t.rd.touched_eq, s.rd.touched_eq, h.pos]; omega
  have hwrite : t.wr.byte - s.wr.byte ≤ 1 := by
    rw [← t.wr.pos_div, ← s.wr.pos_div, hpos]; omega
  refine ⟨_, h.bus.trans (List.append_assoc _ _ _).symm, ?_, ?_⟩
  · rwa [busReads_append, busReads_reads, busReads_writes, List.append_nil, List.length_map,
      List.length_range']
  · rwa [busWrites_append, busWrites_reads, busWrites_writes, List.nil_append, List.length_map,
      List.length_range']

/-- Bits appended as far as the capacity goes are no more than there is room for. -/
theorem Moved.wr_pos_le {s t : State} {k : Nat} {bs : List Bool} (h : Moved s t k bs) :
    s.wr.pos + bs.length ≤ 8 * s.dstLen := by
  obtain ⟨hpos, -, -⟩ := h.appended
  have hle := h.writeOk.pos_le
  rwa [h.dstLen, hpos] at hle

/-- Taking input bits with nothing appended. -/
theorem Consumed.moved {s u : State} {k : Nat} (h : Consumed s u k) (hm : s.memWf = true)
    (hl : s.Legal) (hw : s.WriteOk) (c : BitVec 3) : Moved s (u.setCnt c) k [] := by
  have hum : (u.setCnt s.cnt).memWf = true := by rw [h.onlyInput]; exact hm
  have huw : (u.setCnt s.cnt).WriteOk := by rw [h.onlyInput]; exact hw
  exact .of s.cnt hl h (.refl hum huw) u.pol c

/-- Moving through a command that keeps the polarity. -/
theorem Moved.only_of_pol {s t : State} {k : Nat} {bs : List Bool} (h : Moved s t k bs)
    (hpol : t.pol = s.pol) : t = { s with
      rd := t.rd, rbuf := t.rbuf, wr := t.wr, wacc := t.wacc, mem := t.mem, bus := t.bus
      cnt := t.cnt } := by
  have e := h.only
  rwa [hpol] at e

/-- Settles O28: the four cases of `encScan_spec`. -/
theorem encScanStep : Obligations.EncScanStep := by
  unfold Obligations.EncScanStep
  intro s hi hph he
  have ⟨_, hm, _, _, hbusy⟩ := hi
  obtain ⟨-, hl, hr, hw, -⟩ := hbusy (State.busy_of_enc hph)
  have hstep : engineStep s = encScan s := by rw [engineStep_of_enc hph, he]; rfl
  obtain ⟨u, hc, h⟩ := encScan_spec hm hl hr hw he
  have hupol : u.pol = s.pol := by rw [hc.onlyInput]
  simp only [ne_eq, cnt_add_one_eq_seven_iff] at h
  rw [hstep]
  rcases h with ⟨hx, h6, e⟩ | ⟨hx, h6, hfit, v, hp, e⟩ | ⟨hx, hfit, v, hp, e⟩
    | ⟨hemit, hfull, v, bs, hmv, -, hpol, hcnt, e⟩
  · -- the bit is only counted
    have hmv := hc.moved hm hl hw (s.cnt + 1)
    refine ⟨_, e, hmv.pos, hmv.bus_of_le_eight (by decide) (by decide), fun _ _ => ⟨rfl, ?_⟩,
      fun _ h => absurd h h6, fun h => absurd hx h, fun h => absurd h (not_or_intro (· hx) h6)⟩
    rw [hc.onlyInput]; rfl
  · -- it is the seventh of its run
    have hmv := Moved.of 7 hl hc hp v.pol 0
    exact ⟨_, e, hmv.pos, hmv.bus_of_le_eight (by decide) (by decide), fun _ h => absurd h6 h,
      fun _ _ _ => ⟨rfl, hmv.appended, hmv.only_of_pol (hp.pol.trans hupol)⟩,
      fun h => absurd hx h, fun _ h => absurd hfit (Nat.not_le.mpr h)⟩
  · -- it closes the run before it
    have hmv := Moved.of s.cnt hl hc hp (!v.pol) 1
    have hbus := hmv.bus_of_le_eight (by decide) (by rw [length_code3]; decide)
    exact ⟨_, e, hmv.pos, hbus, fun h => absurd h hx,
      fun h => absurd h hx,
      fun _ _ => ⟨rfl, congrArg (!·) (hp.pol.trans hupol), hmv.appended, hmv.only⟩,
      fun _ h => absurd hfit (Nat.not_le.mpr h)⟩
  · -- the code does not fit
    have hroom := hmv.wr_pos_le
    have hbus := hmv.bus_of_le_eight (by decide) (by omega)
    have honly := hmv.only_of_pol hpol
    refine ⟨_, e, hmv.pos, hbus, fun hx h6 => absurd hemit (not_or_intro (· hx) h6),
      fun _ _ h => absurd hfull (Nat.not_lt.mpr h), fun _ h => absurd hfull (Nat.not_lt.mpr h),
      fun _ _ => ⟨⟨rfl, rfl, rfl, rfl⟩, hpol, hcnt, ?_⟩⟩
    rw [honly]; rfl

/-! ## ENC_FINISH -/

/-- Settles O29: the two cases of `encFinish_spec`. -/
theorem encFinishStep : Obligations.EncFinishStep := by
  unfold Obligations.EncFinishStep
  intro s hi hph he
  have ⟨_, hm, _, _, hbusy⟩ := hi
  obtain ⟨-, hl, hr, hw, -⟩ := hbusy (State.busy_of_enc hph)
  have hstep : engineStep s = encFinish s := by rw [engineStep_of_enc hph, he]; rfl
  rw [hstep]
  rcases encFinish_spec hm hl hr hw with ⟨hfit, v, n, hn, hmv, hbit, hbyte, e⟩
    | ⟨hfull, v, bs, hmv, -, e⟩
  · obtain ⟨hpos, hkept, hnew⟩ := hmv.appended
    have hlen : (code3 s.cnt ++ List.replicate n false).length = 3 + n := by
      rw [List.length_append, List.length_replicate]; rfl
    have hend : v.wr.pos = 8 * v.wr.byte := by unfold Cursor.pos; rw [hbit]; rfl
    simp only [hlen, getD_append_replicate_false] at hpos hnew
    refine ⟨_, e, rfl, fun _ => ⟨rfl, rfl, hbit, hbyte, hkept, fun q hq => hnew q (by omega),
      fun q hq hq' => ?_⟩, fun h => absurd hfit (Nat.not_le.mpr h)⟩
    obtain ⟨j, rfl⟩ := Nat.exists_eq_add_of_le hq
    have hq8 : s.wr.pos + 3 + j < 8 * v.wr.byte := hq'
    have hj := hnew (3 + j) (by omega)
    rw [← Nat.add_assoc, List.getD_eq_default _ _ (Nat.le_add_right 3 j)] at hj
    exact hj
  · exact ⟨_, e, rfl, fun h => absurd hfull (Nat.not_lt.mpr h), fun _ => ⟨rfl, rfl, rfl, rfl⟩⟩

/-! ## The engine's progress -/

theorem State.stepsLeft_of_enc {s : State} (h : s.phase = .enc) :
    s.stepsLeft = 8 * s.srcLen - s.rd.pos + 1 := by
  unfold State.stepsLeft; rw [h]

theorem State.stepsLeft_of_dec {s : State} (h : s.phase = .dec) :
    s.stepsLeft = (8 * s.srcLen - s.rd.pos) / 3 + 1 := by
  unfold State.stepsLeft; rw [h]

/-- A command that goes on has taken one input bit in ENC, one code in DEC, so it has one step fewer
left, and one at least (`41_encoder.md` R154, `42_decoder.md` R190). -/
theorem Moved.stepsLeft {s t : State} {k : Nat} {bs : List Bool} (h : Moved s t k bs)
    (hk : (s.phase = .enc ∧ k = 1 ∧ t.cnt ≠ 7) ∨ (s.phase = .dec ∧ k = 3)) :
    t.stepsLeft + 1 = s.stepsLeft ∧ 1 ≤ t.stepsLeft := by
  have hpos := h.pos
  have hle := h.readOk.pos_le
  have hlen := h.srcLen
  rcases hk with ⟨hph, rfl, -⟩ | ⟨hph, rfl⟩
  · rw [State.stepsLeft_of_enc hph, State.stepsLeft_of_enc (h.phase.trans hph)]
    omega
  · rw [State.stepsLeft_of_dec hph, State.stepsLeft_of_dec (h.phase.trans hph)]
    omega

/-- Settles O32: of the three ends of an engine step only going on leaves the phase. -/
theorem engineIsNeverStuck : Obligations.EngineIsNeverStuck := by
  unfold Obligations.EngineIsNeverStuck
  intro s hi hb hnext
  obtain ⟨l, hstep⟩ := step_of_engineNext hnext
  obtain ⟨t, ht, k, bs, hend⟩ := engineStep_ends (hi.setHost l) hb
  refine ⟨t, hstep.trans ht, ?_⟩
  cases hend with
  | goesOn hm hk =>
    obtain ⟨hless, hone⟩ := hm.stepsLeft hk
    have hleft : t.stepsLeft + 1 = s.stepsLeft := hless
    exact ⟨.inr ⟨hm.phase, hleft⟩, fun h1 => by omega⟩
  | completes u _ _ ht => exact ⟨.inl (by rw [ht]; rfl), fun _ => by rw [ht]; rfl⟩
  | overflows u _ _ ht => exact ⟨.inl (by rw [ht]; rfl), fun _ => by rw [ht]; rfl⟩

end Sys2Proof.Machine
end

section
/-!
PROOF. A whole command, the same for ENCODE and DECODE: what its engine steps have read and put out
since its START, how it can end, and that such an end is what the command's function says
(`43_commands.md` R205).
-/

namespace Sys2Proof

/-- The bytes of `pack` by their bits: position 8i + k of the list is at stream offset k of byte i. -/
theorem getLsbD_getD_pack (b : List Bool) {i k : Nat} (hi : i < (pack b).length) (hk : k < 8) :
    ((pack b).getD i 0).getLsbD (7 - k) = b.getD (8 * i + k) false := by
  rw [length_pack] at hi
  unfold pack
  rw [List.getD_eq_getElem _ _ (by simpa using hi), List.getElem_map, List.getElem_range,
    getLsbD_byteOfOffsets _ hk]

/-- A byte is its eight bits in stream order (`00_scope.md` R8). -/
theorem byte_ext {x y : Byte} (h : ∀ k, k < 8 → x.getLsbD (7 - k) = y.getLsbD (7 - k)) : x = y := by
  refine BitVec.eq_of_getLsbD_eq fun j hj => ?_
  have hk := h (7 - j) (by omega)
  rwa [Nat.sub_sub_self (by omega)] at hk

/-- A bit list that begins another reads as it does at its own positions. -/
theorem getD_of_prefix {b c : List Bool} (h : b <+: c) {q : Nat} (hq : q < b.length) :
    b.getD q false = c.getD q false := by
  obtain ⟨d, rfl⟩ := h
  exact (List.getD_append _ _ _ _ hq).symm

end Sys2Proof

namespace Sys2Proof.Machine

/-! ## The input bits left -/

/-- The input bits from the read position on. -/
def State.restBits (s : State) : List Bool := (bitsOf s.srcBytes).drop s.rd.pos

theorem State.bitsOf_srcBytes (s : State) :
    bitsOf s.srcBytes = (List.range (8 * s.srcLen)).map s.srcBit :=
  bitsOf_map_range s.srcByte s.srcLen

theorem State.length_restBits (s : State) : s.restBits.length = 8 * s.srcLen - s.rd.pos := by
  unfold State.restBits
  rw [State.bitsOf_srcBytes, List.length_drop, List.length_map, List.length_range]

theorem State.restBits_eq_cons {s : State} (h : s.rd.pos < 8 * s.srcLen) :
    s.restBits = s.srcBit s.rd.pos :: (bitsOf s.srcBytes).drop (s.rd.pos + 1) := by
  unfold State.restBits
  rw [State.bitsOf_srcBytes, List.drop_eq_getElem_cons (by simpa using h)]
  simp

/-- No engine step changes a source byte: the regions of a legal command are disjoint. -/
theorem Moved.srcBytes {s t : State} {k : Nat} {bs : List Bool} (h : Moved s t k bs) (hl : s.Legal) :
    t.srcBytes = s.srcBytes := by
  unfold State.srcBytes State.srcByte
  rw [h.srcLen, h.srcByteAddr]
  refine List.map_congr_left fun i hi => ?_
  exact h.read_outsideDst fun j hj => hl.disjoint (List.mem_range.mp hi) hj

theorem Moved.restBits {s t : State} {k : Nat} {bs : List Bool} (h : Moved s t k bs) (hl : s.Legal) :
    t.restBits = s.restBits.drop k := by
  unfold State.restBits
  rw [h.srcBytes hl, h.pos, List.drop_drop]

/-! ## Progress since the START -/

/-- `t` is reached from the START state `s` of a command by engine steps that have put out the bits
`bs`. -/
structure Progress (s t : State) (bs : List Bool) : Prop where
  /-- the registers an engine step that goes on may change -/
  only : t = { s with
    rd := t.rd, rbuf := t.rbuf, wr := t.wr, wacc := t.wacc, mem := t.mem, bus := t.bus
    pol := t.pol, cnt := t.cnt }
  /-- the accesses since the START (`10_state.md` R41 I5, I6) -/
  pattern : t.BusPattern
  /-- the bits put out stand at the start of the output -/
  pos : t.wr.pos = bs.length
  bits : ∀ q, q < bs.length → t.outBit q = bs.getD q false
  /-- no byte but those put out has changed -/
  mem : ∀ a, (∀ i, i < t.wr.byte → a ≠ s.dstByteAddr i) → t.mem.read a = s.mem.read a

theorem Progress.dstByteAddr {s t : State} {bs : List Bool} (h : Progress s t bs) :
    t.dstByteAddr = s.dstByteAddr := by
  rw [h.only]; rfl

theorem Progress.start {s : State} (hw : s.wr = Cursor.start) (hp : s.BusPattern) :
    Progress s s [] where
  only := rfl
  pattern := hp
  pos := by rw [hw]; rfl
  bits := nofun
  mem := fun _ _ => rfl

theorem Progress.moved {s t u : State} {k : Nat} {bs cs : List Bool} (h : Progress s t bs)
    (hm : Moved t u k cs) : Progress s u (bs ++ cs) where
  only := by
    have e := h.only
    have e' := hm.only
    rw [e', e]
  pattern := h.pattern.moved hm
  pos := by
    obtain ⟨hpos, -, -⟩ := hm.appended
    rw [hpos, h.pos, List.length_append]
  bits := fun q hq => by
    obtain ⟨-, hkept, hnew⟩ := hm.appended
    rw [h.pos] at hkept hnew
    rcases Nat.lt_or_ge q bs.length with hlt | hge
    · rw [hkept q hlt, h.bits q hlt, List.getD_append _ _ _ _ hlt]
    · obtain ⟨j, rfl⟩ := Nat.exists_eq_add_of_le hge
      rw [List.length_append] at hq
      rw [hnew j (by omega), List.getD_append_right _ _ _ _ hge, Nat.add_sub_cancel_left]
  mem := fun a ha => by
    have hle := hm.byte_le
    rw [hm.mem a fun i _ hi => h.dstByteAddr ▸ ha i hi, h.mem a fun i hi => ha i (by omega)]

/-- A command that a ready START begins (`43_commands.md` R201). -/
theorem State.Ready.startWork_inv {s : State} (h : s.Ready) (hm : s.memWf = true) (o : Op) :
    ((s.acceptStart o).startWork o).Inv := by
  obtain ⟨hs, -, -, hne, hl⟩ := h
  have hbusy := State.BusyOk.startWork hs hne hl o
  have hsized := hs.startWork o
  cases o with
  | encode => exact ⟨hsized, hm, nofun, nofun, fun _ => hbusy⟩
  | decode => exact ⟨hsized, hm, nofun, nofun, fun _ => hbusy⟩

/-- Nothing is put out yet when a command begins. -/
theorem Progress.startWork (s : State) (o : Op) :
    Progress ((s.acceptStart o).startWork o) ((s.acceptStart o).startWork o) [] := by
  cases o with
  | encode => exact .start rfl fun _ => ⟨rfl, rfl⟩
  | decode => exact .start rfl fun _ => ⟨rfl, rfl⟩

/-- A byte put out holds the bits of its place in the output. -/
theorem Progress.read_dst {s t : State} {bs F : List Bool} (h : Progress s t bs)
    (hF : ∀ q, q < bs.length → bs.getD q false = F.getD q false) {i : Nat} (hi : i < t.wr.byte)
    (hlen : i < (pack F).length) : t.mem.read (s.dstByteAddr i) = (pack F).getD i 0 := by
  refine byte_ext fun k hk => ?_
  have hpos := h.pos
  have hdiv : (8 * i + k) / 8 = i := by omega
  have hmod : (8 * i + k) % 8 = k := by omega
  have hq : 8 * i + k < bs.length := by
    rw [← hpos]; unfold Cursor.pos; omega
  have hbit := h.bits _ hq
  rw [State.outBit_of_lt (by rw [hdiv]; exact hi), hdiv, hmod, h.dstByteAddr, hF _ hq] at hbit
  rw [hbit, getLsbD_getD_pack _ hlen hk]

/-! ## How a command ends -/

/-- A command that began in `s`, and puts out the bits `F` when it has room, has ended in `t`: with all
of them and the zero bits of its last byte, or in the exception with the destination full. -/
inductive CommandEnd (s t : State) (F : List Bool) : Prop where
  | completes (u : State) (n : Nat) (h : Progress s u (F ++ List.replicate n false)) (hn : n < 8)
      (hw : u.WriteOk) (hbit : u.wr.bit = 0) (hread : u.rd.touched = s.srcLen) (ht : t = u.complete)
  | overflows (u : State) (bs : List Bool) (h : Progress s u bs) (hbs : bs <+: F)
      (hlen : bs.length < F.length) (hw : u.WriteOk) (hfull : u.wr.byte = u.dstLen)
      (hread : 1 ≤ u.rd.touched ∧ u.rd.touched ≤ s.srcLen) (ht : t = u.takeOverflow)

theorem Progress.busy {s t : State} {bs : List Bool} (h : Progress s t bs) : t.busy = s.busy := by
  rw [h.only]; rfl

theorem Progress.dstLen {s t : State} {bs : List Bool} (h : Progress s t bs) : t.dstLen = s.dstLen := by
  rw [h.only]

theorem Progress.busReads {s t : State} {bs : List Bool} (h : Progress s t bs) (hb : s.busy = true) :
    Machine.busReads t.bus = (List.range t.rd.touched).map s.srcByteAddr := by
  obtain ⟨hreads, -⟩ := h.pattern (h.busy.trans hb)
  have haddr : t.srcByteAddr = s.srcByteAddr := by rw [h.only]; rfl
  exact haddr ▸ hreads

/-- The bytes put out are written once each, in ascending order (`20_memory.md` R68). -/
theorem Progress.busWrites {s t : State} {bs F : List Bool} (h : Progress s t bs) (hb : s.busy = true)
    (hF : ∀ q, q < bs.length → bs.getD q false = F.getD q false)
    (hlen : t.wr.byte ≤ (pack F).length) :
    Machine.busWrites t.bus
      = (List.range t.wr.byte).map fun i => (s.dstByteAddr i, (pack F).getD i 0) := by
  obtain ⟨-, hwrites⟩ := h.pattern (h.busy.trans hb)
  rw [hwrites, h.dstByteAddr]
  refine List.map_congr_left fun i hi => ?_
  have hlt := List.mem_range.mp hi
  rw [h.read_dst hF hlt (Nat.lt_of_lt_of_le hlt hlen)]

/-- A command that has ended so has ended as its function says (`41_encoder.md` R145, `42_decoder.md`
R184). -/
theorem CommandEnd.endsAs {s t : State} {F : List Bool} (h : CommandEnd s t F) (hb : s.busy = true) :
    s.EndsAs t (if s.dstLen < (pack F).length then none else some (pack F)) (pack F) := by
  cases h with
  | completes u n hp hn hw hbit hread ht =>
    have hF : ∀ q, q < (F ++ List.replicate n false).length →
        (F ++ List.replicate n false).getD q false = F.getD q false :=
      fun q _ => getD_append_replicate_false F n q
    have hlen : (pack F).length = u.wr.byte := by
      have hpos := hp.pos
      unfold Cursor.pos at hpos
      rw [hbit, List.length_append, List.length_replicate] at hpos
      have hzero : (0 : BitVec 3).toNat = 0 := rfl
      rw [length_pack]
      omega
    obtain ⟨-, hle, -⟩ := hw
    rw [hp.dstLen, ← hlen] at hle
    rw [if_neg (Nat.not_lt.mpr hle), ht]
    refine ⟨rfl, rfl, hlen.symm, fun i hi => hp.read_dst hF (hlen ▸ hi) hi,
      fun a ha => hp.mem a (hlen ▸ ha), ?_, ?_⟩
    · rw [← hread]; exact hp.busReads hb
    · rw [hlen]; exact hp.busWrites hb hF hlen.ge
  | overflows u bs hp hbs hlen hw hfull hread ht =>
    have hF : ∀ q, q < bs.length → bs.getD q false = F.getD q false := fun q => getD_of_prefix hbs
    have hpos := hw.full_iff.mp hfull
    rw [hp.pos, hp.dstLen] at hpos
    have hmore : s.dstLen < (pack F).length := by rw [length_pack]; omega
    rw [hp.dstLen] at hfull
    obtain ⟨hsome, hall⟩ := hread
    rw [if_pos hmore, ht]
    refine ⟨⟨rfl, rfl, rfl, rfl⟩, fun a ha => hp.mem a (hfull ▸ ha),
      ⟨u.rd.touched - 1, by omega, ?_⟩, ?_⟩
    · rw [Nat.sub_add_cancel hsome]; exact hp.busReads hb
    · rw [← hfull]; exact hp.busWrites hb hF (hfull.trans_le hmore.le)

/-! ## Runs of the engine -/

theorem run_succ_of_engineStep {s t : State} (hh : s.host = []) (h : engineStep s = .next t) (k : Nat) :
    Host.Core.run Sys2Proof.core (k + 1) s = Host.Core.run Sys2Proof.core k t := by
  have hstep : Sys2Proof.core.step s = .next t := (step_of_host_nil hh).trans h
  simp only [Host.Core.run, hstep]

/-- Where no command executes and the host has nothing to do, nothing changes (`43_commands.md`
R207). -/
theorem run_of_not_busy {s : State} (hh : s.host = []) (hb : s.busy = false) (k : Nat) :
    Host.Core.run Sys2Proof.core k s = .next s := by
  induction k with
  | zero => rfl
  | succ k ih => rw [run_succ_of_engineStep hh (engineStep_of_not_busy hb), ih]

/-- A run whose first step ends the command. -/
theorem run_of_ended {s t : State} (hh : s.host = []) (h : engineStep s = .next t)
    (hb : t.busy = false) (k : Nat) : Host.Core.run Sys2Proof.core (k + 1) s = .next t := by
  have hth : t.host = [] := by
    have e := engineStep_onlyEngine h
    unfold State.OnlyEngine at e
    rw [e]; exact hh
  rw [run_succ_of_engineStep hh h, run_of_not_busy hth hb]

/-- A step whose bits `bs` do not fit has taken `k` input bits, placed the bits that fit, and taken the
exception with the destination full. -/
def TakesOverflow (s : State) (k : Nat) (bs : List Bool) (o : Host.Outcome State Fault Refusal) :
    Prop :=
  8 * s.dstLen < s.wr.pos + bs.length ∧ ∃ u, o = .next u.takeOverflow
    ∧ Moved s u k (bs.take (8 * s.dstLen - s.wr.pos)) ∧ u.wr.byte = u.dstLen

/-- An emission that does not fit takes the exception, whatever would have followed it. -/
theorem takesOverflow_of_lt {s u : State} {k : Nat} (c : BitVec 3) (f : State → State)
    (hm : s.memWf = true) (hl : s.Legal) (hw : s.WriteOk) (hc : Consumed s u k) {bs : List Bool}
    (hlt : 8 * s.dstLen < s.wr.pos + bs.length) :
    TakesOverflow s k bs ((putList bs (u.setCnt c)).map f).outcome := by
  rcases emit_cases c hm hl hw hc bs with ⟨hfit, -⟩ | ⟨-, v, e, hv, hfull, -⟩
  · exact absurd hfit (Nat.not_le.mpr hlt)
  · exact ⟨hlt, v, by rw [e]; rfl, hv, hfull⟩

/-- A step that takes the exception ends the command, the bits before it being those of earlier
steps. -/
theorem TakesOverflow.commandEnd {s t : State} {k : Nat} {bs cs ds : List Bool}
    (h : TakesOverflow t k cs (engineStep t)) (hp : Progress s t bs) (hpos : 1 ≤ t.rd.pos + k) (m : Nat)
    (hh : t.host = []) : ∃ u, Host.Core.run Sys2Proof.core (m + 1) t = .next u
      ∧ CommandEnd s u (bs ++ (cs ++ ds)) := by
  obtain ⟨hlt, u, e, hm, hfull⟩ := h
  have hprefix : cs.take (8 * t.dstLen - t.wr.pos) <+: cs ++ ds :=
    (List.take_prefix _ _).trans (List.prefix_append _ _)
  have hlen : t.srcLen = s.srcLen := by rw [hp.only]
  have htouched : 1 ≤ u.rd.touched := by rw [Cursor.touched_eq, hm.pos]; omega
  refine ⟨_, run_of_ended hh e rfl m, .overflows u _ (hp.moved hm)
    ((List.prefix_append_right_inj bs).mpr hprefix) ?_ hm.writeOk hfull
    ⟨htouched, hlen ▸ hm.touched_le_srcLen⟩ rfl⟩
  have hpos := hp.pos
  have hle := hm.wr_pos_le
  simp only [List.length_append, List.length_take] at hle ⊢
  omega

end Sys2Proof.Machine
end

section
/-!
PROOF. ENCODE computes its function (`41_encoder.md` R140, R155): the codes of an input are those that
ENC_SCAN puts out bit by bit and then the closing code of ENC_FINISH.
-/

namespace Sys2Proof

theorem codeBits_singleton (c : Code) : codeBits [c] = code3 c := List.append_nil _

theorem codeBits_append (cs ds : List Code) : codeBits (cs ++ ds) = codeBits cs ++ codeBits ds :=
  List.flatMap_append

end Sys2Proof

namespace Sys2Proof.Contract

/-! ## The codes of an input, bit by bit -/

/-- The codes of an input of which `n` bits of value `p` are already counted. -/
def encodeFrom (p : Bool) (n : Nat) (b : List Bool) : List Code := (runsFrom p n b).flatMap chunks

theorem encodeCodes_of_ne_nil {b : List Bool} (h : b ≠ []) : encodeCodes b = encodeFrom false 0 b := by
  unfold encodeCodes encodeFrom
  rw [runs_of_ne_nil h]

theorem encodeFrom_nil (p : Bool) (n : Nat) : encodeFrom p n [] = chunks n := List.append_nil _

theorem encodeFrom_cons_same (p : Bool) (n : Nat) (b : List Bool) :
    encodeFrom p n (p :: b) = encodeFrom p (n + 1) b := by
  unfold encodeFrom
  rw [runsFrom_cons_same rfl]

theorem encodeFrom_cons_other {p x : Bool} (h : x ≠ p) (n : Nat) (b : List Bool) :
    encodeFrom p n (x :: b) = chunks n ++ encodeFrom (!p) 1 b := by
  unfold encodeFrom
  rw [runsFrom_cons_other h, List.flatMap_cons]

/-- Seven bits of a run can be put out as a code 7 before the rest of it is known. -/
theorem encodeFrom_add_seven (p : Bool) (n : Nat) (b : List Bool) :
    encodeFrom p (n + 7) b = 7 :: encodeFrom p n b := by
  induction b generalizing n with
  | nil => rw [encodeFrom_nil, encodeFrom_nil, chunks_add_seven]
  | cons x b ih =>
    by_cases hx : x = p
    · rw [hx, encodeFrom_cons_same, encodeFrom_cons_same, Nat.add_right_comm, ih]
    · rw [encodeFrom_cons_other hx, encodeFrom_cons_other hx, chunks_add_seven, List.cons_append]

/-- A run of fewer than seven bits is its closing code. -/
theorem chunks_toNat {c : Code} (h : c ≠ 7) : chunks c.toNat = [c] := by
  have hne : c.toNat ≠ 7 := fun e => h (BitVec.eq_of_toNat_eq e)
  rw [chunks_of_lt (by omega), BitVec.ofNat_toNat, BitVec.setWidth_eq]

/-- The codes that a bit `x` gives where `c` bits of value `p` are counted (`41_encoder.md` R147). -/
def scanCodes (p : Bool) (c : Code) (x : Bool) : List Code :=
  if x = p then if c = 6 then [7] else [] else [c]

/-- How many bits of value `x` are counted after it (`41_encoder.md` R147). -/
def scanCount (p : Bool) (c : Code) (x : Bool) : Code :=
  if x = p then if c = 6 then 0 else c + 1 else 1

/-- The codes of an input are those of its first bit and then those of the rest. -/
theorem encodeFrom_cons {c : Code} (h : c ≠ 7) (p x : Bool) (b : List Bool) :
    encodeFrom p c.toNat (x :: b)
      = scanCodes p c x ++ encodeFrom x (scanCount p c x).toNat b := by
  unfold scanCodes scanCount
  by_cases hx : x = p
  · subst hx
    rw [encodeFrom_cons_same, if_pos rfl, if_pos rfl]
    by_cases h6 : c = 6
    · rw [if_pos h6, if_pos h6, h6]
      exact encodeFrom_add_seven x 0 b
    · have hnext : (c + 1).toNat = c.toNat + 1 := by bv_omega
      rw [if_neg h6, if_neg h6, hnext, List.nil_append]
  · rw [encodeFrom_cons_other hx, if_neg hx, if_neg hx, chunks_toNat h, Bool.eq_not_of_ne hx]
    rfl

end Sys2Proof.Contract

namespace Sys2Proof.Machine

open Contract

/-! ## The steps of ENCODE as the codes they put out -/

/-- ENC_SCAN where the bit gives a code, `c` (`41_encoder.md` R147). -/
theorem encScan_emits {s : State} (hr : s.ReadOk) (he : s.atEnd = false)
    (h : s.srcBit s.rd.pos ≠ s.pol ∨ s.cnt = 6) :
    ∃ (u : State) (c : Code) (f : State → State), Consumed s u 1
      ∧ scanCodes s.pol s.cnt (s.srcBit s.rd.pos) = [c]
      ∧ encScan s = ((putList (code3 c) (u.setCnt c)).map f).outcome := by
  obtain ⟨hbit, hc⟩ := getBit_spec hr (State.ne_end he)
  have hpol : (getBit s).2.pol = s.pol := by rw [hc.onlyInput]
  have hcnt : (getBit s).2.cnt = s.cnt := by rw [hc.onlyInput]
  unfold encScan scanCodes
  simp only [hbit, hpol, hcnt, State.setCnt_cnt, putCode_eq_putList]
  by_cases hx : s.srcBit s.rd.pos = s.pol
  · have h6 := h.resolve_left (· hx)
    have h7 : s.cnt + 1 = 7 := (cnt_add_one_eq_seven_iff _).mpr h6
    refine ⟨_, 7, fun x => x.setCnt 0, hc, by rw [if_pos hx, if_pos h6], ?_⟩
    rw [if_pos hx, if_pos h7, h7]
  · refine ⟨_, s.cnt, fun x => x.flipPol.setCnt 1, hc, by rw [if_neg hx], ?_⟩
    rw [if_neg hx, State.setCnt_self hcnt]

/-- ENC_SCAN puts out the codes of its bit, or takes the exception where they do not fit. -/
theorem encScan_moves {s : State} (hm : s.memWf = true) (hl : s.Legal) (hr : s.ReadOk)
    (hw : s.WriteOk) (he : s.atEnd = false) :
    (∃ t, encScan s = .next t
        ∧ Moved s t 1 (codeBits (scanCodes s.pol s.cnt (s.srcBit s.rd.pos)))
        ∧ t.pol = s.srcBit s.rd.pos ∧ t.cnt = scanCount s.pol s.cnt (s.srcBit s.rd.pos))
      ∨ TakesOverflow s 1 (codeBits (scanCodes s.pol s.cnt (s.srcBit s.rd.pos))) (encScan s) := by
  obtain ⟨u, hc, h⟩ := encScan_spec hm hl hr hw he
  have hupol : u.pol = s.pol := by rw [hc.onlyInput]
  simp only [ne_eq, cnt_add_one_eq_seven_iff] at h
  rcases h with ⟨hx, h6, e⟩ | ⟨hx, h6, -, v, hp, e⟩ | ⟨hx, -, v, hp, e⟩ | ⟨hemit, hfull, -⟩
  · refine .inl ⟨_, e, ?_, hupol.trans hx.symm, ?_⟩
    · unfold scanCodes
      rw [if_pos hx, if_neg h6]
      exact hc.moved hm hl hw (s.cnt + 1)
    · unfold scanCount
      rw [if_pos hx, if_neg h6, State.setCnt_cnt]
  · refine .inl ⟨_, e, ?_, (hp.pol.trans hupol).trans hx.symm, ?_⟩
    · unfold scanCodes
      rw [if_pos hx, if_pos h6, codeBits_singleton]
      exact Moved.of 7 hl hc hp v.pol 0
    · unfold scanCount
      rw [if_pos hx, if_pos h6, State.setCnt_cnt]
  · have hpol : v.pol = s.pol := hp.pol.trans hupol
    refine .inl ⟨_, e, ?_, ?_, ?_⟩
    · unfold scanCodes
      rw [if_neg hx, codeBits_singleton]
      exact Moved.of s.cnt hl hc hp (!v.pol) 1
    · rw [State.setCnt_pol, State.flipPol_pol, hpol, Bool.eq_not_of_ne hx]
    · unfold scanCount
      rw [if_neg hx, State.setCnt_cnt]
  · obtain ⟨u, c, f, hc, hcode, e⟩ := encScan_emits hr he hemit
    rw [hcode, codeBits_singleton, e]
    exact .inr (takesOverflow_of_lt c f hm hl hw hc hfull)

/-- ENC_FINISH where the closing code does not fit (`41_encoder.md` R148). -/
theorem encFinish_takesOverflow {s : State} (hm : s.memWf = true) (hl : s.Legal) (hr : s.ReadOk)
    (hw : s.WriteOk) (h : 8 * s.dstLen < s.wr.pos + 3) :
    TakesOverflow s 0 (code3 s.cnt) (encFinish s) := by
  unfold encFinish
  rw [putCode_eq_putList]
  exact takesOverflow_of_lt s.cnt _ hm hl hw (.refl hr) h

/-! ## The run of ENCODE -/

/-- What the invariant says in ENC. -/
theorem State.Inv.of_enc {s : State} (hi : s.Inv) (hph : s.phase = .enc) :
    s.memWf = true ∧ s.srcLen ≠ 0 ∧ s.Legal ∧ s.ReadOk ∧ s.WriteOk ∧ s.cnt ≠ 7 := by
  obtain ⟨-, hm, -, -, hbusy⟩ := hi
  obtain ⟨hne, hl, hr, hw, -, henc, -⟩ := hbusy (State.busy_of_enc hph)
  exact ⟨hm, hne, hl, hr, hw, (henc hph).1⟩

/-- With no input bit left, ENC_FINISH ends the command with the closing code. -/
theorem encode_run_finish {s t : State} {bs : List Bool} (hp : Progress s t bs) (hi : t.Inv)
    (hph : t.phase = .enc) (hh : t.host = []) (hend : t.rd.pos = 8 * t.srcLen) :
    ∃ u, Host.Core.run Sys2Proof.core 1 t = .next u ∧ CommandEnd s u (bs ++ code3 t.cnt) := by
  obtain ⟨hm, hne, hl, hr, hw, -⟩ := hi.of_enc hph
  have hstep : engineStep t = encFinish t := by
    rw [engineStep_of_enc hph, (State.atEnd_iff hr).mpr hend]; rfl
  have hlen : t.srcLen = s.srcLen := by rw [hp.only]
  rcases encFinish_spec hm hl hr hw with ⟨-, v, n, hn, hmv, hbit, -, e⟩ | ⟨hfull, -⟩
  · have hp' := hp.moved hmv
    rw [← List.append_assoc] at hp'
    have hread : v.rd.touched = s.srcLen := by rw [Cursor.touched_eq, hmv.pos, hend, hlen]; omega
    exact ⟨_, run_of_ended hh (hstep.trans e) rfl 0, .completes v n hp' hn hmv.writeOk hbit hread rfl⟩
  · have hover := encFinish_takesOverflow hm hl hr hw hfull
    rw [← hstep] at hover
    have hrun := hover.commandEnd (ds := []) hp (by omega) 0 hh
    rwa [List.append_nil] at hrun

/-- From any state of an ENCODE, a step for each input bit left and one more end the command with the
codes still to come. -/
theorem encode_run {s t : State} {bs : List Bool} (hp : Progress s t bs) (hi : t.Inv)
    (hph : t.phase = .enc) (hh : t.host = []) :
    ∃ u, Host.Core.run Sys2Proof.core (t.restBits.length + 1) t = .next u
      ∧ CommandEnd s u (bs ++ codeBits (encodeFrom t.pol t.cnt.toNat t.restBits)) := by
  generalize hb : t.restBits = b
  induction b generalizing t bs with
  | nil =>
    obtain ⟨-, -, -, hr, -, h7⟩ := hi.of_enc hph
    have hleft := t.length_restBits
    rw [hb, List.length_nil] at hleft
    have hend : t.rd.pos = 8 * t.srcLen := by have := hr.pos_le; omega
    rw [encodeFrom_nil, chunks_toNat h7, codeBits_singleton]
    exact encode_run_finish hp hi hph hh hend
  | cons x b ih =>
    obtain ⟨hm, -, hl, hr, hw, h7⟩ := hi.of_enc hph
    have hleft := t.length_restBits
    rw [hb, List.length_cons] at hleft
    have hmore : t.rd.pos < 8 * t.srcLen := by omega
    have he : t.atEnd = false :=
      Bool.eq_false_of_not_eq_true fun h => hmore.ne ((State.atEnd_iff hr).mp h)
    have hstep : engineStep t = encScan t := by rw [engineStep_of_enc hph, he]; rfl
    have hx : t.srcBit t.rd.pos = x := by
      rw [State.restBits_eq_cons hmore] at hb
      exact (List.cons.inj hb).1
    have hcodes : codeBits (encodeFrom t.pol t.cnt.toNat (x :: b))
        = codeBits (scanCodes t.pol t.cnt x)
          ++ codeBits (encodeFrom x (scanCount t.pol t.cnt x).toNat b) := by
      rw [encodeFrom_cons h7, codeBits_append]
    have hmoves := encScan_moves hm hl hr hw he
    rw [hx, ← hstep] at hmoves
    rw [hcodes]
    rcases hmoves with ⟨t', e, hmv, hpol, hcnt⟩ | hover
    · have hb' : t'.restBits = b := by rw [hmv.restBits hl, hb]; rfl
      have hh' : t'.host = [] := by rw [hmv.only]; exact hh
      have hrun := ih (hp.moved hmv) (engineStep_keeps_inv hi e) (hmv.phase.trans hph) hh' hb'
      rwa [hpol, hcnt, List.append_assoc, ← run_succ_of_engineStep hh e] at hrun
    · exact hover.commandEnd hp (Nat.le_add_left 1 _) _ hh

theorem srcBytes_ne_nil {s : State} (h : s.srcLen ≠ 0) : s.srcBytes ≠ [] := by
  unfold State.srcBytes
  rw [ne_eq, List.map_eq_nil_iff, List.range_eq_nil]
  exact h

/-- Settles O34: the run of `encode_run` from the START on, the codes of the whole input being still to
come. -/
theorem encodeComputesItsFunction : Obligations.EncodeComputesItsFunction := by
  unfold Obligations.EncodeComputesItsFunction
  intro s hready hm hh
  have ⟨_, _, _, hne, _⟩ := hready
  have hrun := encode_run (Progress.startWork s .encode) (hready.startWork_inv hm .encode) rfl hh
  have hrest : ((s.acceptStart .encode).startWork .encode).restBits = bitsOf s.srcBytes := rfl
  have hlen : (bitsOf s.srcBytes).length = 8 * s.srcLen := by
    rw [s.bitsOf_srcBytes, List.length_map, List.length_range]
  have hbits : bitsOf s.srcBytes ≠ [] := bitsOf_ne_nil (srcBytes_ne_nil hne)
  rw [hrest, hlen] at hrun
  obtain ⟨t, ht, hend⟩ := hrun
  refine ⟨_, t, start_of_ready hready .encode, ht, ?_⟩
  have hends := hend.endsAs rfl
  unfold encodeFn encodeOut
  rw [if_neg (srcBytes_ne_nil hne), encodeCodes_of_ne_nil hbits]
  exact hends

end Sys2Proof.Machine
end

section
/-!
PROOF. The step in DEC (`42_decoder.md` R182, R183) and the eight codes (R172 to R179): a code of value `v`
appends `v` bits of the current polarity, and then sets the polarity or has taken the exception.
-/

namespace Sys2Proof

/-- Every instruction of the stream is the instruction of a code (`30_encoding.md` R94). -/
theorem Instr.exists_code : ∀ {i : Instr}, i.isCode = true → ∃ v : Code, i = decodeCode v
  | .run0, _ => ⟨0, rfl⟩
  | .run1, _ => ⟨1, rfl⟩
  | .run2, _ => ⟨2, rfl⟩
  | .run3, _ => ⟨3, rfl⟩
  | .run4, _ => ⟨4, rfl⟩
  | .run5, _ => ⟨5, rfl⟩
  | .run6, _ => ⟨6, rfl⟩
  | .run7c, _ => ⟨7, rfl⟩

theorem runLength_decodeCode (v : Code) : (decodeCode v).runLength = v.toNat := by
  revert v; decide

end Sys2Proof

namespace Sys2Proof.Machine

/-! ## The step in DEC -/

theorem engineStep_of_codeAvail {s : State} (hph : s.phase = .dec) (ha : s.codeAvail = true) :
    engineStep s = decCode s := by
  rw [engineStep_of_dec hph, if_pos ha]

theorem engineStep_of_not_codeAvail {s : State} (hph : s.phase = .dec) (ha : s.codeAvail = false) :
    engineStep s = decFinish s := by
  rw [engineStep_of_dec hph, ha]; rfl

/-- DEC_CODE runs the instruction that the decoder reads from the code taken (`42_decoder.md` R182). -/
theorem engineStep_runs_code {s : State} {i : Instr} (hph : s.phase = .dec) (ha : s.codeAvail = true)
    (hi : decode (.code3 (getCode s).1) = .ok i) : engineStep s = exec i (getCode s).2 := by
  cases hi
  exact engineStep_of_codeAvail hph ha

/-- Settles O6: the engine is next, with or without a wait of the host used up before it. -/
theorem stepRunsTheDecodedCode : Obligations.StepRunsTheDecodedCode := by
  unfold Obligations.StepRunsTheDecodedCode
  intro s hph ha
  refine ⟨fun i hi hh => ?_, fun rest i hh hi => ?_⟩
  · exact (step_of_host_nil hh).trans (engineStep_runs_code hph ha hi)
  · exact (step_of_host_cons hh).trans (engineStep_runs_code (s := s.setHost rest) hph ha hi)

/-! ## A run of equal bits -/

/-- A code's bits all have the current polarity. -/
theorem State.Appended.of_replicate {s t : State} {k : Nat} {b : Bool}
    (h : s.Appended t (List.replicate k b).length fun q => (List.replicate k b).getD q false) :
    s.Appended t k fun _ => b := by
  obtain ⟨hpos, hkept, hnew⟩ := h
  rw [List.length_replicate] at hpos hnew
  exact ⟨hpos, hkept, fun q hq => (hnew q hq).trans (List.getD_replicate _ hq)⟩

/-- Up to eight bits that reach the end of the byte under the write cursor store that byte alone. -/
theorem Produced.bus_of_byte_completed {s t : State} {bs : List Bool} (h : Produced s t bs)
    (hlen : bs.length ≤ 8) (hend : 8 ≤ s.wr.bit.toNat + bs.length) :
    t.bus = .write s.dstPtr (t.mem.read s.dstPtr) :: s.bus := by
  obtain ⟨hpos, -, -⟩ := h.appended
  have hbit := s.wr.bit.isLt
  have hone : t.wr.byte - s.wr.byte = 1 := by
    rw [← t.wr.pos_div, hpos]; unfold Cursor.pos; omega
  rw [h.bus, hone]
  rfl

/-! ## The meaning of a code -/

/-- A code appends its bits and then sets the polarity, which only the continuation code 7 keeps
(`30_encoding.md` R94). -/
theorem exec_code_setPol (v : Code) (s : State) :
    exec (decodeCode v) s
      = ((putList (List.replicate v.toNat s.pol) s).map fun x =>
          x.setPol (if v != 7 then !x.pol else x.pol)).outcome := by
  have hpol : ∀ x : State,
      (if v = 7 then x else x.flipPol) = x.setPol (if v != 7 then !x.pol else x.pol) := fun x => by
    by_cases h : v = 7
    · rw [if_pos h, h]; rfl
    · rw [if_neg h, if_pos (bne_iff_ne.mpr h)]; rfl
  rw [exec_code]
  simp only [hpol]

/-- A code that fits (`42_decoder.md` R172 to R179). -/
theorem emitsRun_decodeCode (v : Code) : EmitsRun (decodeCode v) v.toNat (v != 7) := by
  unfold EmitsRun
  intro s hm hw hfit
  have hlt := v.isLt
  have hlen : (List.replicate v.toNat s.pol).length = v.toNat := List.length_replicate
  obtain ⟨x, e, hp⟩ :=
    putList_fits (bs := List.replicate v.toNat s.pol) hm hw (by rw [hlen]; exact hfit)
  have hnone := putList_stores_nothing (List.replicate v.toNat s.pol) s
  have hone := putList_stores_one (List.replicate v.toNat s.pol) s (by omega) hm
  rw [e] at hnone hone
  rw [hlen] at hnone
  rw [exec_code_setPol, e]
  refine ⟨_, rfl, ?_, hp.appended.of_replicate, hp.writeOk, hp.onlyOutput.trans rfl, hone, ?_⟩
  · rw [State.setPol_pol, hp.pol]
  · split
    next hin => exact hnone hin
    next hout => exact hp.bus_of_byte_completed (by omega) (by omega)

/-- The registers that change where bits are appended and then the exception is taken. -/
theorem State.OnlyOutput.takeOverflow {s x : State} (h : s.OnlyOutput x) (hpol : x.pol = s.pol) :
    x.takeOverflow = { s with
      wr := x.wr, wacc := x.wacc, mem := x.mem, bus := x.bus, ovf := true,
      result := s.widths.minusOne, statusOvf := true, phase := .done } := by
  unfold State.OnlyOutput at h
  rw [hpol] at h
  rw [h]
  rfl

/-- A code that does not fit (`42_decoder.md` R182, `60_exceptions.md` R221). -/
theorem overflowsRun_decodeCode (v : Code) : OverflowsRun (decodeCode v) v.toNat := by
  unfold OverflowsRun
  intro s hm hw hfull
  have hlt := v.isLt
  have hlen : (List.replicate v.toNat s.pol).length = v.toNat := List.length_replicate
  obtain ⟨x, e, hp, -⟩ :=
    putList_overflows (bs := List.replicate v.toNat s.pol) hm hw (by rw [hlen]; exact hfull)
  have hone := putList_stores_one (List.replicate v.toNat s.pol) s (by omega) hm
  have honly := hp.onlyOutput.takeOverflow hp.pol
  rw [e] at hone
  rw [List.take_replicate, Nat.min_eq_left (by omega)] at hp
  rw [exec_code_setPol, e]
  refine ⟨_, rfl, ⟨rfl, rfl, rfl, rfl⟩, hp.pol, hp.appended.of_replicate, ?_, hone⟩
  rw [honly]

/-- Settles O14: the run of no bit fits in every state, and code 0 flips the polarity. -/
theorem run0FlipsPolarity : Obligations.Run0FlipsPolarity := by
  unfold Obligations.Run0FlipsPolarity
  exact fun s => exec_code_setPol 0 s

/-- Settles O15: the codes 1 to 6. -/
theorem run1To6EmitThenFlip : Obligations.Run1To6EmitThenFlip := by
  unfold Obligations.Run1To6EmitThenFlip
  have hcode : ∀ v : Code, EmitsRun (decodeCode v) v.toNat (v != 7)
      ∧ OverflowsRun (decodeCode v) v.toNat :=
    fun v => ⟨emitsRun_decodeCode v, overflowsRun_decodeCode v⟩
  exact ⟨hcode 1, hcode 2, hcode 3, hcode 4, hcode 5, hcode 6⟩

/-- Settles O16: the code 7. -/
theorem run7cEmitsSevenAndKeepsPolarity : Obligations.Run7cEmitsSevenAndKeepsPolarity := by
  unfold Obligations.Run7cEmitsSevenAndKeepsPolarity
  exact ⟨emitsRun_decodeCode 7, overflowsRun_decodeCode 7⟩

/-! ## The frame of the codes, in every state -/

/-- Setting the polarity after an emission stores nothing. -/
theorem Emit.map_setPol_mem_bus (e : Emit) (f : State → Bool) :
    (e.map fun x => x.setPol (f x)).state.mem = e.state.mem
      ∧ (e.map fun x => x.setPol (f x)).state.bus = e.state.bus := by
  cases e <;> exact ⟨rfl, rfl⟩

/-- Settles O17: the frame of the bits a code appends, and of the exception entry. -/
theorem codesFrame : Obligations.CodesFrame := by
  unfold Obligations.CodesFrame
  intro i s t hi hm h
  obtain ⟨v, rfl⟩ := Instr.exists_code hi
  have hlt := v.isLt
  have hlen : (List.replicate v.toNat s.pol).length = v.toNat := List.length_replicate
  rw [exec_code_setPol, Emit.outcome_eq] at h
  cases h
  obtain ⟨hmem, hbus⟩ := Emit.map_setPol_mem_bus (putList (List.replicate v.toNat s.pol) s)
    fun x => if v != 7 then !x.pol else x.pol
  rw [runLength_decodeCode, hmem, hbus]
  refine ⟨?_, putList_stores_one _ s (by omega) hm, fun hin => putList_stores_nothing _ s (by omega)⟩
  rcases putList_frame (List.replicate v.toNat s.pol) s with ⟨x, e, ho, -⟩ | ⟨x, e, ho, hpol⟩
  · rw [e]
    exact .inl (ho.trans rfl)
  · rw [e]
    exact .inr ⟨⟨rfl, rfl, rfl, rfl⟩, hpol, ho.takeOverflow hpol⟩

end Sys2Proof.Machine
end

section
/-!
PROOF. The function of DECODE (`42_decoder.md` R170): what its output depends on, how long it can be, and
that it gives back what ENCODE encoded (R185 to R188, R192).
-/

namespace Sys2Proof

/-! ## Bytes from their bits -/

theorem byteBits_injective {x y : Byte} (h : byteBits x = byteBits y) : x = y := by
  rw [byteBits_eq_map, byteBits_eq_map, List.map_inj_left] at h
  exact byte_ext fun k hk => h k (List.mem_range.mpr hk)

theorem bitsOf_cons (x : Byte) (xs : List Byte) : bitsOf (x :: xs) = byteBits x ++ bitsOf xs := rfl

/-- A byte list is determined by its bits. -/
theorem bitsOf_injective {xs ys : List Byte} (h : bitsOf xs = bitsOf ys) : xs = ys := by
  have hlen := congrArg List.length h
  rw [length_bitsOf, length_bitsOf] at hlen
  induction xs generalizing ys with
  | nil => exact (List.eq_nil_of_length_eq_zero (by rw [List.length_nil] at hlen; omega)).symm
  | cons x xs ih =>
    cases ys with
    | nil => cases hlen
    | cons y ys =>
      rw [bitsOf_cons, bitsOf_cons] at h
      obtain ⟨hx, hxs⟩ := List.append_inj h rfl
      rw [List.length_cons, List.length_cons] at hlen
      rw [byteBits_injective hx, ih hxs (by omega)]

/-- Whole bytes need no padding. -/
theorem pack_bitsOf (bs : List Byte) : pack (bitsOf bs) = bs := by
  refine bitsOf_injective ?_
  rw [bitsOf_pack, length_bitsOf, Nat.mul_mod_right]
  exact List.append_nil _

/-! ## The whole codes of a bit list -/

theorem codesOf_cons (b0 b1 b2 : Bool) (b : List Bool) :
    codesOf (b0 :: b1 :: b2 :: b) = codeOfBits b0 b1 b2 :: codesOf b := rfl

theorem length_codesOf : ∀ b : List Bool, (codesOf b).length = b.length / 3
  | [] => rfl
  | [_] => by simp [codesOf]
  | [_, _] => by simp [codesOf]
  | b0 :: b1 :: b2 :: b => by
    rw [codesOf_cons, List.length_cons, length_codesOf b]
    simp only [List.length_cons]
    omega

/-- The one or two bits after the last whole code are no part of any code (`30_encoding.md` R98). -/
theorem codesOf_take : ∀ b : List Bool, codesOf (b.take (3 * (b.length / 3))) = codesOf b
  | [] => rfl
  | [_] => by simp [codesOf]
  | [_, _] => by simp [codesOf]
  | b0 :: b1 :: b2 :: b => by
    have hlen : 3 * ((b0 :: b1 :: b2 :: b).length / 3) = 3 * (b.length / 3) + 3 := by
      simp only [List.length_cons]
      omega
    rw [hlen]
    exact congrArg (codeOfBits b0 b1 b2 :: ·) (codesOf_take b)

theorem codesOf_replicate (x : Bool) : ∀ n : Nat,
    codesOf (List.replicate n x) = List.replicate (n / 3) (codeOfBits x x x)
  | 0 => rfl
  | 1 => rfl
  | 2 => rfl
  | n + 3 => by
    rw [Nat.add_div_right n (by decide), List.replicate_succ (n := n / 3), ← codesOf_replicate x n]
    rfl

theorem bitsOf_replicate_ones (n : Nat) :
    bitsOf (List.replicate n 0xFF) = List.replicate (8 * n) true := by
  induction n with
  | zero => rfl
  | succ n ih =>
    rw [List.replicate_succ, Nat.mul_succ, Nat.add_comm, List.replicate_add, ← ih]
    rfl

end Sys2Proof

namespace Sys2Proof.Contract

/-! ## The function of DECODE -/

/-- The empty source is no case of its own: it has no code and so no output (`42_decoder.md` R170). -/
theorem decodeFn_eq (src : List Byte) (cap : Nat) :
    decodeFn src cap = if cap < (decodeOut src).length then none else some (decodeOut src) := by
  unfold decodeFn
  split
  next h => subst h; rfl
  next => rfl

/-- Where the output fits, DECODE gives it (`42_decoder.md` R184). -/
theorem decodeFn_of_le {src : List Byte} {cap : Nat} (h : (decodeOut src).length ≤ cap) :
    decodeFn src cap = some (decodeOut src) := by
  rw [decodeFn_eq, if_neg (Nat.not_lt.mpr h)]

/-- Settles O43: the output is a function of the whole codes. -/
theorem decodeIgnoresTheTail : Obligations.DecodeIgnoresTheTail := by
  unfold Obligations.DecodeIgnoresTheTail
  intro src src' cap hlen htake
  have hcodes : codesOf (bitsOf src') = codesOf (bitsOf src) := by
    rw [← codesOf_take (bitsOf src'), ← codesOf_take (bitsOf src), length_bitsOf, length_bitsOf,
      hlen, htake]
  have hout : decodeOut src' = decodeOut src := by
    unfold decodeOut
    rw [hcodes]
  rw [decodeFn_eq, decodeFn_eq, hout]

/-- Settles O44: codes 0 emit nothing. -/
theorem allZeroCodesDecodeToNothing : Obligations.AllZeroCodesDecodeToNothing := by
  unfold Obligations.AllZeroCodesDecodeToNothing
  intro src cap hzero
  have hout : decodeOut src = [] := by
    unfold decodeOut
    rw [List.eq_replicate_of_mem hzero, expand_replicate_zero]
    rfl
  rw [decodeFn_of_le (by rw [hout]; exact Nat.zero_le cap), hout]

/-! ## The decoded length -/

/-- A code emits at most seven bits. -/
theorem length_expand_le (p : Bool) (cs : List Code) : (expand p cs).length ≤ 7 * cs.length := by
  induction cs generalizing p with
  | nil => exact le_rfl
  | cons v vs ih =>
    have hv := v.isLt
    have hvs := ih (if v = 7 then p else !p)
    rw [expand_cons, List.length_append, List.length_replicate, List.length_cons]
    omega

/-- Codes 7 emit seven bits each, from either polarity. -/
theorem length_expand_replicate_seven (p : Bool) (n : Nat) :
    (expand p (List.replicate n 7)).length = 7 * n := by
  induction n with
  | zero => rfl
  | succ n ih =>
    rw [List.replicate_succ, expand_cons, if_pos rfl, List.length_append, ih, List.length_replicate,
      Nat.mul_succ, Nat.add_comm]
    rfl

theorem length_decodeOut (src : List Byte) :
    (decodeOut src).length = ((expand false (codesOf (bitsOf src))).length + 7) / 8 :=
  length_pack _

/-- Settles O42: seven bits a code at most, and each code of bytes 0xFF is a 7. -/
theorem decodedSizeBound : Obligations.DecodedSizeBound := by
  unfold Obligations.DecodedSizeBound
  refine ⟨fun src _ => ?_, fun n => ?_⟩
  · have hmost := length_expand_le false (codesOf (bitsOf src))
    rw [length_codesOf, length_bitsOf] at hmost
    have hle : (decodeOut src).length ≤ (7 * (8 * src.length / 3) + 7) / 8 := by
      rw [length_decodeOut]; omega
    exact ⟨hle, fun cap hcap => decodeFn_of_le (hle.trans hcap)⟩
  · have hseven : codeOfBits true true true = 7 := rfl
    rw [length_decodeOut, bitsOf_replicate_ones, codesOf_replicate, hseven,
      length_expand_replicate_seven]

/-! ## DECODE after ENCODE -/

/-- The chunks of a run stand for its bits, and the closing code then turns the polarity
(`41_encoder.md` R142). -/
theorem expand_chunks_append (p : Bool) (n : Nat) (cs : List Code) :
    expand p (chunks n ++ cs) = List.replicate n p ++ expand (!p) cs := by
  induction n using Nat.strongRecOn with
  | ind n ih =>
    rcases Nat.lt_or_ge n 7 with hlt | hge
    · have hval : (BitVec.ofNat 3 n).toNat = n := Nat.mod_eq_of_lt (by omega)
      have hne : BitVec.ofNat 3 n ≠ 7 := fun he => by
        rw [he] at hval; exact hlt.ne hval.symm
      rw [chunks_of_lt hlt, List.singleton_append, expand_cons, if_neg hne, hval]
    · obtain ⟨m, rfl⟩ := Nat.exists_eq_add_of_le hge
      rw [Nat.add_comm, chunks_add_seven, List.cons_append, expand_cons, if_pos rfl,
        ih m (by omega), Nat.add_comm, List.replicate_add, List.append_assoc]
      rfl

/-- The codes of run lengths stand for the bits they spell. -/
theorem expand_flatMap_chunks (p : Bool) (ns : List Nat) :
    expand p (ns.flatMap chunks) = unruns p ns := by
  induction ns generalizing p with
  | nil => rfl
  | cons n ns ih => rw [List.flatMap_cons, expand_chunks_append, ih]; rfl

/-- The codes of ENCODE stand for its input bits. -/
theorem expand_encodeCodes {b : List Bool} (h : b ≠ []) : expand false (encodeCodes b) = b := by
  unfold encodeCodes
  rw [expand_flatMap_chunks, runs_of_ne_nil h, unruns_runsFrom]
  rfl

/-- DECODE's bits of what ENCODE put out are ENCODE's input bits, the padding adding none
(`30_encoding.md` R100). -/
theorem expand_codesOf_encodeOut {src : List Byte} (h : src ≠ []) :
    expand false (codesOf (bitsOf (encodeOut src))) = bitsOf src := by
  have hstream : encodeOut src = encodeStream (encodeCodes (bitsOf src)) := rfl
  obtain ⟨-, hexpand⟩ := streamReadsBackWithPadding (encodeCodes (bitsOf src))
  rw [hstream, hexpand, expand_encodeCodes (bitsOf_ne_nil h)]

theorem eq_encodeOut_of_encodeFn {src e : List Byte} {cap : Nat} (hne : src ≠ [])
    (h : encodeFn src cap = some e) : e = encodeOut src := by
  unfold encodeFn at h
  rw [if_neg hne] at h
  split at h
  · cases h
  · cases h; rfl

/-- Settles O37: DECODE's bits are ENCODE's input bits, which fill whole bytes. -/
theorem decodeInvertsEncodeOnBytes : Obligations.DecodeInvertsEncodeOnBytes := by
  unfold Obligations.DecodeInvertsEncodeOnBytes
  intro b e capE capD henc hcap
  have hbits : expand false (codesOf (bitsOf e)) = bitsOf b := by
    by_cases hb : b = []
    · subst hb
      cases henc
      rfl
    · rw [eq_encodeOut_of_encodeFn hb henc, expand_codesOf_encodeOut hb]
  have hout : decodeOut e = b := by
    unfold decodeOut
    rw [hbits, pack_bitsOf]
  refine ⟨?_, by rw [hbits, length_bitsOf]⟩
  rw [decodeFn_of_le (by rwa [hout]), hout]

end Sys2Proof.Contract
end

section
/-!
PROOF. DECODE computes its function (`42_decoder.md` R170, R191), and its closing step (R183): DEC_CODE puts
out the bits of one code after another, and DEC_FINISH pads the last byte.
-/

namespace Sys2Proof.Machine

open Contract

/-- What the invariant says in DEC. -/
theorem State.Inv.of_dec {s : State} (hi : s.Inv) (hph : s.phase = .dec) :
    s.widths.wellFormed = true ∧ s.memWf = true ∧ s.Legal ∧ s.ReadOk ∧ s.WriteOk := by
  obtain ⟨⟨hp, -⟩, hm, -, -, hbusy⟩ := hi
  have hb : s.busy = true := by unfold State.busy; rw [hph]; rfl
  obtain ⟨-, hl, hr, hw, -⟩ := hbusy hb
  exact ⟨hp, hm, hl, hr, hw⟩

/-! ## DEC_FINISH -/

/-- With no partial byte DEC_FINISH has nothing to write (`40_bit_cursor.md` R127). -/
theorem decFinish_of_no_partial_byte {s : State} (h : s.wr.bit = 0) :
    decFinish s = .next s.complete := by
  unfold decFinish
  rw [State.flush_of_zero h]

/-- A step that takes no input bit reads nothing. -/
theorem Moved.busReads_of_rd_eq {s t : State} {k : Nat} {bs : List Bool} (h : Moved s t k bs)
    (hrd : t.rd = s.rd) : Machine.busReads t.bus = Machine.busReads s.bus := by
  rw [h.busReads, hrd, Nat.sub_self]
  exact List.append_nil _

/-- Settles O30: the zero bits `decFinish_spec` appends. -/
theorem decFinishStep : Obligations.DecFinishStep := by
  unfold Obligations.DecFinishStep
  intro s hi hph ha
  obtain ⟨-, hm, hl, hr, hw⟩ := hi.of_dec hph
  obtain ⟨v, n, -, hmv, hbit, hbyte, hrd, e⟩ := decFinish_spec hm hl hr hw
  obtain ⟨hpos, hkept, hzero⟩ := hmv.appended.of_replicate
  have hend : v.wr.pos = 8 * v.wr.byte := by unfold Cursor.pos; rw [hbit]; rfl
  refine ⟨_, (engineStep_of_not_codeAvail hph ha).trans e, rfl, rfl, rfl, hbit, hbyte, hrd, hkept,
    fun q hq hq' => ?_, hmv.busReads_of_rd_eq hrd, fun h0 => ?_⟩
  · obtain ⟨j, rfl⟩ := Nat.exists_eq_add_of_le hq
    have hq8 : s.wr.pos + j < 8 * v.wr.byte := hq'
    exact hzero j (by omega)
  · have hsame : v.complete = s.complete :=
      Host.Outcome.next.inj (e.symm.trans (decFinish_of_no_partial_byte h0))
    rw [hsame]
    exact ⟨rfl, rfl⟩

/-! ## The codes of the input bits left -/

/-- The code under the read cursor (`40_bit_cursor.md` R124). -/
def State.nextCode (s : State) : Code :=
  codeOfBits (s.srcBit s.rd.pos) (s.srcBit (s.rd.pos + 1)) (s.srcBit (s.rd.pos + 2))

theorem State.drop_bitsOf_srcBytes {s : State} {p : Nat} (h : p < 8 * s.srcLen) :
    (bitsOf s.srcBytes).drop p = s.srcBit p :: (bitsOf s.srcBytes).drop (p + 1) := by
  rw [State.bitsOf_srcBytes, List.drop_eq_getElem_cons (by simpa using h)]
  simp

/-- With three input bits left the first of their codes is the next one. -/
theorem State.codesOf_restBits {s : State} (h : s.rd.pos + 3 ≤ 8 * s.srcLen) :
    codesOf s.restBits = s.nextCode :: codesOf (s.restBits.drop 3) := by
  have hbits : s.restBits = s.srcBit s.rd.pos :: s.srcBit (s.rd.pos + 1) :: s.srcBit (s.rd.pos + 2)
      :: s.restBits.drop 3 := by
    unfold State.restBits
    rw [List.drop_drop, ← State.drop_bitsOf_srcBytes (p := s.rd.pos + 2) (by omega),
      ← State.drop_bitsOf_srcBytes (by omega), ← State.drop_bitsOf_srcBytes (by omega)]
  rw [hbits]
  rfl

/-! ## The steps of DECODE as the bits they put out -/

/-- DEC_CODE puts out the bits of its code, or takes the exception where they do not fit
(`42_decoder.md` R182). -/
theorem decCode_moves {s : State} (hp : s.widths.wellFormed = true) (hm : s.memWf = true)
    (hl : s.Legal) (hr : s.ReadOk) (hw : s.WriteOk) (ha : s.codeAvail = true) :
    (∃ t, decCode s = .next t ∧ Moved s t 3 (List.replicate s.nextCode.toNat s.pol)
        ∧ t.pol = if s.nextCode = 7 then s.pol else !s.pol)
      ∨ TakesOverflow s 3 (List.replicate s.nextCode.toNat s.pol) (decCode s) := by
  rcases decCode_spec hp hm hl hr hw ha s.nextCode rfl with ⟨-, t, hmv, -, hpol, e⟩ | ⟨hfull, -⟩
  · exact .inl ⟨t, e, hmv, hpol⟩
  · obtain ⟨hcode, hc⟩ := getCode_spec hr ((State.codeAvail_iff hp hr hl.1.1).mp ha)
    have hpol : (getCode s).2.pol = s.pol := by rw [hc.onlyInput]
    have hself : (getCode s).2.setCnt s.cnt = (getCode s).2 :=
      State.setCnt_self (by rw [hc.onlyInput])
    have hover := takesOverflow_of_lt s.cnt (fun x => if s.nextCode = 7 then x else x.flipPol)
      hm hl hw hc (bs := List.replicate s.nextCode.toNat s.pol)
      (by rw [List.length_replicate]; exact hfull)
    have e : decCode s = exec (decodeCode s.nextCode) (getCode s).2 := by
      unfold decCode
      simp only [hcode]
      rfl
    rw [e, exec_code, hpol]
    rw [hself] at hover
    exact .inr hover

/-! ## The run of DECODE -/

/-- With no whole code left, DEC_FINISH ends the command; the bits still unread are in a byte already
read. -/
theorem decode_run_finish {s t : State} {bs : List Bool} (hp : Progress s t bs) (hi : t.Inv)
    (hph : t.phase = .dec) (hh : t.host = []) (hleft : 8 * t.srcLen < t.rd.pos + 3) :
    ∃ u, Host.Core.run Sys2Proof.core 1 t = .next u ∧ CommandEnd s u bs := by
  obtain ⟨hwf, hm, hl, hr, hw⟩ := hi.of_dec hph
  have ha : t.codeAvail = false := Bool.eq_false_of_not_eq_true fun h => by
    have hmore := (State.codeAvail_iff hwf hr hl.1.1).mp h
    omega
  obtain ⟨v, n, hn, hmv, hbit, -, hrd, e⟩ := decFinish_spec hm hl hr hw
  have hlen : t.srcLen = s.srcLen := by rw [hp.only]
  have hread : v.rd.touched = s.srcLen := by
    have hle := hr.pos_le
    rw [hrd, Cursor.touched_eq]
    omega
  exact ⟨_, run_of_ended hh ((engineStep_of_not_codeAvail hph ha).trans e) rfl 0,
    .completes v n (hp.moved hmv) hn hmv.writeOk hbit hread rfl⟩

/-- From any state of a DECODE, a step for each whole code left and one more end the command with the
bits still to come. -/
theorem decode_run {s t : State} {bs : List Bool} (hp : Progress s t bs) (hi : t.Inv)
    (hph : t.phase = .dec) (hh : t.host = []) :
    ∃ u, Host.Core.run Sys2Proof.core ((codesOf t.restBits).length + 1) t = .next u
      ∧ CommandEnd s u (bs ++ expand t.pol (codesOf t.restBits)) := by
  generalize hcodes : codesOf t.restBits = cs
  have hcount := congrArg List.length hcodes
  rw [length_codesOf, t.length_restBits] at hcount
  induction cs generalizing t bs with
  | nil =>
    have hnone : expand t.pol [] = [] := rfl
    rw [List.length_nil] at hcount
    rw [hnone, List.append_nil]
    exact decode_run_finish hp hi hph hh (by omega)
  | cons v cs ih =>
    obtain ⟨hwf, hm, hl, hr, hw⟩ := hi.of_dec hph
    rw [List.length_cons] at hcount
    have hmore : t.rd.pos + 3 ≤ 8 * t.srcLen := by omega
    have ha : t.codeAvail = true := (State.codeAvail_iff hwf hr hl.1.1).mpr hmore
    rw [State.codesOf_restBits hmore] at hcodes
    obtain ⟨rfl, hrest⟩ := List.cons.inj hcodes
    have hmoves := decCode_moves hwf hm hl hr hw ha
    rw [← engineStep_of_codeAvail hph ha] at hmoves
    rw [expand_cons]
    rcases hmoves with ⟨t', e, hmv, hpol⟩ | hover
    · have hh' : t'.host = [] := by rw [hmv.only]; exact hh
      have hcount' : (8 * t'.srcLen - t'.rd.pos) / 3 = cs.length := by
        rw [hmv.srcLen, hmv.pos]; omega
      have hrun := ih (hp.moved hmv) (engineStep_keeps_inv hi e) (hmv.phase.trans hph) hh'
        (by rw [hmv.restBits hl, hrest]) hcount'
      rwa [hpol, List.append_assoc, ← run_succ_of_engineStep hh e] at hrun
    · exact hover.commandEnd hp (Nat.le_add_left 1 _) _ hh

/-- Settles O35: the run of `decode_run` from the START on, the codes of the whole input being still to
come. -/
theorem decodeComputesItsFunction : Obligations.DecodeComputesItsFunction := by
  unfold Obligations.DecodeComputesItsFunction
  intro s hready hm hh
  have hrun := decode_run (Progress.startWork s .decode) (hready.startWork_inv hm .decode) rfl hh
  have hrest : ((s.acceptStart .decode).startWork .decode).restBits = bitsOf s.srcBytes := rfl
  have hcount : (codesOf (bitsOf s.srcBytes)).length = 8 * s.srcLen / 3 := by
    rw [length_codesOf, s.bitsOf_srcBytes, List.length_map, List.length_range]
  rw [hrest, hcount] at hrun
  obtain ⟨t, ht, hend⟩ := hrun
  refine ⟨_, t, start_of_ready hready .decode, ht, ?_⟩
  have hends := hend.endsAs rfl
  rw [decodeFn_eq]
  exact hends

end Sys2Proof.Machine
end

section
/-!
PROOF. The START of the two commands (`43_commands.md` R201, R202, R208): which one is accepted, why one is
refused, and what an accepted one leaves unchanged.
-/

namespace Sys2Proof.Machine

/-! ## The acceptance test -/

/-- Settles O24: each test of the acceptance is the condition it stands for, byte by byte. -/
theorem acceptanceTestIsLegality : Obligations.AcceptanceTestIsLegality := by
  unfold Obligations.AcceptanceTestIsLegality
  exact State.illegal_eq_none_iff

/-- The reason to refuse in the words of `43_commands.md` R208: an operand never written, then the first
of L1 to L4 that fails. -/
theorem State.illegal_eq (s : State) :
    s.illegal =
      if ¬s.written.all = true then some .operandNeverWritten
      else if ¬s.LengthsLegal then some .lengthTopBitSet
      else if ¬s.RegionsFit then some .regionWraps
      else if ¬s.RegionsPlain then some .notPlainMemory
      else if ¬s.RegionsDisjoint then some .regionsOverlap
      else none := by
  unfold State.illegal
  simp only [← s.lengthsOk_iff, ← s.noWrap_iff, ← s.plainRegions_iff, ← s.disjointRegions_iff,
    Bool.not_eq_true, Bool.not_eq_true']

/-- The five reasons to refuse a START. -/
theorem State.mem_of_illegal_eq_some {s : State} {r : Refusal} (h : s.illegal = some r) :
    r ∈ [Refusal.operandNeverWritten, .lengthTopBitSet, .regionWraps, .notPlainMemory,
      .regionsOverlap] := by
  unfold State.illegal at h
  split_ifs at h <;> cases h <;> decide

/-! ## What a START does -/

/-- Both commands are a START, each of its operation (`43_commands.md` R203, R204). -/
theorem exists_start_of_command {i : Instr} (h : i = .encode ∨ i = .decode) :
    ∃ o, ∀ s, exec i s = start o s := by
  rcases h with rfl | rfl
  · exact ⟨.encode, fun _ => rfl⟩
  · exact ⟨.decode, fun _ => rfl⟩

/-- The zero-length command completes in its START (`43_commands.md` R202). -/
theorem start_of_empty {s : State} (hb : s.busy = false) (hw : s.written.srcLen = true)
    (hz : s.srcLen = 0) (o : Op) : start o s = .next (s.acceptStart o).completeEmpty := by
  unfold start
  rw [hb, hw, if_pos hz]
  rfl

/-- With SRC_LEN never written a START is refused, whatever SRC_LEN holds (`70_reset_and_hazards.md`
R252). -/
theorem start_of_srcLen_unwritten {s : State} (hb : s.busy = false) (hw : s.written.srcLen = false)
    (o : Op) : start o s = .refused .operandNeverWritten := by
  unfold start
  rw [hb, hw]
  rfl

theorem Written.all_of_srcLen_unwritten {w : Written} (h : w.srcLen = false) : w.all = false := by
  unfold Written.all
  rw [h, Bool.and_false]
  rfl

/-- A START with SRC_LEN != 0 that the acceptance test does not pass is refused for the test's reason
(`43_commands.md` R208). -/
theorem start_of_illegal {s : State} {r : Refusal} (hb : s.busy = false) (hne : s.srcLen ≠ 0)
    (h : s.illegal = some r) (o : Op) : start o s = .refused r := by
  cases hw : s.written.srcLen with
  | false =>
    have hall := Written.all_of_srcLen_unwritten hw
    rw [s.illegal_eq, if_pos (by rw [hall]; decide)] at h
    cases h
    exact start_of_srcLen_unwritten hb hw o
  | true =>
    unfold start
    rw [hb, hw, if_neg hne, h]
    rfl

/-- Settles O20: both commands are a START. -/
theorem zeroLengthCommandCompletes : Obligations.ZeroLengthCommandCompletes := by
  unfold Obligations.ZeroLengthCommandCompletes
  exact fun s hb hw hz => ⟨start_of_empty hb hw hz .encode, start_of_empty hb hw hz .decode⟩

/-- Settles O25: the acceptance test has a reason, and both commands answer it. -/
theorem illegalCommandsAreRefused : Obligations.IllegalCommandsAreRefused := by
  unfold Obligations.IllegalCommandsAreRefused
  intro s hb hne hbad
  obtain ⟨r, hr⟩ := Option.ne_none_iff_exists'.mp fun hnone => hbad (s.illegal_eq_none_iff.mp hnone)
  exact ⟨r, start_of_illegal hb hne hr .encode, start_of_illegal hb hne hr .decode,
    State.mem_of_illegal_eq_some hr⟩

/-- Settles O57: the acceptance test down its branches, the tests before the failing one passing. -/
theorem refusedStartsNameTheirReason : Obligations.RefusedStartsNameTheirReason := by
  unfold Obligations.RefusedStartsNameTheirReason
  intro s i hb hi
  obtain ⟨o, ho⟩ := exists_start_of_command hi
  have hrefused : ∀ {r}, s.srcLen ≠ 0 → s.illegal = some r → exec i s = .refused r :=
    fun hne hr => (ho s).trans (start_of_illegal hb hne hr o)
  refine ⟨fun hw => (ho s).trans (start_of_srcLen_unwritten hb hw o), fun hne hw => ?_,
    fun hne hw h1 => ?_, fun hne hw h1 h2 => ?_, fun hne hw h1 h2 h3 => ?_,
    fun hne hw h1 h2 h3 h4 => ?_⟩
  · exact hrefused hne (by rw [s.illegal_eq, if_pos (by rw [hw]; decide)])
  · exact hrefused hne (by rw [s.illegal_eq, if_neg (not_not_intro hw), if_pos h1])
  · exact hrefused hne (by
      rw [s.illegal_eq, if_neg (not_not_intro hw), if_neg (not_not_intro h1), if_pos h2])
  · exact hrefused hne (by
      rw [s.illegal_eq, if_neg (not_not_intro hw), if_neg (not_not_intro h1),
        if_neg (not_not_intro h2), if_pos h3])
  · exact hrefused hne (by
      rw [s.illegal_eq, if_neg (not_not_intro hw), if_neg (not_not_intro h1),
        if_neg (not_not_intro h2), if_neg (not_not_intro h3), if_pos h4])

/-! ## What a START leaves unchanged -/

/-- The frame of a START, accepted or ignored, in every state (`43_commands.md` R201, R202). -/
theorem start_frame {o : Op} {s t : State} (h : start o s = .next t) :
    t = { s with
        op := t.op, statusOvf := t.statusOvf, result := t.result, phase := t.phase, rd := t.rd,
        wr := t.wr, wacc := t.wacc, ovf := t.ovf, pol := t.pol, cnt := t.cnt, bus := t.bus }
      ∧ (o = .decode → t.cnt = s.cnt) := by
  rcases start_cases h with ⟨-, rfl⟩ | ⟨-, -, -, rfl⟩ | ⟨-, -, -, rfl⟩
  · exact ⟨rfl, fun _ => rfl⟩
  · exact ⟨rfl, fun _ => rfl⟩
  · cases o with
    | encode => exact ⟨rfl, nofun⟩
    | decode => exact ⟨rfl, fun _ => rfl⟩

/-- Settles O23: both commands are a START. -/
theorem commandsFrame : Obligations.CommandsFrame := by
  unfold Obligations.CommandsFrame
  rintro i s t (rfl | rfl) h
  · obtain ⟨hframe, -⟩ := start_frame (o := .encode) h
    exact ⟨hframe, nofun⟩
  · obtain ⟨hframe, hcnt⟩ := start_frame (o := .decode) h
    exact ⟨hframe, fun _ => hcnt rfl⟩

end Sys2Proof.Machine
end

section
/-!
PROOF. The phase, RESULT and STATUS from step to step (`43_commands.md` R206, R207): what changes them, and
to which phase.
-/

namespace Sys2Proof.Machine

/-! ## The engine's steps -/

/-- `t` is in the phase of `s`, or the command has ended in it. -/
def State.StaysOrEnds (s t : State) : Prop := t.phase = s.phase ∨ t.phase = .done

theorem getBit_phase (s : State) : (getBit s).2.phase = s.phase := by
  unfold getBit State.fetchByte
  simp only
  split <;> rfl

theorem getCode_phase (s : State) : (getCode s).2.phase = s.phase :=
  ((getBit_phase _).trans (getBit_phase _)).trans (getBit_phase s)

/-- Emitting bits and then an update keeps the phase, but for the exception and for an update that
completes the command. -/
theorem staysOrEnds_of_emit {s u t : State} {bs : List Bool} {f : State → State}
    (h : ((putList bs u).map f).outcome = .next t) (hu : u.phase = s.phase)
    (hf : ∀ x, State.StaysOrEnds x (f x)) : s.StaysOrEnds t := by
  rcases putList_frame bs u with ⟨x, e, ho, -⟩ | ⟨x, e, -⟩
  · have hx : x.phase = s.phase := by rw [ho]; exact hu
    rw [e] at h
    cases h
    exact (hf x).imp_left (·.trans hx)
  · rw [e] at h
    cases h
    exact .inr rfl

theorem encScan_staysOrEnds {s t : State} (h : encScan s = .next t) : s.StaysOrEnds t := by
  have hget := getBit_phase s
  unfold encScan at h
  simp only [putCode_eq_putList] at h
  split_ifs at h
  · exact staysOrEnds_of_emit h hget fun _ => .inl rfl
  · cases h
    exact .inl hget
  · exact staysOrEnds_of_emit h hget fun _ => .inl rfl

theorem encFinish_staysOrEnds {s t : State} (h : encFinish s = .next t) : s.StaysOrEnds t := by
  unfold encFinish at h
  rw [putCode_eq_putList] at h
  exact staysOrEnds_of_emit h rfl fun _ => .inr rfl

theorem decCode_staysOrEnds {s t : State} (h : decCode s = .next t) : s.StaysOrEnds t := by
  unfold decCode at h
  simp only [exec_code] at h
  refine staysOrEnds_of_emit h (getCode_phase s) fun x => .inl ?_
  split <;> rfl

/-- An engine step leaves the phase or completes the command, in every state (`43_commands.md` R207). -/
theorem engineStep_staysOrEnds {s t : State} (h : engineStep s = .next t) : s.StaysOrEnds t := by
  unfold engineStep at h
  split at h
  · cases h; exact .inl rfl
  · split at h
    · exact encFinish_staysOrEnds h
    · exact encScan_staysOrEnds h
  · split at h
    · exact decCode_staysOrEnds h
    · cases h; exact .inr rfl
  · cases h; exact .inl rfl

/-- A change of phase by an engine step is the end of a command. -/
theorem engineStep_phase_change {s t : State} (h : engineStep s = .next t) (hne : t.phase ≠ s.phase) :
    s.busy = true ∧ t.phase = .done := by
  refine ⟨Bool.eq_true_of_not_eq_false fun hb => hne ?_, (engineStep_staysOrEnds h).resolve_left hne⟩
  rw [engineStep_of_not_busy hb] at h
  cases h
  rfl

/-! ## The host's actions -/

/-- `t` shows the phase, RESULT and OVF of `s`. -/
def State.SameStatus (s t : State) : Prop :=
  t.phase = s.phase ∧ t.result = s.result ∧ t.statusOvf = s.statusOvf

theorem State.SameStatus.refl (s : State) : s.SameStatus s := ⟨rfl, rfl, rfl⟩

theorem State.writeOperand_sameStatus (s : State) (r : Reg) (v : Nat) :
    s.SameStatus (s.writeOperand r v) := by
  cases r <;> exact .refl s

/-- Of the host's actions only a reset and a START do more to the phase, RESULT and OVF than the engine
does where the host waits. -/
theorem hostAct_status_cases {a : HostAction} {s t : State} (h : hostAct a s = .next t) :
    s.SameStatus t
      ∨ (a = .reset ∧ t.phase = .idle)
      ∨ (∃ w, a = .writeReg (Reg.ctrl.offset s.widths) w ∧ w.testBit 0 = true
        ∧ start (if w.testBit 1 then .decode else .encode) s = .next t)
      ∨ (a = .wait ∧ engineStep s = .next t) := by
  cases a with
  | writeReg off v =>
    rcases hostWriteReg_cases h with ⟨rfl, -⟩ | ⟨-, r, -, -, rfl⟩ | ⟨rfl, h0, hstart⟩
    · exact .inl (.refl t)
    · exact .inl (s.writeOperand_sameStatus r v)
    · exact .inr (.inr (.inl ⟨v, rfl, h0, hstart⟩))
  | readReg off =>
    obtain ⟨r, -, rfl⟩ := hostReadReg_cases h
    rw [s.readReg_frame r]
    exact .inl (.refl s)
  | writeMem a v =>
    obtain ⟨-, -, -, rfl⟩ := hostWriteMem_cases h
    exact .inl (.refl s)
  | readMem a =>
    obtain ⟨-, -, -, rfl⟩ := hostReadMem_cases h
    exact .inl (.refl s)
  | reset =>
    rcases hostReset_cases h with ⟨-, rfl⟩ | ⟨-, rfl⟩
    · exact .inr (.inl ⟨rfl, rfl⟩)
    · exact .inr (.inl ⟨rfl, rfl⟩)
  | wait => exact .inr (.inr (.inr ⟨rfl, h⟩))

theorem State.busy_of_done {s : State} (h : s.phase = .done) : s.busy = false := by
  unfold State.busy; rw [h]; rfl

/-- Settles O49: in DONE the engine has no step, and the host's actions that could change the status are
excluded. -/
theorem resultPersists : Obligations.ResultPersists := by
  unfold Obligations.ResultPersists
  intro s t hdone h hreset hctrl
  have hb := State.busy_of_done hdone
  suffices hsame : s.SameStatus t by
    obtain ⟨hphase, hresult, hovf⟩ := hsame
    exact ⟨hphase.trans hdone, hresult, hovf⟩
  rcases step_cases h with ⟨-, h⟩ | ⟨a, rest, hhost, h⟩
  · rw [engineStep_of_not_busy hb] at h
    cases h
    exact .refl s
  · rcases hostAct_status_cases h with hsame | ⟨rfl, -⟩ | ⟨w, rfl, h0, -⟩ | ⟨-, h⟩
    · exact hsame
    · exact absurd hhost (hreset rest)
    · exact absurd h0 (by rw [hctrl w rest hhost]; decide)
    · rw [engineStep_of_not_busy (s := s.setHost rest) hb] at h
      cases h
      exact .refl s

/-! ## The phase table -/

/-- A change of phase by a START (`43_commands.md` R207): it was accepted, and goes to DONE, DEC or ENC. -/
theorem start_phase_change {o : Op} {s t : State} (h : start o s = .next t) (hne : t.phase ≠ s.phase) :
    s.busy = false
      ∧ t.phase = if s.srcLen = 0 then .done else if o = .decode then .dec else .enc := by
  rcases start_cases h with ⟨-, rfl⟩ | ⟨hb, -, hz, rfl⟩ | ⟨hb, hz, -, rfl⟩
  · exact absurd rfl hne
  · rw [if_pos hz]
    exact ⟨hb, rfl⟩
  · rw [if_neg hz]
    cases o <;> exact ⟨hb, rfl⟩

/-- Settles O50: the engine is next, or the host's action is a reset or a START. -/
theorem phaseChangesOnlySo : Obligations.PhaseChangesOnlySo := by
  unfold Obligations.PhaseChangesOnlySo
  intro s t h hne
  rcases step_cases h with ⟨hhost, h⟩ | ⟨a, rest, hhost, h⟩
  · obtain ⟨hb, hdone⟩ := engineStep_phase_change h hne
    exact .inr (.inr ⟨hb, .inl hhost, hdone⟩)
  · rcases hostAct_status_cases h with ⟨hphase, -⟩ | ⟨rfl, hidle⟩ | ⟨w, rfl, h0, hstart⟩ | ⟨rfl, h⟩
    · exact absurd hphase hne
    · exact .inl ⟨rest, hhost, hidle⟩
    · obtain ⟨hb, hphase⟩ := start_phase_change hstart hne
      refine .inr (.inl ⟨hb, w, rest, hhost, h0, hphase.trans ?_⟩)
      cases w.testBit 1 <;> rfl
    · obtain ⟨hb, hdone⟩ := engineStep_phase_change h hne
      exact .inr (.inr ⟨hb, .inr ⟨rest, hhost⟩, hdone⟩)

end Sys2Proof.Machine
end

section
/-!
PROOF. Runs of several steps: the host issuing a command (`43_commands.md` R200), and that the outcome of a
command depends on its operands and the source bytes alone (R209).
-/

namespace Sys2Proof.Machine

open Contract

/-! ## Runs -/

theorem run_succ_of_step {s t : State} (h : step s = .next t) (k : Nat) :
    Host.Core.run Sys2Proof.core (k + 1) s = Host.Core.run Sys2Proof.core k t := by
  have hstep : Sys2Proof.core.step s = .next t := h
  simp only [Host.Core.run, hstep]

/-- A run of one step and more that answers a state took its first step. -/
theorem run_succ_cases {s t : State} {k : Nat}
    (h : Host.Core.run Sys2Proof.core (k + 1) s = .next t) :
    ∃ u, step s = .next u ∧ Host.Core.run Sys2Proof.core k u = .next t := by
  cases hstep : step s with
  | next u => exact ⟨u, rfl, run_succ_of_step hstep k ▸ h⟩
  | fault r =>
    have hcore : Sys2Proof.core.step s = .fault r := hstep
    simp only [Host.Core.run, hcore] at h
    cases h
  | refused r =>
    have hcore : Sys2Proof.core.step s = .refused r := hstep
    simp only [Host.Core.run, hcore] at h
    cases h

/-- What every step keeps, a run keeps. -/
theorem run_keeps {P : State → Prop} (hP : ∀ s t, P s → step s = .next t → P t) {s t : State} {k : Nat}
    (hs : P s) (h : Host.Core.run Sys2Proof.core k s = .next t) : P t := by
  induction k generalizing s with
  | zero => cases h; exact hs
  | succ k ih =>
    obtain ⟨u, hstep, hrun⟩ := run_succ_cases h
    exact ih (hP s u hs hstep) hrun

theorem run_add {s t : State} {k : Nat} (h : Host.Core.run Sys2Proof.core k s = .next t) (j : Nat) :
    Host.Core.run Sys2Proof.core (k + j) s = Host.Core.run Sys2Proof.core j t := by
  induction k generalizing s with
  | zero => cases h; rw [Nat.zero_add]
  | succ k ih =>
    obtain ⟨u, hstep, hrun⟩ := run_succ_cases h
    rw [Nat.add_right_comm, run_succ_of_step hstep, ih hrun]

theorem run_widths {s t : State} {k : Nat} (h : Host.Core.run Sys2Proof.core k s = .next t) :
    t.widths = s.widths :=
  run_keeps (P := fun u => u.widths = s.widths)
    (fun u v hu hstep => (stepKeepsPlatformMap u v hstep).1.trans hu) rfl h

/-- A host that has nothing to do stays so: the engine takes every step. -/
theorem run_host_nil {s t : State} {k : Nat} (hh : s.host = [])
    (h : Host.Core.run Sys2Proof.core k s = .next t) : t.host = [] :=
  run_keeps (P := fun u => u.host = []) (fun u v hu hstep => by
    have honly := engineStep_onlyEngine ((step_of_host_nil hu).symm.trans hstep)
    unfold State.OnlyEngine at honly
    rw [honly]
    exact hu) hh h

/-- Steps after the end of a command change nothing (`43_commands.md` R207). -/
theorem run_past_end {s t : State} {k n : Nat} (hh : s.host = [])
    (h : Host.Core.run Sys2Proof.core k s = .next t) (hb : t.busy = false) (hn : k ≤ n) :
    Host.Core.run Sys2Proof.core n s = .next t := by
  obtain ⟨j, rfl⟩ := Nat.exists_eq_add_of_le hn
  rw [run_add h, run_of_not_busy (run_host_nil hh h) hb]

/-! ## The host issues a command -/

/-- In IDLE and DONE a run whose next action is an operand write goes on from the state it leaves, which is
not BUSY either. -/
theorem run_of_operand_write {s t : State} {r : Reg} {v k : Nat} {rest : List HostAction}
    (hb : s.busy = false) (hr : r ≠ .ctrl) (h : s.host = .writeReg (r.offset s.widths) v :: rest)
    (hrun : ((s.setHost rest).writeOperand r v).busy = false →
      Host.Core.run Sys2Proof.core k ((s.setHost rest).writeOperand r v) = .next t) :
    Host.Core.run Sys2Proof.core (k + 1) s = .next t :=
  (run_succ_of_step (step_writeReg_of_not_busy hb hr h) k).trans
    (hrun ((State.writeOperand_busy (s.setHost rest) r v).trans hb))

/-- Settles O53: four operand writes, each found at its register's offset. -/
theorem hostIssuesACommand : Obligations.HostIssuesACommand := by
  unfold Obligations.HostIssuesACommand
  intro s src n dst cap w rest hb h
  refine run_of_operand_write hb (r := .srcAddr) nofun h fun hb1 => ?_
  refine run_of_operand_write hb1 (r := .srcLen) nofun rfl fun hb2 => ?_
  refine run_of_operand_write hb2 (r := .dstAddr) nofun rfl fun hb3 => ?_
  refine run_of_operand_write hb3 (r := .dstLen) nofun rfl fun _ => ?_
  rfl

/-! ## The function of a command -/

/-- The function of a command (`41_encoder.md` R140, `42_decoder.md` R170), by its operation. -/
def Op.fn : Op → List Byte → Nat → Option (List Byte)
  | .encode => encodeFn
  | .decode => decodeFn

/-- The output a command would have with unlimited capacity, by its operation. -/
def Op.out : Op → List Byte → List Byte
  | .encode => encodeOut
  | .decode => decodeOut

theorem State.EndsAs.phase {s t : State} {r : Option (List Byte)} {out : List Byte}
    (h : s.EndsAs t r out) : t.phase = .done := by
  cases r with
  | some bytes => obtain ⟨hphase, -⟩ := h; exact hphase
  | none => obtain ⟨⟨-, -, -, hphase⟩, -⟩ := h; exact hphase

/-- A command that is ready has after `8*SRC_LEN + 1` steps ended as its function says: DECODE may have
ended before. -/
theorem command_computes (o : Op) {s : State} (hr : s.Ready) (hm : s.memWf = true) (hh : s.host = []) :
    ∃ t, Host.Core.run Sys2Proof.core (8 * s.srcLen + 1) ((s.acceptStart o).startWork o) = .next t
      ∧ s.EndsAs t (o.fn s.srcBytes s.dstLen) (o.out s.srcBytes) := by
  have hstart := start_of_ready hr o
  cases o with
  | encode =>
    obtain ⟨s0, t, h0, hrun, hend⟩ := encodeComputesItsFunction s hr hm hh
    obtain rfl := Host.Outcome.next.inj (hstart.symm.trans h0)
    exact ⟨t, hrun, hend⟩
  | decode =>
    obtain ⟨s0, t, h0, hrun, hend⟩ := decodeComputesItsFunction s hr hm hh
    obtain rfl := Host.Outcome.next.inj (hstart.symm.trans h0)
    exact ⟨t, run_past_end hh hrun (State.busy_of_done hend.phase) (by omega), hend⟩

/-! ## Two commands with the same operands and source -/

/-- Two commands that end as the same value of their function says, at the same destination, end
alike. -/
theorem State.EndsAs.agree {s s' t t' : State} {r : Option (List Byte)} {out : List Byte}
    (h : s.EndsAs t r out) (h' : s'.EndsAs t' r out) (hw : t'.widths = t.widths)
    (haddr : s'.dstByteAddr = s.dstByteAddr) :
    t'.result = t.result ∧ t'.statusOvf = t.statusOvf
      ∧ (t.statusOvf = false → ∀ k, k < t.result →
          t'.mem.read (s.dstByteAddr k) = t.mem.read (s.dstByteAddr k)) := by
  cases r with
  | some bytes =>
    obtain ⟨-, hovf, hres, hbytes, -⟩ := h
    obtain ⟨-, hovf', hres', hbytes', -⟩ := h'
    rw [haddr] at hbytes'
    refine ⟨hres'.trans hres.symm, hovf'.trans hovf.symm, fun _ k hk => ?_⟩
    rw [hres] at hk
    exact (hbytes' k hk).trans (hbytes k hk).symm
  | none =>
    obtain ⟨⟨-, hres, hovf, -⟩, -⟩ := h
    obtain ⟨⟨-, hres', hovf', -⟩, -⟩ := h'
    refine ⟨by rw [hres', hres, hw], hovf'.trans hovf.symm, fun hok => ?_⟩
    rw [hovf] at hok
    cases hok

theorem State.startWork_widths (s : State) (o : Op) : ((s.acceptStart o).startWork o).widths = s.widths := by
  cases o <;> rfl

theorem State.dstByteAddr_congr {s s' : State} (hw : s'.widths = s.widths) (ha : s'.dstAddr = s.dstAddr) :
    s'.dstByteAddr = s.dstByteAddr := by
  funext i
  unfold State.dstByteAddr
  rw [hw, ha]

/-- Settles O36: each command ends as its function says, and the function takes the source bytes and
DST_LEN alone. -/
theorem commandsAreIndependent : Obligations.CommandsAreIndependent := by
  unfold Obligations.CommandsAreIndependent
  intro s s' hr hr' hm hm' hh hh' hw _ hn ha hcap hsrc i hi
  obtain ⟨o, ho⟩ := exists_start_of_command hi
  obtain ⟨t, hrun, hend⟩ := command_computes o hr hm hh
  obtain ⟨t', hrun', hend'⟩ := command_computes o hr' hm' hh'
  rw [hn] at hrun'
  rw [hsrc, hcap] at hend'
  have hwidths : t'.widths = t.widths := by
    rw [run_widths hrun', run_widths hrun, State.startWork_widths, State.startWork_widths, hw]
  obtain ⟨hres, hovf, hbytes⟩ := hend.agree hend' hwidths (State.dstByteAddr_congr hw ha)
  exact ⟨_, _, t, t', (ho s).trans (start_of_ready hr o), (ho s').trans (start_of_ready hr' o), hrun,
    hrun', hend.phase, hend'.phase, hres, hovf, hbytes⟩

end Sys2Proof.Machine
end

section
/-!
PROOF. Reset (`70_reset_and_hazards.md` R250, R251) and the ownership of the buffers while BUSY (R255).
-/

namespace Sys2Proof.Machine

/-! ## The bytes of the regions, as the host's accesses test them -/

theorem State.srcByteAddr_lt (s : State) (i : Nat) : s.srcByteAddr i < s.widths.addrSpace :=
  Widths.narrowAddr_lt s.widths _

theorem State.Legal.inSrc_srcByteAddr {s : State} (hl : s.Legal) {i : Nat} (hi : i < s.srcLen) :
    s.inSrc (s.srcByteAddr i) = true :=
  Bool.eq_true_of_not_eq_false fun ha => hl.srcByteAddr_ne_of_not_inSrc ha hi rfl

theorem State.Legal.inDst_dstByteAddr {s : State} (hl : s.Legal) {i : Nat} (hi : i < s.dstLen) :
    s.inDst (s.dstByteAddr i) = true :=
  Bool.eq_true_of_not_eq_false fun ha => hl.dstByteAddr_ne_of_not_inDst ha hi rfl

/-- L4 of `43_commands.md` R208, as the host's load tests it. -/
theorem State.Legal.inDst_srcByteAddr {s : State} (hl : s.Legal) {i : Nat} (hi : i < s.srcLen) :
    s.inDst (s.srcByteAddr i) = false := by
  have haddr := hl.srcByteAddr_eq hi
  obtain ⟨-, -, -, hdisj⟩ := hl
  have hne := hdisj i hi (s.srcByteAddr i - s.dstAddr)
  unfold State.inDst
  rw [Bool.and_eq_false_iff, decide_eq_false_iff_not, decide_eq_false_iff_not]
  omega

/-- L3 of `43_commands.md` R208, as the host's load tests it. -/
theorem State.Legal.plainReadable_srcByteAddr {s : State} (hl : s.Legal) {i : Nat}
    (hi : i < s.srcLen) : plainReadable s.windows (s.srcByteAddr i) 1 = true := by
  rw [hl.srcByteAddr_eq hi, plainReadable_iff]
  obtain ⟨-, -, ⟨hread, -⟩, -⟩ := hl
  intro k hk
  obtain rfl : k = 0 := Nat.lt_one_iff.mp hk
  exact hread i hi

/-! ## The host's accesses while BUSY (`70_reset_and_hazards.md` R255) -/

theorem hostWriteMem_of_owned {s : State} {a : Nat} (v : Byte) (ha : a < s.widths.addrSpace)
    (hb : s.busy = true) (hown : s.inSrc a = true ∨ s.inDst a = true) :
    hostWriteMem a v s = .refused .bufferNotOwned := by
  have hin : (s.inSrc a || s.inDst a) = true := Bool.or_eq_true_iff.mpr hown
  unfold hostWriteMem
  rw [if_neg (Nat.not_le.mpr ha), hb, hin]
  rfl

theorem hostReadMem_of_owned {s : State} {a : Nat} (ha : a < s.widths.addrSpace)
    (hb : s.busy = true) (hown : s.inDst a = true) :
    hostReadMem a s = .refused .bufferNotOwned := by
  unfold hostReadMem
  rw [if_neg (Nat.not_le.mpr ha), hb, hown]
  rfl

/-- Outside the destination region a load of plain memory is the same whether the block is BUSY or not. -/
theorem hostReadMem_of_not_inDst {s : State} {a : Nat} (ha : a < s.widths.addrSpace)
    (hout : s.inDst a = false) (hp : plainReadable s.windows a 1 = true) :
    hostReadMem a s = .next (s.setHostData (s.mem.read a).toNat) := by
  unfold hostReadMem
  rw [if_neg (Nat.not_le.mpr ha), hout, Bool.and_false, hp]
  rfl

/-- Settles O51: a byte of a region lies where the host's access tests for that region, and a source byte
of a legal command is readable and lies outside the destination. -/
theorem buffersBelongToTheEngineWhileBusy : Obligations.BuffersBelongToTheEngineWhileBusy := by
  unfold Obligations.BuffersBelongToTheEngineWhileBusy
  intro s rest hinv hb
  obtain ⟨-, -, -, -, hbusy⟩ := hinv
  obtain ⟨-, hl, -⟩ := hbusy hb
  refine ⟨fun i v hi h => ?_, fun i v hi h => ?_, fun i hi h => ?_, fun i hi h => ?_⟩ <;>
    refine (step_of_host_cons h).trans ?_
  · exact hostWriteMem_of_owned (s := s.setHost rest) v (s.srcByteAddr_lt i) hb
      (.inl (hl.inSrc_srcByteAddr hi))
  · exact hostWriteMem_of_owned (s := s.setHost rest) v (s.dstByteAddr_lt i) hb
      (.inr (hl.inDst_dstByteAddr hi))
  · exact hostReadMem_of_owned (s := s.setHost rest) (s.dstByteAddr_lt i) hb (hl.inDst_dstByteAddr hi)
  · exact hostReadMem_of_not_inDst (s := s.setHost rest) (s.srcByteAddr_lt i) (hl.inDst_srcByteAddr hi)
      (hl.plainReadable_srcByteAddr hi)

/-! ## Reset (`70_reset_and_hazards.md` R250, R251) -/

theorem hostReset_of_not_busy {s : State} (hb : s.busy = false) : hostReset s = .next s.resetRegs := by
  unfold hostReset
  rw [hb]
  rfl

theorem hostReset_of_busy {s : State} (hb : s.busy = true) :
    hostReset s = .next { s.resetRegs with
      mem := freeBytes s.widths s.mem s.dstAddr s.resetRegs.draws s.dstLen
      draws := s.resetRegs.draws + s.dstLen } := by
  unfold hostReset
  rw [hb]
  rfl

/-- Settles O52: the registers are the same reset in every phase; memory is left alone in IDLE and DONE, and
while BUSY the free values land in the destination region only. -/
theorem resetAction : Obligations.ResetAction := by
  unfold Obligations.ResetAction
  intro s rest h
  have hstep : step s = hostReset (s.setHost rest) := step_of_host_cons h
  cases hb : s.busy with
  | false =>
    exact ⟨_, hstep.trans (hostReset_of_not_busy (s := s.setHost rest) hb), rfl, rfl, rfl, rfl, rfl,
      fun _ => rfl, fun _ _ _ => rfl⟩
  | true =>
    exact ⟨_, hstep.trans (hostReset_of_busy (s := s.setHost rest) hb), rfl, rfl, rfl, rfl, rfl,
      nofun, fun hm a ha => freeBytes_read s.dstAddr _ hm a s.dstLen ha⟩

end Sys2Proof.Machine
end
